-- ==== Sys2Proof/Word.lean ====
section
/-! DEFINITION. The word types of SAMN-MCF: the widths spec/10_state.md R30 and spec/42_message_types.md give. -/

namespace Sys2Proof

/-- UInt8: a buffer byte, a pipe id, an id as MSG_IN carries it (spec/42_message_types.md, primitive types). -/
abbrev Byte := BitVec 8

/-- UInt16: a node address, an interval, a milliamp count. -/
abbrev Half := BitVec 16

/-- UInt32: ARG0, RESULT, STATUS, a command word, a NodeId. -/
abbrev Word := BitVec 32

end Sys2Proof
end

