-- ==== Sys2Proof/Config.lean ====
section
/-! DEFINITION. The implementation parameters of spec/00_scope.md R7, and the two values the spec leaves open. -/

namespace Sys2Proof

/-- WBUF_SIZE: bytes of the working buffer (R7, decision D2). -/
abbrev Config.wbufSize : Nat := 32

/-- PAYLOAD_SIZE: bytes of the payload frame (R7). -/
abbrev Config.payloadSize : Nat := 32

/-- PROTOCOL_VERSION: the 2-bit version every Message begins with (R7, R129). -/
abbrev Config.protocolVersion : Nat := 1

/-- MAX_FIELD_WIDTH: the widest field one BW_WRITE or BR_READ moves, in bits (R7, D12). -/
abbrev Config.maxFieldWidth : Nat := 32

/-- FILTER_SLOTS: entries of the address-filter list (R7, D21). -/
abbrev Config.filterSlots : Nat := 4

/-- MAX_MESSAGE_BYTES: the longest encoded Message, in bytes (R7, R347). -/
abbrev Config.maxMessageBytes : Nat := 26

/-- LIMBS_MAX: limb slots of Response.Limbs (R7). -/
abbrev Config.limbsMax : Nat := 3

/-- COMMAND_ID_MAX: Command ids are 0..63 (R7). -/
abbrev Config.commandIdMax : Nat := 64

/-- LIMB_ID_BITS: LimbIds are 0..15 (R7). -/
abbrev Config.limbIdBits : Nat := 4

/-- HQ_PIPE, an OPEN parameter (R7, R236, D23): the source gives no value and no command reads it.
It has no body here, so nothing can be proved of its value. notes/assumptions/3.md -/
opaque Config.hqPipe : Byte

/-- What a byte of WBUF or PAYLOAD that nothing has written since `State.reset` reads as.
DESIGN CHOICE, unsafe: spec/10_state.md R47 makes each such byte an arbitrary draw. The reset EVENT
(`Action.reset`) takes the 64 draws as its argument. notes/assumptions/2.md -/
abbrev Config.unlistedByte : Byte := 0

/-- Window offset of WBUF[0] (spec/10_state.md R33). -/
abbrev Config.wbufBase : Nat := 0x20

/-- Window offset of PAYLOAD[0] (spec/10_state.md R33). -/
abbrev Config.payloadBase : Nat := 0x40

/-- First offset outside the register window (spec/10_state.md R33, spec/20_memory.md R77). -/
abbrev Config.windowSize : Nat := 0x80

end Sys2Proof
end

