-- ==== Sys2Proof/Syntax.lean ====
section
/-! DEFINITION. The values of the message data model (spec/42_message_types.md, spec/43_message_envelope.md
R300), the error names (spec/60_exceptions.md R381), and Instr: one constructor per row of
spec/opcode_table.json, that is the 23 commands of R101, the 37 wire-format rows and the 2 frame layouts. -/

namespace Sys2Proof

/-! ## Message component types -/

/-- R250: four hardware revisions, named by the spec (D39). -/
inductive Board where
  | b0 | b1 | b2 | b3
deriving DecidableEq, Repr

/-- R251. `temperature` is the 16-bit two's-complement pattern of the Int16 value (R253, D17). -/
inductive Sensor where
  | battery (percentage : Byte)
  | tempHum (temperature : Half) (humidity : Byte)
  | current (milliamps : Half)
deriving DecidableEq, Repr

/-- R256. -/
inductive Actuator where
  | light (on : Bool)
deriving DecidableEq, Repr

/-- R260. -/
inductive LimbType where
  | sensor (reportInterval : Half) (data : Option Sensor)
  | actuator (a : Actuator)
deriving DecidableEq, Repr

/-- R266. The LimbId is carried as a UInt8 (R265, D40). -/
structure Limb where
  id : Byte
  kind : LimbType
deriving DecidableEq, Repr

/-- R267. -/
structure NodeInfo where
  board : Board
  heartbeatInterval : Half
deriving DecidableEq, Repr

/-! ## The envelope (R300) -/

inductive Command where
  | info
  | limbs
  | setLimb (limb : Limb)
  | toggleLimb (id : Byte)
  | setLimbType (kind : LimbType)
deriving DecidableEq, Repr

/-- `limbs` holds LIMBS_MAX = 3 slots in index order. -/
inductive Response where
  | ok
  | info (info : NodeInfo)
  | limbs (slot0 slot1 slot2 : Option Limb)
  | heartbeat (value : Word)
  | errLimbNotFound
  | errLimbTypeDoesntMatch
deriving DecidableEq, Repr

inductive MessageData where
  | command (id : Byte) (command : Command)
  | response (id : Option Byte) (response : Response)
deriving DecidableEq, Repr

inductive Message where
  | message (data : MessageData)
  | relayMessage (nodeId : Word) (data : MessageData)
  | searchingNetwork (nodeId : Word)
  | network (nodeId : Word) (address : Half)
  | debugMessage (nodeId : Word) (bytes : Vector Byte 20)
deriving DecidableEq, Repr

/-- The value of a present Option (R264): the spec uses Option for Sensor and for Limb only. -/
inductive Present where
  | sensor (x : Sensor)
  | limb (x : Limb)
deriving DecidableEq, Repr

/-- The type an Option row carries (R264). -/
inductive OptionOf where
  | sensor | limb
deriving DecidableEq, Repr

/-! ## Errors -/

/-- The error names of R381. `invalidBoard` keeps its number and is never raised (R382). -/
inductive Error where
  | bufferOverflow | bufferUnderflow
  | invalidBoard | invalidSensor | invalidActuator | invalidCommand | invalidResponse
  | invalidMessage | versionMismatch
  | payloadTooLong | invalidLength
  | illegalCommand | illegalWidth | illegalSequence | illegalLimit
deriving DecidableEq, Repr

/-! ## Instructions -/

/-- Which half of the codec runs a wire-format row: `enc` is the row's encoder (the rule's "Encoder"),
`dec` its decoder (the rule's "Decoder"). Commands carry none. notes/assumptions/5.md -/
inductive Codec where
  | enc | dec
deriving DecidableEq, Repr

/-- The unreadable head of a Message (the row Message.reserved): a version other than PROTOCOL_VERSION
(R336), or, after the right version, a code 5..15 (R335). -/
inductive BadHead where
  | version (v : BitVec 2)
  | code (c : BitVec 4)
deriving DecidableEq, Repr

/-- One constructor per row of spec/opcode_table.json. A command carries the fields of its word that
R101 says it reads (N, A, PIPE); the fields R101 marks "-" are ignored and not carried. A wire-format row
carries the codec half that runs it and the values of its fields. A reserved row has the decoder's half
only: the encoder never produces one (R130). -/
inductive Instr where
  -- spec/44_control.md, spec/40_bit_codec.md
  | nop
  | bwBegin (n : BitVec 6)
  | bwWrite (n : BitVec 6)
  | bwFinalize
  | brBegin (n : BitVec 6)
  | brRead (n : BitVec 6)
  | brEnd
  -- spec/43_message_envelope.md
  | msgEncode (n : BitVec 6)
  | msgDecode (n : BitVec 6)
  -- spec/41_payload_framer.md
  | plNew (n : BitVec 6) (pipe : Byte)
  | plNewWithAddr (n : BitVec 6) (pipe : Byte)
  | plPipe
  | plLen
  | plAddress
  | plHeaderLength
  | plLenIsValid
  | plData
  | plPacket
  | plAddrFilter (n : BitVec 6) (a : Bool)
  | pipeForAddr
  | frameMsg (a : Bool) (pipe : Byte)
  | unframeMsg
  | clearStatus
  -- wire rows: Message
  | messageMessage (c : Codec) (data : MessageData)
  | messageRelayMessage (c : Codec) (nodeId : Word) (data : MessageData)
  | messageSearchingNetwork (c : Codec) (nodeId : Word)
  | messageNetwork (c : Codec) (nodeId : Word) (address : Half)
  | messageDebugMessage (c : Codec) (nodeId : Word) (bytes : Vector Byte 20)
  | messageReserved (head : BadHead)
  -- wire rows: MessageData
  | dataCommand (c : Codec) (id : Byte) (command : Command)
  | dataResponse (c : Codec) (id : Option Byte) (response : Response)
  -- wire rows: Command
  | commandInfo (c : Codec)
  | commandLimbs (c : Codec)
  | commandSetLimb (c : Codec) (limb : Limb)
  | commandToggleLimb (c : Codec) (id : Byte)
  | commandSetLimbType (c : Codec) (kind : LimbType)
  | commandReserved (code : BitVec 4)
  -- wire rows: Response
  | responseOk (c : Codec)
  | responseInfo (c : Codec) (info : NodeInfo)
  | responseLimbs (c : Codec) (slot0 slot1 slot2 : Option Limb)
  | responseHeartbeat (c : Codec) (value : Word)
  | responseErrLimbNotFound (c : Codec)
  | responseErrLimbTypeDoesntMatch (c : Codec)
  | responseReserved (code : BitVec 4)
  -- wire rows: the component types
  | limb (c : Codec) (id : Byte) (kind : LimbType)
  | limbTypeSensor (c : Codec) (reportInterval : Half) (data : Option Sensor)
  | limbTypeActuator (c : Codec) (a : Actuator)
  | sensorBattery (c : Codec) (percentage : Byte)
  | sensorTempHum (c : Codec) (temperature : Half) (humidity : Byte)
  | sensorCurrent (c : Codec) (milliamps : Half)
  | sensorReserved (code : BitVec 4)
  | actuatorLight (c : Codec) (on : Bool)
  | actuatorReserved (code : BitVec 4)
  | nodeInfo (c : Codec) (board : Board) (heartbeatInterval : Half)
  | boardB0 (c : Codec)
  | boardB1 (c : Codec)
  | boardB2 (c : Codec)
  | boardB3 (c : Codec)
  | optionNone (c : Codec) (t : OptionOf)
  | optionSome (c : Codec) (x : Present)
  -- frame layouts (R110): the length field is the number of data bytes
  | frameWithAddress (c : Codec) (pipe : Byte) (address : Half) (data : List Byte)
  | frameWithoutAddress (c : Codec) (pipe : Byte) (data : List Byte)
deriving DecidableEq, Repr

/-- The wire types a decoder can be asked for (R11's `dec_T`). -/
inductive WireType where
  | board | sensor | actuator | limbType | limb | nodeInfo
  | option (t : OptionOf)
  | command | response | messageData | message
deriving DecidableEq, Repr

/-- A value of a wire type: what an encoder `enc_T` is given (R11). -/
inductive WireValue where
  | board (x : Board)
  | sensor (x : Sensor)
  | actuator (x : Actuator)
  | limbType (x : LimbType)
  | limb (x : Limb)
  | nodeInfo (x : NodeInfo)
  | optionSensor (x : Option Sensor)
  | optionLimb (x : Option Limb)
  | command (x : Command)
  | response (x : Response)
  | messageData (x : MessageData)
  | message (x : Message)
deriving DecidableEq, Repr

/-- The wire type of a value. -/
def WireValue.type : WireValue → WireType
  | .board _ => .board
  | .sensor _ => .sensor
  | .actuator _ => .actuator
  | .limbType _ => .limbType
  | .limb _ => .limb
  | .nodeInfo _ => .nodeInfo
  | .optionSensor _ => .option .sensor
  | .optionLimb _ => .option .limb
  | .command _ => .command
  | .response _ => .response
  | .messageData _ => .messageData
  | .message _ => .message

/-- The frame row a value stands for (R110): a pipe, an optional address and the data bytes. -/
structure Frame where
  pipe : Byte
  address : Option Half
  data : List Byte
deriving DecidableEq, Repr

/-! ## The row a value selects (R2: a variant selects its layout the way an opcode selects an instruction) -/

def Board.row (c : Codec) : Board → Instr
  | .b0 => .boardB0 c
  | .b1 => .boardB1 c
  | .b2 => .boardB2 c
  | .b3 => .boardB3 c

def Sensor.row (c : Codec) : Sensor → Instr
  | .battery p => .sensorBattery c p
  | .tempHum t h => .sensorTempHum c t h
  | .current m => .sensorCurrent c m

def Actuator.row (c : Codec) : Actuator → Instr
  | .light on => .actuatorLight c on

def LimbType.row (c : Codec) : LimbType → Instr
  | .sensor r d => .limbTypeSensor c r d
  | .actuator a => .limbTypeActuator c a

def Limb.row (c : Codec) (l : Limb) : Instr := .limb c l.id l.kind

def NodeInfo.row (c : Codec) (n : NodeInfo) : Instr := .nodeInfo c n.board n.heartbeatInterval

def optionSensorRow (c : Codec) : Option Sensor → Instr
  | none => .optionNone c .sensor
  | some x => .optionSome c (.sensor x)

def optionLimbRow (c : Codec) : Option Limb → Instr
  | none => .optionNone c .limb
  | some x => .optionSome c (.limb x)

def Command.row (c : Codec) : Command → Instr
  | .info => .commandInfo c
  | .limbs => .commandLimbs c
  | .setLimb l => .commandSetLimb c l
  | .toggleLimb i => .commandToggleLimb c i
  | .setLimbType t => .commandSetLimbType c t

def Response.row (c : Codec) : Response → Instr
  | .ok => .responseOk c
  | .info i => .responseInfo c i
  | .limbs a b d => .responseLimbs c a b d
  | .heartbeat v => .responseHeartbeat c v
  | .errLimbNotFound => .responseErrLimbNotFound c
  | .errLimbTypeDoesntMatch => .responseErrLimbTypeDoesntMatch c

def MessageData.row (c : Codec) : MessageData → Instr
  | .command i k => .dataCommand c i k
  | .response i r => .dataResponse c i r

def Message.row (c : Codec) : Message → Instr
  | .message d => .messageMessage c d
  | .relayMessage n d => .messageRelayMessage c n d
  | .searchingNetwork n => .messageSearchingNetwork c n
  | .network n a => .messageNetwork c n a
  | .debugMessage n b => .messageDebugMessage c n b

def WireValue.row (c : Codec) : WireValue → Instr
  | .board x => x.row c
  | .sensor x => x.row c
  | .actuator x => x.row c
  | .limbType x => x.row c
  | .limb x => x.row c
  | .nodeInfo x => x.row c
  | .optionSensor x => optionSensorRow c x
  | .optionLimb x => optionLimbRow c x
  | .command x => x.row c
  | .response x => x.row c
  | .messageData x => x.row c
  | .message x => x.row c

def Frame.row (c : Codec) (f : Frame) : Instr :=
  match f.address with
  | some a => .frameWithAddress c f.pipe a f.data
  | none => .frameWithoutAddress c f.pipe f.data

end Sys2Proof
end

