-- ==== Sys2Proof/WellFormed.lean ====
section
/-! DEFINITION. Canonical values (spec/43_message_envelope.md R345) and well-formed instructions: those that
some encoding of spec/30_encoding.md stands for. A Message that is not canonical is a legal MSG_IN value; it
has no encoding of its own, since its encoder masks a field and sets CV. -/

namespace Sys2Proof

/-! ## canon(m) (R345): the value m decodes to after encoding -/

/-- A LimbId is replaced by id mod 16 (R265). -/
def canonLimbId (id : Byte) : Byte := BitVec.ofNat 8 (id.toNat % 2 ^ Config.limbIdBits)

/-- A Command id is replaced by id mod 64 (R322). -/
def canonCommandId (id : Byte) : Byte := BitVec.ofNat 8 (id.toNat % Config.commandIdMax)

/-- A Response id Some(v) is replaced by None if v mod 64 = 0, else Some(v mod 64) (R320). -/
def canonResponseId : Option Byte → Option Byte
  | none => none
  | some v => if v.toNat % 64 = 0 then none else some (BitVec.ofNat 8 (v.toNat % 64))

def Limb.canon (l : Limb) : Limb := { l with id := canonLimbId l.id }

def Command.canon : Command → Command
  | .info => .info
  | .limbs => .limbs
  | .setLimb l => .setLimb l.canon
  | .toggleLimb i => .toggleLimb (canonLimbId i)
  | .setLimbType t => .setLimbType t

def Response.canon : Response → Response
  | .ok => .ok
  | .info i => .info i
  | .limbs a b c => .limbs (a.map Limb.canon) (b.map Limb.canon) (c.map Limb.canon)
  | .heartbeat v => .heartbeat v
  | .errLimbNotFound => .errLimbNotFound
  | .errLimbTypeDoesntMatch => .errLimbTypeDoesntMatch

def MessageData.canon : MessageData → MessageData
  | .command i c => .command (canonCommandId i) c.canon
  | .response i r => .response (canonResponseId i) r.canon

/-- canon(m), what a Message comes back as after MSG_ENCODE and MSG_DECODE (R345; the round-trip law, R346). -/
def Message.canon : Message → Message
  | .message d => .message d.canon
  | .relayMessage n d => .relayMessage n d.canon
  | .searchingNetwork n => .searchingNetwork n
  | .network n a => .network n a
  | .debugMessage n b => .debugMessage n b

/-- R345: m is canonical when canon(m) = m. -/
abbrev Message.Canonical (m : Message) : Prop := m.canon = m

/-- canon on any wire value: the value its encoding decodes to (R345). -/
def WireValue.canon : WireValue → WireValue
  | .board x => .board x
  | .sensor x => .sensor x
  | .actuator x => .actuator x
  | .limbType x => .limbType x
  | .limb x => .limb x.canon
  | .nodeInfo x => .nodeInfo x
  | .optionSensor x => .optionSensor x
  | .optionLimb x => .optionLimb (x.map Limb.canon)
  | .command x => .command x.canon
  | .response x => .response x.canon
  | .messageData x => .messageData x.canon
  | .message x => .message x.canon

/-! ## Well-formed instructions -/

/-- R335, R336: a head that no decode gets past. -/
def BadHead.wf : BadHead → Bool
  | .version v => v.toNat != Config.protocolVersion
  | .code c => decide (4 < c.toNat)

def Present.wf : Present → Bool
  | .sensor _ => true
  | .limb l => l.canon == l

/-- Every command word is well formed (an operand out of range is a legal word that raises an error, R103).
A wire row is well formed when its fields fit their widths; a reserved row, when its code is a reserved one
(R130); a frame, when its data fits after its header (R111). -/
def Instr.wf : Instr → Bool
  | .nop | .bwBegin _ | .bwWrite _ | .bwFinalize | .brBegin _ | .brRead _ | .brEnd => true
  | .msgEncode _ | .msgDecode _ => true
  | .plNew _ _ | .plNewWithAddr _ _ | .plPipe | .plLen | .plAddress | .plHeaderLength => true
  | .plLenIsValid | .plData | .plPacket | .plAddrFilter _ _ | .pipeForAddr => true
  | .frameMsg _ _ | .unframeMsg | .clearStatus => true
  | .messageMessage _ d => d.canon == d
  | .messageRelayMessage _ _ d => d.canon == d
  | .messageSearchingNetwork _ _ | .messageNetwork _ _ _ | .messageDebugMessage _ _ _ => true
  | .messageReserved h => h.wf
  | .dataCommand _ i k => canonCommandId i == i && k.canon == k
  | .dataResponse _ i r => canonResponseId i == i && r.canon == r
  | .commandInfo _ | .commandLimbs _ => true
  | .commandSetLimb _ l => l.canon == l
  | .commandToggleLimb _ i => canonLimbId i == i
  | .commandSetLimbType _ _ => true
  | .commandReserved c => decide (4 < c.toNat)
  | .responseOk _ | .responseInfo _ _ => true
  | .responseLimbs _ a b d => (Response.limbs a b d).canon == .limbs a b d
  | .responseHeartbeat _ _ | .responseErrLimbNotFound _ | .responseErrLimbTypeDoesntMatch _ => true
  | .responseReserved c => decide (3 < c.toNat) && decide (c.toNat ≠ 8) && decide (c.toNat ≠ 9)
  | .limb _ i _ => canonLimbId i == i
  | .limbTypeSensor _ _ _ | .limbTypeActuator _ _ => true
  | .sensorBattery _ _ | .sensorTempHum _ _ _ | .sensorCurrent _ _ => true
  | .sensorReserved c => decide (2 < c.toNat)
  | .actuatorLight _ _ => true
  | .actuatorReserved c => decide (0 < c.toNat)
  | .nodeInfo _ _ _ | .boardB0 _ | .boardB1 _ | .boardB2 _ | .boardB3 _ => true
  | .optionNone _ _ => true
  | .optionSome _ x => x.wf
  | .frameWithAddress _ _ _ d => decide (d.length ≤ 28)
  | .frameWithoutAddress _ _ d => decide (d.length ≤ 30)

end Sys2Proof
end

