-- ==== Sys2Proof/Decode.lean ====
section
/-! DEFINITION. The three encodings of spec/30_encoding.md and their decoders: the command word (R100 to
R104), the message wire format (R112 to R131) and the payload frame (R110, R111); then the encoder, written
from the same tables. -/

namespace Sys2Proof

/-! ## Bit strings, most significant bit first (spec/00_scope.md R9, spec/20_memory.md R73) -/

/-- A bit string in stream order. -/
abbrev Bits := List Bool

/-- The field of width w that holds v: v[w-1] first, v[0] last (R73). Higher bits of v are dropped. -/
def bitsOf (v : Nat) : Nat → Bits
  | 0 => []
  | w + 1 => v.testBit w :: bitsOf v w

/-- The unsigned value of a field: each bit doubles what came before it (R162). -/
def natOf (bs : Bits) : Nat := bs.foldl (fun v b => 2 * v + b.toNat) 0

/-- The bits of one byte, bit 7 first (R9). -/
def byteBits (b : Byte) : Bits := bitsOf b.toNat 8

/-! ## Reading -/

/-- What a decoder answers: a value, or an error, each with the bits not yet read. -/
inductive Parse (α : Type) where
  | ok (v : α) (rest : Bits)
  | err (e : Error) (rest : Bits)
deriving DecidableEq, Repr

/-- A decoder `dec_T` (R11): it reads from the front of the bits that remain. -/
abbrev Dec (α : Type) := Bits → Parse α

def Dec.value {α : Type} (v : α) : Dec α := fun bs => .ok v bs

def Dec.fail {α : Type} (e : Error) : Dec α := fun bs => .err e bs

/-- Read, then go on with the value read; the first error ends the decode (R342). -/
def Dec.andThen {α β : Type} (d : Dec α) (f : α → Dec β) : Dec β := fun bs =>
  match d bs with
  | .ok v rest => f v rest
  | .err e rest => .err e rest

def Dec.map {α β : Type} (d : Dec α) (f : α → β) : Dec β := Dec.andThen d fun v => Dec.value (f v)

/-- BitRead(w) (spec/40_bit_codec.md R162): the bounds check comes first, and a failing read moves nothing. -/
def readBits (w : Nat) : Dec Nat := fun bs =>
  if bs.length < w then .err .bufferUnderflow bs else .ok (natOf (bs.take w)) (bs.drop w)

/-- A field of width w read as a vector of k bits. -/
def readVec (w k : Nat) : Dec (BitVec k) := Dec.map (readBits w) (BitVec.ofNat k)

/-- A 1-bit field: 1 is true (R131). -/
def readFlag : Dec Bool := Dec.map (readBits 1) (fun v => v == 1)

/-- n bytes of 8 bits in index order (R334). -/
def readBytes : (n : Nat) → Dec (Vector Byte n)
  | 0 => Dec.value #v[]
  | n + 1 => Dec.andThen (readBytes n) fun v => Dec.map (readVec 8 8) fun b => v.push b

/-! ## The decoders of the component types (spec/42_message_types.md) -/

/-- R250, R120: all four codes are assigned. -/
def decBoard : Dec Board :=
  Dec.map (readBits 2) fun k =>
    match k with
    | 0 => .b0
    | 1 => .b1
    | 2 => .b2
    | _ => .b3

/-- R251 to R255. -/
def decSensor : Dec Sensor :=
  Dec.andThen (readBits 4) fun c =>
    match c with
    | 0 => Dec.map (readVec 8 8) .battery
    | 1 => Dec.andThen (readVec 16 16) fun t => Dec.map (readVec 8 8) fun h => .tempHum t h
    | 2 => Dec.map (readVec 16 16) .current
    | _ => Dec.fail .invalidSensor

/-- R256 to R258. -/
def decActuator : Dec Actuator :=
  Dec.andThen (readBits 4) fun c =>
    match c with
    | 0 => Dec.map readFlag .light
    | _ => Dec.fail .invalidActuator

/-- R264: presence flag 1 = Some, 0 = None (R124). -/
def decOption {α : Type} (d : Dec α) : Dec (Option α) :=
  Dec.andThen readFlag fun p => if p then Dec.map d some else Dec.value none

/-- R260 to R262: discriminant 0 = Sensor, 1 = Actuator (R123). -/
def decLimbType : Dec LimbType :=
  Dec.andThen readFlag fun d =>
    if d then Dec.map decActuator .actuator
    else Dec.andThen (readVec 16 16) fun r => Dec.map (decOption decSensor) fun x => .sensor r x

/-- R266. -/
def decLimb : Dec Limb :=
  Dec.andThen (readVec 4 8) fun i => Dec.map decLimbType fun t => ⟨i, t⟩

/-- R267. -/
def decNodeInfo : Dec NodeInfo :=
  Dec.andThen decBoard fun b => Dec.map (readVec 16 16) fun h => ⟨b, h⟩

/-! ## The decoders of the envelope (spec/43_message_envelope.md) -/

/-- R301 to R307. -/
def decCommand : Dec Command :=
  Dec.andThen (readBits 4) fun c =>
    match c with
    | 0 => Dec.value .info
    | 1 => Dec.value .limbs
    | 2 => Dec.map decLimb .setLimb
    | 3 => Dec.map (readVec 4 8) .toggleLimb
    | 4 => Dec.map decLimbType .setLimbType
    | _ => Dec.fail .invalidCommand

/-- R310 to R317; wire codes 8 and 9 are the two error variants (D7, spec/90_conflicts.md C1). -/
def decResponse : Dec Response :=
  Dec.andThen (readBits 4) fun c =>
    match c with
    | 0 => Dec.value .ok
    | 1 => Dec.map decNodeInfo .info
    | 2 =>
      Dec.andThen (decOption decLimb) fun x =>
        Dec.andThen (decOption decLimb) fun y =>
          Dec.map (decOption decLimb) fun z => .limbs x y z
    | 3 => Dec.map (readVec 32 32) .heartbeat
    | 8 => Dec.value .errLimbNotFound
    | 9 => Dec.value .errLimbTypeDoesntMatch
    | _ => Dec.fail .invalidResponse

/-- R320: 0 is None. -/
def decResponseId : Dec (Option Byte) :=
  Dec.map (readBits 6) fun u => if u = 0 then none else some (BitVec.ofNat 8 u)

/-- R321 to R323: discriminant 0 = Command, 1 = Response (R127). -/
def decMessageData : Dec MessageData :=
  Dec.andThen readFlag fun d =>
    if d then Dec.andThen decResponseId fun i => Dec.map decResponse fun r => .response i r
    else Dec.andThen (readVec 6 8) fun i => Dec.map decCommand fun c => .command i c

/-- The fields after a Message's version, its code first (R329 to R335). -/
def decMessageBody : Dec Message :=
  Dec.andThen (readBits 4) fun c =>
    match c with
    | 0 => Dec.map decMessageData .message
    | 1 => Dec.andThen (readVec 32 32) fun n => Dec.map decMessageData fun d => .relayMessage n d
    | 2 => Dec.map (readVec 32 32) .searchingNetwork
    | 3 => Dec.andThen (readVec 32 32) fun n => Dec.map (readVec 16 16) fun a => .network n a
    | 4 => Dec.andThen (readVec 32 32) fun n => Dec.map (readBytes 20) fun b => .debugMessage n b
    | _ => Dec.fail .invalidMessage

/-- dec_Message (R329): the version check comes before everything else (R336). -/
def decMessage : Dec Message :=
  Dec.andThen (readBits 2) fun v =>
    if v = Config.protocolVersion then decMessageBody else Dec.fail .versionMismatch

/-! ## Writing: the fields an encoder hands to BitWrite, in order (R11) -/

/-- One `BitWrite(value, width)` of an encoder. `violation` marks the step `CV <- 1` that R320 puts before the
write of a Response id Some(0). -/
structure Field where
  value : Nat
  width : Nat
  violation : Bool := false
deriving DecidableEq, Repr

def Field.bits (f : Field) : Bits := bitsOf f.value f.width

/-- The field meets a contract violation (R37): R320's step, or a value that does not fit (R152). -/
def Field.violates (f : Field) : Bool :=
  f.violation || (decide (f.width < 32) && decide (2 ^ f.width ≤ f.value))

def fieldsBits (fs : List Field) : Bits := fs.flatMap Field.bits

def fieldsWidth (fs : List Field) : Nat := (fs.map Field.width).sum

def vecField {k : Nat} (v : BitVec k) (w : Nat) : Field := ⟨v.toNat, w, false⟩

def codeField (v w : Nat) : Field := ⟨v, w, false⟩

def flagField (b : Bool) : Field := ⟨b.toNat, 1, false⟩

/-- R120. -/
def Board.code : Board → Nat
  | .b0 => 0
  | .b1 => 1
  | .b2 => 2
  | .b3 => 3

/-- R250. -/
def Board.fields (b : Board) : List Field := [codeField b.code 2]

/-- R252 to R254, codes of R121. -/
def Sensor.fields : Sensor → List Field
  | .battery p => [codeField 0 4, vecField p 8]
  | .tempHum t h => [codeField 1 4, vecField t 16, vecField h 8]
  | .current m => [codeField 2 4, vecField m 16]

/-- R257, code of R122. -/
def Actuator.fields : Actuator → List Field
  | .light on => [codeField 0 4, flagField on]

/-- R264. -/
def optionFields {α : Type} (f : α → List Field) : Option α → List Field
  | none => [codeField 0 1]
  | some x => codeField 1 1 :: f x

/-- R261, R262, discriminants of R123. -/
def LimbType.fields : LimbType → List Field
  | .sensor r d => codeField 0 1 :: vecField r 16 :: optionFields Sensor.fields d
  | .actuator a => codeField 1 1 :: a.fields

/-- R266. -/
def Limb.fields (l : Limb) : List Field := vecField l.id 4 :: l.kind.fields

/-- R267. -/
def NodeInfo.fields (n : NodeInfo) : List Field := n.board.fields ++ [vecField n.heartbeatInterval 16]

/-- R302 to R306, codes of R125. -/
def Command.fields : Command → List Field
  | .info => [codeField 0 4]
  | .limbs => [codeField 1 4]
  | .setLimb l => codeField 2 4 :: l.fields
  | .toggleLimb i => [codeField 3 4, vecField i 4]
  | .setLimbType t => codeField 4 4 :: t.fields

/-- R311 to R316, wire codes of R126. -/
def Response.fields : Response → List Field
  | .ok => [codeField 0 4]
  | .info i => codeField 1 4 :: i.fields
  | .limbs a b c =>
    codeField 2 4 ::
      (optionFields Limb.fields a ++ optionFields Limb.fields b ++ optionFields Limb.fields c)
  | .heartbeat v => [codeField 3 4, vecField v 32]
  | .errLimbNotFound => [codeField 8 4]
  | .errLimbTypeDoesntMatch => [codeField 9 4]

/-- enc_RespId (R320). -/
def responseIdField : Option Byte → Field
  | none => ⟨0, 6, false⟩
  | some v => ⟨v.toNat, 6, v == 0⟩

/-- R322, R323, discriminants of R127. -/
def MessageData.fields : MessageData → List Field
  | .command i k => codeField 0 1 :: vecField i 6 :: k.fields
  | .response i r => codeField 1 1 :: responseIdField i :: r.fields

/-- R128. -/
def Message.code : Message → Nat
  | .message _ => 0
  | .relayMessage _ _ => 1
  | .searchingNetwork _ => 2
  | .network _ _ => 3
  | .debugMessage _ _ => 4

/-- The fields after the code (R330 to R334). -/
def Message.bodyFields : Message → List Field
  | .message d => d.fields
  | .relayMessage n d => vecField n 32 :: d.fields
  | .searchingNetwork n => [vecField n 32]
  | .network n a => [vecField n 32, vecField a 16]
  | .debugMessage n b => vecField n 32 :: b.toList.map (fun x => vecField x 8)

/-- enc_Message (R329): version, code, then the variant's fields. -/
def Message.fields (m : Message) : List Field :=
  codeField Config.protocolVersion 2 :: codeField m.code 4 :: m.bodyFields

/-- The wire form of a Message (R112). -/
def Message.bits (m : Message) : Bits := fieldsBits m.fields

/-- The row Option.None: the same bit for every T (R264). -/
def noneFields : OptionOf → List Field
  | .sensor => optionFields Sensor.fields none
  | .limb => optionFields Limb.fields none

/-- The row Option.Some (R264). -/
def Present.fields : Present → List Field
  | .sensor x => optionFields Sensor.fields (some x)
  | .limb x => optionFields Limb.fields (some x)

/-- enc_T of any wire value, as its fields in order (R11). -/
def WireValue.fields : WireValue → List Field
  | .board x => x.fields
  | .sensor x => x.fields
  | .actuator x => x.fields
  | .limbType x => x.fields
  | .limb x => x.fields
  | .nodeInfo x => x.fields
  | .optionSensor x => optionFields Sensor.fields x
  | .optionLimb x => optionFields Limb.fields x
  | .command x => x.fields
  | .response x => x.fields
  | .messageData x => x.fields
  | .message x => x.fields

/-- What the decoder reads of an unreadable head before it raises its error (R335, R336). -/
def BadHead.fields : BadHead → List Field
  | .version v => [vecField v 2]
  | .code c => [codeField Config.protocolVersion 2, vecField c 4]

/-! ## The payload frame (R110, R111) -/

/-- hl(): 4 with an address, 2 without one. -/
def headerLength (address : Option Half) : Nat := if address.isSome then 4 else 2

/-- Byte 1 of the header: the address-present flag in bit 7, the data length in bits 6:0. -/
def lengthByte (address : Option Half) (n : Nat) : Byte :=
  BitVec.ofNat 8 (if address.isSome then 0x80 + n else n)

/-- The header bytes; the address is little-endian (spec/20_memory.md R79). -/
def frameHeader (pipe : Byte) (address : Option Half) (n : Nat) : List Byte :=
  match address with
  | some a => [pipe, lengthByte address n, a.extractLsb' 0 8, a.extractLsb' 8 8]
  | none => [pipe, lengthByte address n]

/-- The whole 32-byte frame that holds `data`: header, data, then zero bytes (R200, R201). -/
def frameBytes (pipe : Byte) (address : Option Half) (data : List Byte) : List Byte :=
  frameHeader pipe address data.length ++ data ++
    List.replicate (Config.payloadSize - headerLength address - data.length) 0

/-- Byte i of a frame, for a frame given as a list. -/
def byteAt (bs : List Byte) (i : Nat) : Byte := bs.getD i 0

/-- The frame row 32 bytes stand for: none where the length field names more bytes than follow the header
(R111). The bytes after the data are not part of the frame (R110). -/
def decodeFrame (bs : List Byte) : Option Frame :=
  let n := (byteAt bs 1).toNat % 128
  let address : Option Half :=
    if (byteAt bs 1).getLsbD 7 then some (byteAt bs 3 ++ byteAt bs 2) else none
  if bs.length = Config.payloadSize ∧ n ≤ Config.payloadSize - headerLength address then
    some ⟨byteAt bs 0, address, (bs.drop (headerLength address)).take n⟩
  else none

/-! ## The command word (R100 to R104) -/

/-- OPC, bits [7:0]. -/
def Word.opc (w : Word) : Nat := (w.extractLsb' 0 8).toNat

/-- N, bits [13:8]. -/
def Word.n (w : Word) : BitVec 6 := w.extractLsb' 8 6

/-- A, bit [14]. -/
def Word.a (w : Word) : Bool := w.getLsbD 14

/-- PIPE, bits [23:16]. -/
def Word.pipe (w : Word) : Byte := w.extractLsb' 16 8

/-- Bit 15 and bits [31:24], which must be 0 (R102). -/
def Word.reservedClear (w : Word) : Bool := !w.getLsbD 15 && w.extractLsb' 24 8 == 0

/-- The command a CMD word stands for; none is IllegalCommand (R102). An ignored field is not checked (R101). -/
def decodeCommand (w : Word) : Option Instr :=
  if Word.reservedClear w then
    match Word.opc w with
    | 0x00 => some .nop
    | 0x01 => some (.bwBegin (Word.n w))
    | 0x02 => some (.bwWrite (Word.n w))
    | 0x03 => some .bwFinalize
    | 0x04 => some (.brBegin (Word.n w))
    | 0x05 => some (.brRead (Word.n w))
    | 0x06 => some .brEnd
    | 0x10 => some (.msgEncode (Word.n w))
    | 0x11 => some (.msgDecode (Word.n w))
    | 0x20 => some (.plNew (Word.n w) (Word.pipe w))
    | 0x21 => some (.plNewWithAddr (Word.n w) (Word.pipe w))
    | 0x22 => some .plPipe
    | 0x23 => some .plLen
    | 0x24 => some .plAddress
    | 0x25 => some .plHeaderLength
    | 0x26 => some .plLenIsValid
    | 0x27 => some .plData
    | 0x28 => some .plPacket
    | 0x29 => some (.plAddrFilter (Word.n w) (Word.a w))
    | 0x2A => some .pipeForAddr
    | 0x30 => some (.frameMsg (Word.a w) (Word.pipe w))
    | 0x31 => some .unframeMsg
    | 0x3F => some .clearStatus
    | _ => none
  else none

/-! ## The wire rows -/

/-- The decoder's row at a code: a reserved code is the type's reserved row, which only the decoder meets
(R130); any other code is the row of the value decoded. -/
def rowOrReserved (c : Codec) (width : Nat) (reserved : Nat → Bool) (bad : Nat → Instr) (e : Error)
    (d : Dec Instr) : Dec Instr := fun bs =>
  match readBits width bs with
  | .ok k rest =>
    if reserved k then
      match c with
      | .dec => .ok (bad k) rest
      | .enc => .err e rest
    else d bs
  | .err e' rest => .err e' rest

def decSensorRow (c : Codec) : Dec Instr :=
  rowOrReserved c 4 (fun k => decide (2 < k)) (fun k => .sensorReserved (BitVec.ofNat 4 k)) .invalidSensor
    (Dec.map decSensor (Sensor.row c))

def decActuatorRow (c : Codec) : Dec Instr :=
  rowOrReserved c 4 (fun k => decide (0 < k)) (fun k => .actuatorReserved (BitVec.ofNat 4 k))
    .invalidActuator (Dec.map decActuator (Actuator.row c))

def decCommandRow (c : Codec) : Dec Instr :=
  rowOrReserved c 4 (fun k => decide (4 < k)) (fun k => .commandReserved (BitVec.ofNat 4 k))
    .invalidCommand (Dec.map decCommand (Command.row c))

def decResponseRow (c : Codec) : Dec Instr :=
  rowOrReserved c 4 (fun k => decide (3 < k) && decide (k ≠ 8) && decide (k ≠ 9))
    (fun k => .responseReserved (BitVec.ofNat 4 k)) .invalidResponse (Dec.map decResponse (Response.row c))

/-- The version is looked at before the code (R336). -/
def decMessageRow (c : Codec) : Dec Instr :=
  rowOrReserved c 2 (fun v => v != Config.protocolVersion)
    (fun v => .messageReserved (.version (BitVec.ofNat 2 v))) .versionMismatch
    (Dec.andThen (readBits 2) fun _ =>
      rowOrReserved c 4 (fun k => decide (4 < k)) (fun k => .messageReserved (.code (BitVec.ofNat 4 k)))
        .invalidMessage (Dec.map decMessageBody (Message.row c)))

/-- The row of type t that the front of a bit string stands for. -/
def decRow (c : Codec) : WireType → Dec Instr
  | .board => Dec.map decBoard (Board.row c)
  | .sensor => decSensorRow c
  | .actuator => decActuatorRow c
  | .limbType => Dec.map decLimbType (LimbType.row c)
  | .limb => Dec.map decLimb (Limb.row c)
  | .nodeInfo => Dec.map decNodeInfo (NodeInfo.row c)
  | .option .sensor => Dec.map (decOption decSensor) (optionSensorRow c)
  | .option .limb => Dec.map (decOption decLimb) (optionLimbRow c)
  | .command => decCommandRow c
  | .response => decResponseRow c
  | .messageData => Dec.map decMessageData (MessageData.row c)
  | .message => decMessageRow c

/-! ## decode and encode -/

/-- The three encodings of spec/30_encoding.md: a command word; a wire type with its bit string, and the half
of the codec that runs it; the 32 bytes of a frame, likewise. -/
inductive Code where
  | command (w : Word)
  | wire (c : Codec) (t : WireType) (bits : Bits)
  | frame (c : Codec) (bytes : List Byte)
deriving DecidableEq, Repr

/-- Total: `none` is an illegal command word (R102), a bit string that is not exactly one row (R130), or bytes
that are no frame (R111). -/
def decode : Code → Option Instr
  | .command w => decodeCommand w
  | .wire c t bits =>
    match decRow c t bits with
    | .ok i [] => some i
    | _ => none
  | .frame c bytes => (decodeFrame bytes).map (Frame.row c)

/-- A command word from its fields (R100, R105): `OPC + (N << 8) + (A << 14) + (PIPE << 16)`. -/
def commandWord (opc : BitVec 8) (n : BitVec 6) (a : Bool) (pipe : Byte) : Word :=
  (0 : BitVec 8) ++ pipe ++ (0 : BitVec 1) ++ BitVec.ofBool a ++ n ++ opc

/-- The encoding of an instruction, fields that R101 marks "-" being 0. -/
def encode : Instr → Code
  | .nop => .command (commandWord 0x00 0 false 0)
  | .bwBegin n => .command (commandWord 0x01 n false 0)
  | .bwWrite n => .command (commandWord 0x02 n false 0)
  | .bwFinalize => .command (commandWord 0x03 0 false 0)
  | .brBegin n => .command (commandWord 0x04 n false 0)
  | .brRead n => .command (commandWord 0x05 n false 0)
  | .brEnd => .command (commandWord 0x06 0 false 0)
  | .msgEncode n => .command (commandWord 0x10 n false 0)
  | .msgDecode n => .command (commandWord 0x11 n false 0)
  | .plNew n p => .command (commandWord 0x20 n false p)
  | .plNewWithAddr n p => .command (commandWord 0x21 n false p)
  | .plPipe => .command (commandWord 0x22 0 false 0)
  | .plLen => .command (commandWord 0x23 0 false 0)
  | .plAddress => .command (commandWord 0x24 0 false 0)
  | .plHeaderLength => .command (commandWord 0x25 0 false 0)
  | .plLenIsValid => .command (commandWord 0x26 0 false 0)
  | .plData => .command (commandWord 0x27 0 false 0)
  | .plPacket => .command (commandWord 0x28 0 false 0)
  | .plAddrFilter n a => .command (commandWord 0x29 n a 0)
  | .pipeForAddr => .command (commandWord 0x2A 0 false 0)
  | .frameMsg a p => .command (commandWord 0x30 0 a p)
  | .unframeMsg => .command (commandWord 0x31 0 false 0)
  | .clearStatus => .command (commandWord 0x3F 0 false 0)
  | .messageMessage c d => .wire c .message (Message.message d).bits
  | .messageRelayMessage c n d => .wire c .message (Message.relayMessage n d).bits
  | .messageSearchingNetwork c n => .wire c .message (Message.searchingNetwork n).bits
  | .messageNetwork c n a => .wire c .message (Message.network n a).bits
  | .messageDebugMessage c n b => .wire c .message (Message.debugMessage n b).bits
  | .messageReserved h => .wire .dec .message (fieldsBits h.fields)
  | .dataCommand c i k => .wire c .messageData (fieldsBits (MessageData.command i k).fields)
  | .dataResponse c i r => .wire c .messageData (fieldsBits (MessageData.response i r).fields)
  | .commandInfo c => .wire c .command (fieldsBits Command.info.fields)
  | .commandLimbs c => .wire c .command (fieldsBits Command.limbs.fields)
  | .commandSetLimb c l => .wire c .command (fieldsBits (Command.setLimb l).fields)
  | .commandToggleLimb c i => .wire c .command (fieldsBits (Command.toggleLimb i).fields)
  | .commandSetLimbType c t => .wire c .command (fieldsBits (Command.setLimbType t).fields)
  | .commandReserved k => .wire .dec .command (fieldsBits [vecField k 4])
  | .responseOk c => .wire c .response (fieldsBits Response.ok.fields)
  | .responseInfo c i => .wire c .response (fieldsBits (Response.info i).fields)
  | .responseLimbs c x y z => .wire c .response (fieldsBits (Response.limbs x y z).fields)
  | .responseHeartbeat c v => .wire c .response (fieldsBits (Response.heartbeat v).fields)
  | .responseErrLimbNotFound c => .wire c .response (fieldsBits Response.errLimbNotFound.fields)
  | .responseErrLimbTypeDoesntMatch c =>
    .wire c .response (fieldsBits Response.errLimbTypeDoesntMatch.fields)
  | .responseReserved k => .wire .dec .response (fieldsBits [vecField k 4])
  | .limb c i t => .wire c .limb (fieldsBits (Limb.mk i t).fields)
  | .limbTypeSensor c r d => .wire c .limbType (fieldsBits (LimbType.sensor r d).fields)
  | .limbTypeActuator c a => .wire c .limbType (fieldsBits (LimbType.actuator a).fields)
  | .sensorBattery c p => .wire c .sensor (fieldsBits (Sensor.battery p).fields)
  | .sensorTempHum c t h => .wire c .sensor (fieldsBits (Sensor.tempHum t h).fields)
  | .sensorCurrent c m => .wire c .sensor (fieldsBits (Sensor.current m).fields)
  | .sensorReserved k => .wire .dec .sensor (fieldsBits [vecField k 4])
  | .actuatorLight c on => .wire c .actuator (fieldsBits (Actuator.light on).fields)
  | .actuatorReserved k => .wire .dec .actuator (fieldsBits [vecField k 4])
  | .nodeInfo c b h => .wire c .nodeInfo (fieldsBits (NodeInfo.mk b h).fields)
  | .boardB0 c => .wire c .board (fieldsBits Board.b0.fields)
  | .boardB1 c => .wire c .board (fieldsBits Board.b1.fields)
  | .boardB2 c => .wire c .board (fieldsBits Board.b2.fields)
  | .boardB3 c => .wire c .board (fieldsBits Board.b3.fields)
  | .optionNone c t => .wire c (.option t) (fieldsBits (noneFields t))
  | .optionSome c (.sensor x) => .wire c (.option .sensor) (fieldsBits (Present.sensor x).fields)
  | .optionSome c (.limb x) => .wire c (.option .limb) (fieldsBits (Present.limb x).fields)
  | .frameWithAddress c p a d => .frame c (frameBytes p (some a) d)
  | .frameWithoutAddress c p d => .frame c (frameBytes p none d)

/-! ## The table's words -/

/-- The instruction the decoder reads from a row of spec/opcode_table.json whose bits are w. A 32-bit row is a
command word. A row of at most 8 bits is a Command wire row (the table gives bits to one such row,
Command.ToggleLimb): its byte comes first in a slice of 7 bytes, which holds the longest Command row (54 bits), zeros after
it, and the decoder's half reads it.
notes/assumptions/6.md -/
def decodeTableWord (nbits w : Nat) : Option Instr :=
  if nbits ≤ 8 then
    match decRow .dec .command (bitsOf w 8 ++ List.replicate 48 false) with
    | .ok i _ => some i
    | .err _ _ => none
  else decodeCommand (BitVec.ofNat 32 w)

end Sys2Proof
end

