-- ==== Sys2Proof/Machine/State.lean ====
section
/-! DEFINITION. The state of SAMN-MCF (spec/10_state.md R30) as plain data, the host agent's pending actions and
observations beside it, and the state after reset (R47). -/

namespace Sys2Proof.Machine

/-- Why a step stops the machine. It has no constructor: the block never stops, hangs or refuses because of an
error (spec/60_exceptions.md R380), and a bus error, the one fault the spec names, is a fault of the HOST agent
that is recorded while the block goes on (spec/20_memory.md R77; `State.busError`). Nothing raises one; safe. -/
inductive Fault where
deriving DecidableEq, Repr

/-- Why a step has no meaning. -/
inductive Refusal where
  /-- Raised by an arm of `exec` whose instruction has no meaning yet. No arm does. Safe: the machine stops where
  the hardware goes on. -/
  | notModelled (mnemonic : String)
deriving DecidableEq, Repr

/-- The codec session that is open (R39). STATUS value 3 never occurs, so it has no constructor. -/
inductive Mode where
  | idle | write | read
deriving DecidableEq, Repr

/-- The width of a host access: 8, 16 or 32 bits (spec/20_memory.md R74). -/
inductive Width where
  | w8 | w16 | w32
deriving DecidableEq, Repr

/-- What comes to the block next. The first five are the environment's: the host's accesses to the register
window (R33, spec/20_memory.md R76), its two port actions (R40), and the reset event with one draw per buffer byte
(spec/70_reset_and_hazards.md R420). The other four run ONE wire-format or frame row by itself, as the internal
step of the codec that the row is: `encodeStep` gives a row to the encoder, `decodeStep t` has the decoder read
the row of type t that stands at the cursor, and the frame steps do the same for a row of R110. The host cannot
issue these four (spec/42_message_types.md, introduction). notes/assumptions/4.md and 5.md -/
inductive Action where
  | read (offset : Nat) (width : Width)
  | write (offset : Nat) (width : Width) (value : Word)
  | putMsg (m : Message)
  | takeMsg
  | reset (wbuf payload : Vector Byte 32)
  | encodeStep (v : WireValue)
  | decodeStep (t : WireType)
  | encodeFrame (f : Frame)
  | decodeFrame
deriving DecidableEq, Repr

/-- The whole state: R30's list, then the host agent's side. -/
structure State where
  /-- WBUF and PAYLOAD, keyed by window offset (0x20 + i, 0x40 + i; R33), in canonical form (`Memory.wf`). -/
  mem : List Host.Cell
  /-- ARG0 (R35). -/
  arg0 : Word
  /-- RESULT (R41). -/
  result : Word
  /-- FILTER[0..3] (R42). -/
  filter0 : Half
  filter1 : Half
  filter2 : Half
  filter3 : Half
  /-- ERR, by name; none is 0 (R38). -/
  err : Option Error
  /-- CV (R37). -/
  cv : Bool
  /-- MODE (R39). -/
  mode : Mode
  /-- BYTE_POS (R43). -/
  bytePos : Nat
  /-- BIT_POS (R43). -/
  bitPos : Nat
  /-- LIMIT (R43). -/
  limit : Nat
  /-- MSG_IN (R40). -/
  msgIn : Option Message
  /-- MSG_OUT (R40). -/
  msgOut : Option Message
  /-- The host agent's actions still to come, first one first. The model's own field. -/
  pending : List Action
  /-- What the host agent's last legal read returned, zero-extended. The model's own field. -/
  hostRead : Word
  /-- What the host agent's last TakeMsg returned (R40). The model's own field. -/
  hostTaken : Option Message
  /-- A host access was a bus error: recorded and never cleared (spec/20_memory.md R77). -/
  busError : Bool
deriving DecidableEq, Repr

/-- The state after reset (R47). No byte of WBUF or PAYLOAD is listed: each reads as `Config.unlistedByte`
(notes/assumptions/2.md). Nothing is pending, and the host agent has observed nothing (notes/assumptions/4.md). -/
def State.reset : State where
  mem := []
  arg0 := 0
  result := 0
  filter0 := 0
  filter1 := 0
  filter2 := 0
  filter3 := 0
  err := none
  cv := false
  mode := .idle
  bytePos := 0
  bitPos := 0
  limit := 0
  msgIn := none
  msgOut := none
  pending := []
  hostRead := 0
  hostTaken := none
  busError := false

end Sys2Proof.Machine
end

