-- ==== Sys2Proof/Machine/Ops.lean ====
section
/-! DEFINITION. The named operations over the buffers, the cursor and the result registers, the two codec
primitives (spec/40_bit_codec.md R152, R162), and how a command ends: `State.succeed`, `State.raise`
(spec/60_exceptions.md R380). -/

namespace Sys2Proof.Machine

/-! ## Memory: window offset to byte, canonical -/

/-- The byte at address a; an address that is not listed reads as `Config.unlistedByte`. -/
def Memory.read : List Host.Cell → Nat → Byte
  | [], _ => Config.unlistedByte
  | (b, x) :: m, a =>
    if a = b then x else if a < b then Config.unlistedByte else Memory.read m a

/-- Put byte v at address a, keeping the canonical form. -/
def Memory.write : List Host.Cell → Nat → Byte → List Host.Cell
  | [], a, v => if v = Config.unlistedByte then [] else [(a, v)]
  | (b, x) :: m, a, v =>
    if a < b then if v = Config.unlistedByte then (b, x) :: m else (a, v) :: (b, x) :: m
    else if a = b then if v = Config.unlistedByte then m else (a, v) :: m
    else (b, x) :: Memory.write m a v

/-- Store bytes at consecutive addresses from a upward. -/
def Memory.writeBytes : List Host.Cell → Nat → List Byte → List Host.Cell
  | m, _, [] => m
  | m, a, b :: bs => Memory.writeBytes (Memory.write m a b) (a + 1) bs

/-- Canonical from address `lo` upward: addresses strictly rising and at least lo, every address that of a
buffer byte, no entry equal to what an unlisted address reads as. -/
def Memory.wfFrom : Nat → List Host.Cell → Bool
  | _, [] => true
  | lo, (a, x) :: m =>
    decide (lo ≤ a) && decide (a < 0x60) && decide (x ≠ Config.unlistedByte) && Memory.wfFrom (a + 1) m

/-- The canonical form of WBUF and PAYLOAD: equal contents are equal lists. -/
def Memory.wf (m : List Host.Cell) : Bool := Memory.wfFrom Config.wbufBase m

/-! ## The buffers (spec/20_memory.md R70, R71) -/

/-- WBUF[i]. -/
def State.wbuf (s : State) (i : Nat) : Byte := Memory.read s.mem (Config.wbufBase + i)

/-- PAYLOAD[i]. -/
def State.payload (s : State) (i : Nat) : Byte := Memory.read s.mem (Config.payloadBase + i)

def State.setMem (s : State) (m : List Host.Cell) : State := { s with mem := m }

/-- WBUF[i] <- v. -/
def State.setWbuf (s : State) (i : Nat) (v : Byte) : State :=
  s.setMem (Memory.write s.mem (Config.wbufBase + i) v)

/-- WBUF[0 .. length-1] <- bs. -/
def State.storeWbuf (s : State) (bs : List Byte) : State :=
  s.setMem (Memory.writeBytes s.mem Config.wbufBase bs)

/-- PAYLOAD[0 .. length-1] <- bs. -/
def State.storePayload (s : State) (bs : List Byte) : State :=
  s.setMem (Memory.writeBytes s.mem Config.payloadBase bs)

/-- WBUF[0 .. n-1]. -/
def State.wbufBytes (s : State) (n : Nat) : List Byte := (List.range n).map s.wbuf

/-- PAYLOAD[i .. i+n-1]. -/
def State.payloadBytes (s : State) (i n : Nat) : List Byte := (List.range n).map fun k => s.payload (i + k)

/-! ## The cursor (spec/10_state.md R43, R44) -/

/-- P = 8*BYTE_POS + BIT_POS. -/
def State.cursor (s : State) : Nat := 8 * s.bytePos + s.bitPos

/-- Put the cursor at stream position p. -/
def State.setCursor (s : State) (p : Nat) : State := { s with bytePos := p / 8, bitPos := p % 8 }

/-- Open a slice: LIMIT <- n; BYTE_POS <- 0; BIT_POS <- 0. -/
def State.openSlice (s : State) (n : Nat) : State := { s with limit := n, bytePos := 0, bitPos := 0 }

def State.setMode (s : State) (m : Mode) : State := { s with mode := m }

/-- CV <- 1 where v holds; CV is otherwise kept (R37: it is sticky). -/
def State.flagIf (s : State) (v : Bool) : State := { s with cv := s.cv || v }

def State.setMsgOut (s : State) (m : Option Message) : State := { s with msgOut := m }

/-- Count() = BYTE_POS + (1 if BIT_POS > 0 else 0) (spec/40_bit_codec.md R154). -/
def State.count (s : State) : Nat := s.bytePos + if 0 < s.bitPos then 1 else 0

/-- Stream position p: bit 7 - (p mod 8) of WBUF[p div 8] (spec/00_scope.md R9). -/
def State.streamBit (s : State) (p : Nat) : Bool := (s.wbuf (p / 8)).getLsbD (7 - p % 8)

/-- The n stream bits from position p on. -/
def State.bitsFrom (s : State) (p n : Nat) : Bits := (List.range n).map fun k => s.streamBit (p + k)

/-- What the session has still to read: the stream bits from the cursor to the end of the slice. -/
def State.unread (s : State) : Bits := s.bitsFrom s.cursor (8 * s.limit - s.cursor)

/-! ## How a command ends -/

/-- Success: RESULT <- r, ERR <- 0 (R38, R41). -/
def State.succeed (s : State) (r : Word) : State := { s with result := r, err := none }

/-- `raise E` (R380): RESULT <- 0, ERR <- E, and nothing else changes. There is no trap entry, no saved register
and no return (R386, R387): the next command overwrites ERR. -/
def State.raise (s : State) (e : Error) : State := { s with result := 0, err := some e }

/-- `raise E` in a decode (R380): MSG_OUT <- None as well. -/
def State.raiseDecode (s : State) (e : Error) : State := (s.setMsgOut none).raise e

/-! ## The primitives -/

/-- What a primitive or an internal session leaves: it went through, or it raised an error at that state. -/
inductive Attempt where
  | ok (s : State)
  | err (e : Error) (s : State)
deriving DecidableEq, Repr

/-- Byte x with bit i set to b. -/
def putBit (x : Byte) (i : Nat) (b : Bool) : Byte :=
  if b then x ||| BitVec.twoPow 8 i else x &&& ~~~ BitVec.twoPow 8 i

/-- One turn of the loop of R152: entering a byte clears it, the bit goes to position 7 - BIT_POS, the cursor
moves on. -/
def State.writeBit (s : State) (b : Bool) : State :=
  let old := if s.bitPos = 0 then 0 else s.wbuf s.bytePos
  let t := s.setWbuf s.bytePos (putBit old (7 - s.bitPos) b)
  if s.bitPos + 1 = 8 then { t with bitPos := 0, bytePos := s.bytePos + 1 }
  else { t with bitPos := s.bitPos + 1 }

/-- The loop of R152 over a field's bits, most significant first. -/
def State.writeBits (s : State) : Bits → State
  | [] => s
  | b :: bs => (s.writeBit b).writeBits bs

/-- BitWrite(v, w) (R152): the bounds check first, then the mask with CV, then the bits. -/
def bitWrite (v w : Nat) (s : State) : Attempt :=
  if 8 * s.limit < s.cursor + w then .err .bufferOverflow s
  else .ok ((s.flagIf (decide (w < 32) && decide (2 ^ w ≤ v))).writeBits (bitsOf v w))

/-- An encoder: its fields in order, each by BitWrite (spec/00_scope.md R11); the first error ends it. -/
def writeFields : List Field → State → Attempt
  | [], s => .ok s
  | f :: fs, s =>
    match bitWrite f.value f.width (s.flagIf f.violation) with
    | .ok t => writeFields fs t
    | .err e t => .err e t

/-- What a decoder leaves: its value, or the error, each with the cursor just after the bits it read. -/
inductive Decoded (α : Type) where
  | ok (v : α) (s : State)
  | err (e : Error) (s : State)
deriving DecidableEq, Repr

/-- Run a decoder on the session's unread bits (R161, R162). Only the cursor moves: a decoder never writes WBUF
and never sets CV. -/
def runDec {α : Type} (d : Dec α) (s : State) : Decoded α :=
  match d s.unread with
  | .ok v rest => .ok v (s.setCursor (8 * s.limit - rest.length))
  | .err e rest => .err e (s.setCursor (8 * s.limit - rest.length))

/-- BitRead(w) (R162). -/
def bitRead (w : Nat) (s : State) : Decoded Nat := runDec (readBits w) s

end Sys2Proof.Machine
end

