-- ==== Sys2Proof/Machine/Operands.lean ====
section
/-! DEFINITION. Where commands take their operands from and the checks on them: the mode and operand pre-checks
(spec/60_exceptions.md R385), ARG0's address (spec/10_state.md R35), the fields of the frame in PAYLOAD
(spec/41_payload_framer.md R202), the bytes of a host access (spec/20_memory.md R74 to R77). -/

namespace Sys2Proof.Machine

/-! ## Pre-checks: the first that fails raises its error and nothing else changes (R385) -/

/-- MODE = m, else IllegalSequence (R385, 2). -/
def needMode (m : Mode) (k : State → State) (s : State) : State :=
  if s.mode = m then k s else s.raise .illegalSequence

/-- MSG_IN = Some(m), else IllegalSequence (R385, 3). -/
def needMsgIn (k : Message → State → State) (s : State) : State :=
  match s.msgIn with
  | some m => k m s
  | none => s.raise .illegalSequence

/-- An operand at most max, else the error of its kind (R103; R385, 4). -/
def needAtMost (n max : Nat) (e : Error) (k : State → State) (s : State) : State :=
  if n ≤ max then k s else s.raise e

/-! ## ARG0 -/

/-- ARG0[15:0], the address operand; bits [31:16] are ignored (R35). -/
def State.argAddress (s : State) : Half := s.arg0.extractLsb' 0 16

/-! ## The frame in PAYLOAD (R202) -/

/-- flag() = PAYLOAD[1][7]. -/
def State.plFlag (s : State) : Bool := (s.payload 1).getLsbD 7

/-- len() = PAYLOAD[1][6:0]. -/
def State.plLen (s : State) : Nat := (s.payload 1).toNat % 128

/-- hl(). -/
def State.plHeader (s : State) : Nat := if s.plFlag then 4 else 2

/-- addr() = PAYLOAD[2] + 256*PAYLOAD[3]. -/
def State.plAddr (s : State) : Half := s.payload 3 ++ s.payload 2

/-- valid(): len() is not 0 and fits after the header. -/
def State.plValid (s : State) : Bool :=
  decide (s.plLen ≠ 0) && decide (s.plLen ≤ Config.payloadSize - s.plHeader)

/-- valid(), else InvalidLength (R385, 5). -/
def needValid (k : State → State) (s : State) : State :=
  if s.plValid then k s else s.raise .invalidLength

/-- FILTER[0..3] (R42). -/
def State.filters (s : State) : List Half := [s.filter0, s.filter1, s.filter2, s.filter3]

/-! ## Host accesses -/

/-- Bytes of an access. -/
def Width.bytes : Width → Nat
  | .w8 => 1
  | .w16 => 2
  | .w32 => 4

/-- R77: misaligned (R75), or narrower than 32 bits at a register (R74), or outside the window. -/
def isBusError (offset : Nat) (w : Width) : Bool :=
  decide (offset % w.bytes ≠ 0) || (decide (offset < 0x18) && decide (w ≠ .w32)) ||
    decide (Config.windowSize ≤ offset)

/-- An offset of WBUF or PAYLOAD (R33). -/
def isBuffer (offset : Nat) : Bool := decide (Config.wbufBase ≤ offset) && decide (offset < 0x60)

/-- The little-endian value of n bytes from address a (R76). -/
def loadLE (m : List Host.Cell) (a : Nat) : Nat → Nat
  | 0 => 0
  | n + 1 => (Memory.read m a).toNat + 256 * loadLE m (a + 1) n

/-- The n bytes of v, least significant first (R76). -/
def bytesLE (v : Nat) : Nat → List Byte
  | 0 => []
  | n + 1 => BitVec.ofNat 8 v :: bytesLE (v / 256) n

end Sys2Proof.Machine
end

