-- ==== Sys2Proof/Machine/Flags.lean ====
section
/-! DEFINITION. The numbers of the error names (spec/60_exceptions.md R381) and the STATUS word (spec/10_state.md
R36). CV is computed where it is set: `bitWrite`, `Field.violates` (R37). -/

namespace Sys2Proof.Machine

/-- disc(E), the discriminant of an error (R381). -/
def errNumber : Error → Nat
  | .bufferOverflow => 1
  | .bufferUnderflow => 2
  | .invalidBoard => 3
  | .invalidSensor => 4
  | .invalidActuator => 5
  | .invalidCommand => 6
  | .invalidResponse => 7
  | .invalidMessage => 8
  | .versionMismatch => 9
  | .payloadTooLong => 10
  | .invalidLength => 11
  | .illegalCommand => 12
  | .illegalWidth => 13
  | .illegalSequence => 14
  | .illegalLimit => 15

/-- The ERR field: 0 = none (R36, R38). -/
def errField : Option Error → Nat
  | none => 0
  | some e => errNumber e

/-- The MODE field (R36, R39). -/
def modeField : Mode → Nat
  | .idle => 0
  | .write => 1
  | .read => 2

/-- STATUS (R36): ERR [7:0], CV [8], MODE [10:9], BYTE_POS [17:12], BIT_POS [20:18], LIMIT [26:21], OUT_VALID
[27], IN_VALID [28]; bits 11 and [31:29] read 0. -/
def State.status (s : State) : Word :=
  (0 : BitVec 3) ++ BitVec.ofBool s.msgIn.isSome ++ BitVec.ofBool s.msgOut.isSome ++
    BitVec.ofNat 6 s.limit ++ BitVec.ofNat 3 s.bitPos ++ BitVec.ofNat 6 s.bytePos ++ (0 : BitVec 1) ++
    BitVec.ofNat 2 (modeField s.mode) ++ BitVec.ofBool s.cv ++ BitVec.ofNat 8 (errField s.err)

end Sys2Proof.Machine
end

