-- ==== Sys2Proof/Machine/BitCodec.lean ====
section
/-! DEFINITION. The bit codec commands (spec/40_bit_codec.md). -/

namespace Sys2Proof.Machine

/-- Open a session of mode m over WBUF[0 .. n-1] (R150, R160). -/
def beginSession (m : Mode) (n : Nat) : State → State :=
  needMode .idle <| needAtMost n Config.wbufSize .illegalLimit fun s =>
    ((s.openSlice n).setMode m).succeed 0

/-- Close the open session of mode m: RESULT <- Count(), MODE <- IDLE (R155, R165). -/
def endSession (m : Mode) : State → State :=
  needMode m fun s => (s.setMode .idle).succeed (BitVec.ofNat 32 s.count)

/-- R150. -/
def execBwBegin (n : BitVec 6) (s : State) : Host.Outcome State Fault Refusal :=
  .next (beginSession .write n.toNat s)

/-- R153. -/
def execBwWrite (n : BitVec 6) (s : State) : Host.Outcome State Fault Refusal :=
  .next ((needMode .write <| needAtMost n.toNat Config.maxFieldWidth .illegalWidth fun s =>
    match bitWrite s.arg0.toNat n.toNat s with
    | .ok t => t.succeed (BitVec.ofNat 32 t.cursor)
    | .err e t => t.raise e) s)

/-- R155. -/
def execBwFinalize (s : State) : Host.Outcome State Fault Refusal := .next (endSession .write s)

/-- R160. -/
def execBrBegin (n : BitVec 6) (s : State) : Host.Outcome State Fault Refusal :=
  .next (beginSession .read n.toNat s)

/-- R163. -/
def execBrRead (n : BitVec 6) (s : State) : Host.Outcome State Fault Refusal :=
  .next ((needMode .read <| needAtMost n.toNat Config.maxFieldWidth .illegalWidth fun s =>
    match bitRead n.toNat s with
    | .ok v t => t.succeed (BitVec.ofNat 32 v)
    | .err e t => t.raise e) s)

/-- R165. -/
def execBrEnd (s : State) : Host.Outcome State Fault Refusal := .next (endSession .read s)

end Sys2Proof.Machine
end

