-- ==== Sys2Proof/Machine/Control.lean ====
section
/-! DEFINITION. The control commands (spec/44_control.md) and an illegal command word (spec/30_encoding.md R102). -/

namespace Sys2Proof.Machine

/-- R370. -/
def execNop (s : State) : Host.Outcome State Fault Refusal := .next (s.succeed 0)

/-- R371. -/
def execClearStatus (s : State) : Host.Outcome State Fault Refusal :=
  .next ({ (s.openSlice 0).setMode .idle with cv := false, msgIn := none, msgOut := none }.succeed 0)

/-- A CMD word that is no command (R102): ERR <- IllegalCommand, RESULT <- 0, and nothing else changes. -/
def illegalCommand (s : State) : Host.Outcome State Fault Refusal := .next (s.raise .illegalCommand)

end Sys2Proof.Machine
end

