-- ==== Sys2Proof/Machine/Payload.lean ====
section
/-! DEFINITION. The payload framer commands (spec/41_payload_framer.md). -/

namespace Sys2Proof.Machine

/-- The body of PL_NEW and PL_NEW_WITH_ADDR: the frame of WBUF[0 .. n-1] in PAYLOAD, and the length of header and
data as RESULT (R200, R201). -/
def buildFrame (pipe : Byte) (address : Option Half) (n : Nat) (s : State) : State :=
  (s.storePayload (frameBytes pipe address (s.wbufBytes n))).succeed
    (BitVec.ofNat 32 (headerLength address + n))

/-- The data() view, copied: WBUF[0 .. len()-1] <- PAYLOAD[hl() .. hl()+len()-1] (R215, R344). -/
def copyData (s : State) : State := s.storeWbuf (s.payloadBytes s.plHeader s.plLen)

/-- R200. -/
def execPlNew (n : BitVec 6) (pipe : Byte) (s : State) : Host.Outcome State Fault Refusal :=
  .next (needAtMost n.toNat 30 .payloadTooLong (buildFrame pipe none n.toNat) s)

/-- R201. -/
def execPlNewWithAddr (n : BitVec 6) (pipe : Byte) (s : State) : Host.Outcome State Fault Refusal :=
  .next (needAtMost n.toNat 28 .payloadTooLong (buildFrame pipe (some s.argAddress) n.toNat) s)

/-- R210. -/
def execPlPipe (s : State) : Host.Outcome State Fault Refusal :=
  .next (s.succeed ((s.payload 0).setWidth 32))

/-- R211. -/
def execPlLen (s : State) : Host.Outcome State Fault Refusal := .next (s.succeed (BitVec.ofNat 32 s.plLen))

/-- R212: 0x00010000 + addr() for Some, 0 for None. -/
def execPlAddress (s : State) : Host.Outcome State Fault Refusal :=
  .next (s.succeed (if s.plFlag then 0x10000 + s.plAddr.setWidth 32 else 0))

/-- R213. -/
def execPlHeaderLength (s : State) : Host.Outcome State Fault Refusal :=
  .next (s.succeed (BitVec.ofNat 32 s.plHeader))

/-- R214. -/
def execPlLenIsValid (s : State) : Host.Outcome State Fault Refusal :=
  .next (s.succeed (if s.plValid then 1 else 0))

/-- R215. -/
def execPlData (s : State) : Host.Outcome State Fault Refusal :=
  .next ((needMode .idle <| needValid fun s => (copyData s).succeed (BitVec.ofNat 32 s.plLen)) s)

/-- R216. -/
def execPlPacket (s : State) : Host.Outcome State Fault Refusal :=
  .next (needValid (fun s => s.succeed (BitVec.ofNat 32 (s.plHeader + s.plLen))) s)

/-- R230's accept: no list, or no address in the frame, or the address is among the first n entries. -/
def filterAccepts (s : State) (n : Nat) (a : Bool) : Bool :=
  !a || !s.plFlag || (s.filters.take n).contains s.plAddr

/-- R230. -/
def execPlAddrFilter (n : BitVec 6) (a : Bool) (s : State) : Host.Outcome State Fault Refusal :=
  .next (needAtMost (if a then n.toNat else 0) Config.filterSlots .illegalLimit
    (fun s => s.succeed (if filterAccepts s n.toNat a then 1 else 0)) s)

/-- R235: (address - 128) mod 256, the mathematical modulus (D22). -/
def execPipeForAddr (s : State) : Host.Outcome State Fault Refusal :=
  .next (s.succeed (BitVec.ofInt 32 (((s.argAddress.toNat : Int) - 128) % 256)))

end Sys2Proof.Machine
end

