-- ==== Sys2Proof/Machine/MessageCommands.lean ====
section
/-! DEFINITION. The message commands (spec/43_message_envelope.md R340 to R344). -/

namespace Sys2Proof.Machine

/-- An internal writer session over WBUF[0 .. n-1] that encodes m; MODE stays as it is (R340, R343). What it
writes, `decodeFrom` reads back as canon(m), with the same Count() (R346). -/
def encodeInto (n : Nat) (m : Message) (s : State) : Attempt := writeFields m.fields (s.openSlice n)

/-- An internal reader session over WBUF[0 .. n-1] that decodes a Message, all or nothing (R341, R342, R344). On
what `encodeInto` wrote for m it answers canon(m), RESULT being the Count() of the encoding (R346). -/
def decodeFrom (n : Nat) (s : State) : State :=
  match runDec decMessage (s.openSlice n) with
  | .ok m t => (t.setMsgOut (some m)).succeed (BitVec.ofNat 32 t.count)
  | .err e t => t.raiseDecode e

/-- R340. -/
def execMsgEncode (n : BitVec 6) (s : State) : Host.Outcome State Fault Refusal :=
  .next ((needMode .idle <| needMsgIn fun m => needAtMost n.toNat Config.wbufSize .illegalLimit fun s =>
    match encodeInto n.toNat m s with
    | .ok t => t.succeed (BitVec.ofNat 32 t.count)
    | .err e t => t.raise e) s)

/-- R341. MSG_OUT <- None goes before the pre-checks: every error of this command leaves it so (R40, spec/90_conflicts.md
C8), and no check reads it. -/
def execMsgDecode (n : BitVec 6) (s : State) : Host.Outcome State Fault Refusal :=
  .next ((needMode .idle <| needAtMost n.toNat Config.wbufSize .illegalLimit (decodeFrom n.toNat))
    (s.setMsgOut none))

/-- R343: encode into the capacity after the header, then the constructor's body with the byte count. -/
def execFrameMsg (a : Bool) (pipe : Byte) (s : State) : Host.Outcome State Fault Refusal :=
  .next ((needMode .idle <| needMsgIn fun m s =>
    let address := if a then some s.argAddress else none
    match encodeInto (Config.payloadSize - headerLength address) m s with
    | .ok t => buildFrame pipe address t.count t
    | .err e t => t.raise e) s)

/-- R344: the validity check, the copy of the data, then a decode bounded by len(). MSG_OUT as in MSG_DECODE. -/
def execUnframeMsg (s : State) : Host.Outcome State Fault Refusal :=
  .next ((needMode .idle <| needValid fun s => decodeFrom s.plLen (copyData s)) (s.setMsgOut none))

end Sys2Proof.Machine
end

