-- ==== Sys2Proof/Machine/Wire.lean ====
section
/-! DEFINITION. What one wire-format row or one frame row does when it is run by itself (`Action.encodeStep` and the
other codec steps): the row's encoder or its decoder, as a part of the session that is open on the cursor. -/

namespace Sys2Proof.Machine

/-- A row's decoder reads the row's fields one after another. -/
def readFields : List Field → Dec Unit
  | [] => Dec.value ()
  | f :: fs => Dec.andThen (readBits f.width) fun _ => readFields fs

/-- A row by itself. `enc`: its fields go out by BitWrite. `dec`: the row stands at the cursor, and its fields are read, so
that the cursor passes it; the value read is the instruction's own operands and no state holds it (R342). ERR,
RESULT and MODE are the enclosing command's: a row writes them only where it raises an error, as the command it is
a part of would (R340, R341). notes/assumptions/5.md -/
def wireRow (c : Codec) (fs : List Field) (s : State) : State :=
  match c with
  | .enc =>
    match writeFields fs s with
    | .ok t => t
    | .err e t => t.raise e
  | .dec =>
    match runDec (readFields fs) s with
    | .ok _ t => t
    | .err e t => t.raiseDecode e

/-- A reserved row: its error comes right after its code is read (spec/30_encoding.md R130). -/
def reservedRow (fs : List Field) (e : Error) (s : State) : State :=
  match runDec (readFields fs) s with
  | .ok _ t => t.raiseDecode e
  | .err e' t => t.raiseDecode e'

/-- R335 or R336. -/
def headError : BadHead → Error
  | .version _ => .versionMismatch
  | .code _ => .invalidMessage

/-- A frame row by itself. `enc`: the frame goes into PAYLOAD as the constructors build it (R200, R201). `dec`: the data()
view of the frame in PAYLOAD goes into WBUF (R215), after the check of len_is_valid() (R202).
notes/assumptions/5.md -/
def frameRow (c : Codec) (pipe : Byte) (address : Option Half) (data : List Byte) (s : State) : State :=
  let fits := decide (data.length ≤ Config.payloadSize - headerLength address)
  match c with
  | .enc => if fits then s.storePayload (frameBytes pipe address data) else s.raise .payloadTooLong
  | .dec =>
    if fits && !data.isEmpty then s.storeWbuf (s.payloadBytes (headerLength address) data.length)
    else s.raise .invalidLength

end Sys2Proof.Machine
end

