-- ==== Sys2Proof/Machine/WireEnvelope.lean ====
section
/-! DEFINITION. The wire rows of Message, MessageData, Command and Response (spec/43_message_envelope.md), each
run by itself as the codec step it is. -/

namespace Sys2Proof.Machine

/-- R330. -/
def execMessageMessage (c : Codec) (data : MessageData) (s : State) :
    Host.Outcome State Fault Refusal :=
  .next (wireRow c (Message.message data).fields s)

/-- R331. -/
def execMessageRelayMessage (c : Codec) (nodeId : Word) (data : MessageData) (s : State) :
    Host.Outcome State Fault Refusal :=
  .next (wireRow c (Message.relayMessage nodeId data).fields s)

/-- R332. -/
def execMessageSearchingNetwork (c : Codec) (nodeId : Word) (s : State) :
    Host.Outcome State Fault Refusal :=
  .next (wireRow c (Message.searchingNetwork nodeId).fields s)

/-- R333. -/
def execMessageNetwork (c : Codec) (nodeId : Word) (address : Half) (s : State) :
    Host.Outcome State Fault Refusal :=
  .next (wireRow c (Message.network nodeId address).fields s)

/-- R334. -/
def execMessageDebugMessage (c : Codec) (nodeId : Word) (bytes : Vector Byte 20) (s : State) :
    Host.Outcome State Fault Refusal :=
  .next (wireRow c (Message.debugMessage nodeId bytes).fields s)

/-- R335, R336. -/
def execMessageReserved (head : BadHead) (s : State) : Host.Outcome State Fault Refusal :=
  .next (reservedRow head.fields (headError head) s)

/-- R322. -/
def execDataCommand (c : Codec) (id : Byte) (command : Command) (s : State) :
    Host.Outcome State Fault Refusal :=
  .next (wireRow c (MessageData.command id command).fields s)

/-- R323. -/
def execDataResponse (c : Codec) (id : Option Byte) (response : Response) (s : State) :
    Host.Outcome State Fault Refusal :=
  .next (wireRow c (MessageData.response id response).fields s)

/-- R302. -/
def execCommandInfo (c : Codec) (s : State) : Host.Outcome State Fault Refusal :=
  .next (wireRow c Command.info.fields s)

/-- R303. -/
def execCommandLimbs (c : Codec) (s : State) : Host.Outcome State Fault Refusal :=
  .next (wireRow c Command.limbs.fields s)

/-- R304. -/
def execCommandSetLimb (c : Codec) (limb : Limb) (s : State) :
    Host.Outcome State Fault Refusal :=
  .next (wireRow c (Command.setLimb limb).fields s)

/-- R305. -/
def execCommandToggleLimb (c : Codec) (id : Byte) (s : State) :
    Host.Outcome State Fault Refusal :=
  .next (wireRow c (Command.toggleLimb id).fields s)

/-- R306. -/
def execCommandSetLimbType (c : Codec) (kind : LimbType) (s : State) :
    Host.Outcome State Fault Refusal :=
  .next (wireRow c (Command.setLimbType kind).fields s)

/-- R307. -/
def execCommandReserved (code : BitVec 4) (s : State) : Host.Outcome State Fault Refusal :=
  .next (reservedRow [vecField code 4] .invalidCommand s)

/-- R311. -/
def execResponseOk (c : Codec) (s : State) : Host.Outcome State Fault Refusal :=
  .next (wireRow c Response.ok.fields s)

/-- R312. -/
def execResponseInfo (c : Codec) (info : NodeInfo) (s : State) :
    Host.Outcome State Fault Refusal :=
  .next (wireRow c (Response.info info).fields s)

/-- R313. -/
def execResponseLimbs (c : Codec) (slot0 : Option Limb) (slot1 : Option Limb) (slot2 : Option Limb) (s : State) :
    Host.Outcome State Fault Refusal :=
  .next (wireRow c (Response.limbs slot0 slot1 slot2).fields s)

/-- R314. -/
def execResponseHeartbeat (c : Codec) (value : Word) (s : State) :
    Host.Outcome State Fault Refusal :=
  .next (wireRow c (Response.heartbeat value).fields s)

/-- R315. -/
def execResponseErrLimbNotFound (c : Codec) (s : State) : Host.Outcome State Fault Refusal :=
  .next (wireRow c Response.errLimbNotFound.fields s)

/-- R316. -/
def execResponseErrLimbTypeDoesntMatch (c : Codec) (s : State) :
    Host.Outcome State Fault Refusal :=
  .next (wireRow c Response.errLimbTypeDoesntMatch.fields s)

/-- R317. -/
def execResponseReserved (code : BitVec 4) (s : State) : Host.Outcome State Fault Refusal :=
  .next (reservedRow [vecField code 4] .invalidResponse s)

end Sys2Proof.Machine
end

