-- ==== Sys2Proof/Machine/WireTypes.lean ====
section
/-! DEFINITION. The wire rows of the component types (spec/42_message_types.md) and the frame layouts
(spec/30_encoding.md R110), each run by itself as the codec step it is. -/

namespace Sys2Proof.Machine

/-- R266. -/
def execLimb (c : Codec) (id : Byte) (kind : LimbType) (s : State) :
    Host.Outcome State Fault Refusal :=
  .next (wireRow c (Limb.mk id kind).fields s)

/-- R261. -/
def execLimbTypeSensor (c : Codec) (reportInterval : Half) (data : Option Sensor) (s : State) :
    Host.Outcome State Fault Refusal :=
  .next (wireRow c (LimbType.sensor reportInterval data).fields s)

/-- R262. -/
def execLimbTypeActuator (c : Codec) (a : Actuator) (s : State) :
    Host.Outcome State Fault Refusal :=
  .next (wireRow c (LimbType.actuator a).fields s)

/-- R252. -/
def execSensorBattery (c : Codec) (percentage : Byte) (s : State) :
    Host.Outcome State Fault Refusal :=
  .next (wireRow c (Sensor.battery percentage).fields s)

/-- R253. -/
def execSensorTempHum (c : Codec) (temperature : Half) (humidity : Byte) (s : State) :
    Host.Outcome State Fault Refusal :=
  .next (wireRow c (Sensor.tempHum temperature humidity).fields s)

/-- R254. -/
def execSensorCurrent (c : Codec) (milliamps : Half) (s : State) :
    Host.Outcome State Fault Refusal :=
  .next (wireRow c (Sensor.current milliamps).fields s)

/-- R255. -/
def execSensorReserved (code : BitVec 4) (s : State) : Host.Outcome State Fault Refusal :=
  .next (reservedRow [vecField code 4] .invalidSensor s)

/-- R257. -/
def execActuatorLight (c : Codec) (on : Bool) (s : State) : Host.Outcome State Fault Refusal :=
  .next (wireRow c (Actuator.light on).fields s)

/-- R258. -/
def execActuatorReserved (code : BitVec 4) (s : State) : Host.Outcome State Fault Refusal :=
  .next (reservedRow [vecField code 4] .invalidActuator s)

/-- R267. -/
def execNodeInfo (c : Codec) (board : Board) (heartbeatInterval : Half) (s : State) :
    Host.Outcome State Fault Refusal :=
  .next (wireRow c (NodeInfo.mk board heartbeatInterval).fields s)

/-- R250. -/
def execBoardB0 (c : Codec) (s : State) : Host.Outcome State Fault Refusal :=
  .next (wireRow c Board.b0.fields s)

/-- R250. -/
def execBoardB1 (c : Codec) (s : State) : Host.Outcome State Fault Refusal :=
  .next (wireRow c Board.b1.fields s)

/-- R250. -/
def execBoardB2 (c : Codec) (s : State) : Host.Outcome State Fault Refusal :=
  .next (wireRow c Board.b2.fields s)

/-- R250. -/
def execBoardB3 (c : Codec) (s : State) : Host.Outcome State Fault Refusal :=
  .next (wireRow c Board.b3.fields s)

/-- R264. -/
def execOptionNone (c : Codec) (t : OptionOf) (s : State) : Host.Outcome State Fault Refusal :=
  .next (wireRow c (noneFields t) s)

/-- R264. -/
def execOptionSome (c : Codec) (x : Present) (s : State) : Host.Outcome State Fault Refusal :=
  .next (wireRow c x.fields s)

/-- R110 with the flag 1. -/
def execFrameWithAddress (c : Codec) (pipe : Byte) (address : Half) (data : List Byte) (s : State) :
    Host.Outcome State Fault Refusal :=
  .next (frameRow c pipe (some address) data s)

/-- R110 with the flag 0. -/
def execFrameWithoutAddress (c : Codec) (pipe : Byte) (data : List Byte) (s : State) :
    Host.Outcome State Fault Refusal :=
  .next (frameRow c pipe none data s)

end Sys2Proof.Machine
end

