-- ==== Sys2Proof/Machine/Dispatch.lean ====
section
/-! DEFINITION. One arm per constructor of Instr. -/

namespace Sys2Proof.Machine

def exec (i : Instr) (s : State) : Host.Outcome State Fault Refusal :=
  match i with
  | .nop => Sys2Proof.Machine.execNop s
  | .bwBegin n => Sys2Proof.Machine.execBwBegin n s
  | .bwWrite n => Sys2Proof.Machine.execBwWrite n s
  | .bwFinalize => Sys2Proof.Machine.execBwFinalize s
  | .brBegin n => Sys2Proof.Machine.execBrBegin n s
  | .brRead n => Sys2Proof.Machine.execBrRead n s
  | .brEnd => Sys2Proof.Machine.execBrEnd s
  | .msgEncode n => Sys2Proof.Machine.execMsgEncode n s
  | .msgDecode n => Sys2Proof.Machine.execMsgDecode n s
  | .plNew n pipe => Sys2Proof.Machine.execPlNew n pipe s
  | .plNewWithAddr n pipe => Sys2Proof.Machine.execPlNewWithAddr n pipe s
  | .plPipe => Sys2Proof.Machine.execPlPipe s
  | .plLen => Sys2Proof.Machine.execPlLen s
  | .plAddress => Sys2Proof.Machine.execPlAddress s
  | .plHeaderLength => Sys2Proof.Machine.execPlHeaderLength s
  | .plLenIsValid => Sys2Proof.Machine.execPlLenIsValid s
  | .plData => Sys2Proof.Machine.execPlData s
  | .plPacket => Sys2Proof.Machine.execPlPacket s
  | .plAddrFilter n a => Sys2Proof.Machine.execPlAddrFilter n a s
  | .pipeForAddr => Sys2Proof.Machine.execPipeForAddr s
  | .frameMsg a pipe => Sys2Proof.Machine.execFrameMsg a pipe s
  | .unframeMsg => Sys2Proof.Machine.execUnframeMsg s
  | .clearStatus => Sys2Proof.Machine.execClearStatus s
  | .messageMessage c data => Sys2Proof.Machine.execMessageMessage c data s
  | .messageRelayMessage c nodeId data => Sys2Proof.Machine.execMessageRelayMessage c nodeId data s
  | .messageSearchingNetwork c nodeId => Sys2Proof.Machine.execMessageSearchingNetwork c nodeId s
  | .messageNetwork c nodeId address => Sys2Proof.Machine.execMessageNetwork c nodeId address s
  | .messageDebugMessage c nodeId bytes => Sys2Proof.Machine.execMessageDebugMessage c nodeId bytes s
  | .messageReserved head => Sys2Proof.Machine.execMessageReserved head s
  | .dataCommand c id command => Sys2Proof.Machine.execDataCommand c id command s
  | .dataResponse c id response => Sys2Proof.Machine.execDataResponse c id response s
  | .commandInfo c => Sys2Proof.Machine.execCommandInfo c s
  | .commandLimbs c => Sys2Proof.Machine.execCommandLimbs c s
  | .commandSetLimb c limb => Sys2Proof.Machine.execCommandSetLimb c limb s
  | .commandToggleLimb c id => Sys2Proof.Machine.execCommandToggleLimb c id s
  | .commandSetLimbType c kind => Sys2Proof.Machine.execCommandSetLimbType c kind s
  | .commandReserved code => Sys2Proof.Machine.execCommandReserved code s
  | .responseOk c => Sys2Proof.Machine.execResponseOk c s
  | .responseInfo c info => Sys2Proof.Machine.execResponseInfo c info s
  | .responseLimbs c slot0 slot1 slot2 => Sys2Proof.Machine.execResponseLimbs c slot0 slot1 slot2 s
  | .responseHeartbeat c value => Sys2Proof.Machine.execResponseHeartbeat c value s
  | .responseErrLimbNotFound c => Sys2Proof.Machine.execResponseErrLimbNotFound c s
  | .responseErrLimbTypeDoesntMatch c => Sys2Proof.Machine.execResponseErrLimbTypeDoesntMatch c s
  | .responseReserved code => Sys2Proof.Machine.execResponseReserved code s
  | .limb c id kind => Sys2Proof.Machine.execLimb c id kind s
  | .limbTypeSensor c reportInterval data => Sys2Proof.Machine.execLimbTypeSensor c reportInterval data s
  | .limbTypeActuator c a => Sys2Proof.Machine.execLimbTypeActuator c a s
  | .sensorBattery c percentage => Sys2Proof.Machine.execSensorBattery c percentage s
  | .sensorTempHum c temperature humidity => Sys2Proof.Machine.execSensorTempHum c temperature humidity s
  | .sensorCurrent c milliamps => Sys2Proof.Machine.execSensorCurrent c milliamps s
  | .sensorReserved code => Sys2Proof.Machine.execSensorReserved code s
  | .actuatorLight c on => Sys2Proof.Machine.execActuatorLight c on s
  | .actuatorReserved code => Sys2Proof.Machine.execActuatorReserved code s
  | .nodeInfo c board heartbeatInterval => Sys2Proof.Machine.execNodeInfo c board heartbeatInterval s
  | .boardB0 c => Sys2Proof.Machine.execBoardB0 c s
  | .boardB1 c => Sys2Proof.Machine.execBoardB1 c s
  | .boardB2 c => Sys2Proof.Machine.execBoardB2 c s
  | .boardB3 c => Sys2Proof.Machine.execBoardB3 c s
  | .optionNone c t => Sys2Proof.Machine.execOptionNone c t s
  | .optionSome c x => Sys2Proof.Machine.execOptionSome c x s
  | .frameWithAddress c pipe address data => Sys2Proof.Machine.execFrameWithAddress c pipe address data s
  | .frameWithoutAddress c pipe data => Sys2Proof.Machine.execFrameWithoutAddress c pipe data s

end Sys2Proof.Machine
end

