-- ==== Sys2Proof/Machine/Agent.lean ====
section
/-! DEFINITION. What the host agent and the environment do to the block (spec/20_memory.md R74 to R78, spec/10_state.md
R33, R34 and R40, spec/70_reset_and_hazards.md R420), how the next row is fetched, and where a word is placed to be
fetched next. -/

namespace Sys2Proof.Machine

/-! ## Reads -/

/-- A 32-bit read of a register (R33): CMD reads 0, a reserved offset reads 0. -/
def readRegister (offset : Nat) (s : State) : Word :=
  match offset with
  | 0x04 => s.arg0
  | 0x08 => s.result
  | 0x0C => s.status
  | 0x10 => s.filter1 ++ s.filter0
  | 0x14 => s.filter3 ++ s.filter2
  | _ => 0

/-- A legal read of the window (R76), zero-extended to 32 bits. -/
def readWindow (offset : Nat) (w : Width) (s : State) : Word :=
  if isBuffer offset then BitVec.ofNat 32 (loadLE s.mem offset w.bytes) else readRegister offset s

/-- A host read (R76), or its bus error (R77). -/
def hostRead (offset : Nat) (w : Width) (s : State) : State :=
  if isBusError offset w then { s with busError := true } else { s with hostRead := readWindow offset w s }

/-! ## Writes -/

/-- CMD <- w (R34): one command runs, whole, before anything else; an illegal word raises IllegalCommand (R102). -/
def issue (w : Word) (s : State) : Host.Outcome State Fault Refusal :=
  match decodeCommand w with
  | some i => exec i s
  | none => illegalCommand s

/-- A 32-bit write of a register other than CMD (R33): RESULT, STATUS and the reserved offsets ignore it. -/
def writeRegister (offset : Nat) (v : Word) (s : State) : State :=
  match offset with
  | 0x04 => { s with arg0 := v }
  | 0x10 => { s with filter0 := v.extractLsb' 0 16, filter1 := v.extractLsb' 16 16 }
  | 0x14 => { s with filter2 := v.extractLsb' 0 16, filter3 := v.extractLsb' 16 16 }
  | _ => s

/-- A host write (R76), its bus error (R77), or the command it triggers (R34). -/
def hostWrite (offset : Nat) (w : Width) (v : Word) (s : State) : Host.Outcome State Fault Refusal :=
  if isBusError offset w then .next { s with busError := true }
  else if offset = 0 then issue v s
  else if isBuffer offset then .next (s.setMem (Memory.writeBytes s.mem offset (bytesLE v.toNat w.bytes)))
  else .next (writeRegister offset v s)

/-! ## Reset -/

/-- The block's state after a reset whose draws are the given bytes (R47, R420). The host agent's side is not the
block's and stays. -/
def resetEvent (wbuf payload : Vector Byte 32) (s : State) : State :=
  let t := (State.reset.storeWbuf wbuf.toList).storePayload payload.toList
  { t with pending := s.pending, hostRead := s.hostRead, hostTaken := s.hostTaken, busError := s.busError }

/-! ## The codec's internal steps -/

/-- Fetch the row of type t at the cursor and run it. Bits that end inside a row raise the decoder's own error. -/
def fetchRow (t : WireType) (s : State) : Host.Outcome State Fault Refusal :=
  match runDec (decRow .dec t) s with
  | .ok i _ => exec i s
  | .err e u => .next (u.raiseDecode e)

/-- Fetch the frame in PAYLOAD and run its row. A length that does not fit raises InvalidLength (R111, R202). -/
def fetchFrame (s : State) : Host.Outcome State Fault Refusal :=
  match decodeFrame (s.payloadBytes 0 Config.payloadSize) with
  | some f => exec (f.row .dec) s
  | none => .next (s.raise .invalidLength)

/-! ## One action -/

/-- What one action does. -/
def runAction (a : Action) (s : State) : Host.Outcome State Fault Refusal :=
  match a with
  | .read offset w => .next (hostRead offset w s)
  | .write offset w v => hostWrite offset w v s
  | .putMsg m => .next { s with msgIn := some m }
  | .takeMsg => .next { s with hostTaken := s.msgOut }
  | .reset wbuf payload => .next (resetEvent wbuf payload s)
  | .encodeStep v => exec (v.row .enc) s
  | .decodeStep t => fetchRow t s
  | .encodeFrame f => exec (f.row .enc) s
  | .decodeFrame => fetchFrame s

/-- The next action, or none: the block never acts on its own initiative (spec/00_scope.md R6). -/
def runNext (s : State) : Host.Outcome State Fault Refusal :=
  match s.pending with
  | [] => .next s
  | a :: rest => runAction a { s with pending := rest }

/-! ## Placing a table row's word -/

/-- The word placed so that the very next step runs it. A command word is the host's next write to CMD. A row of at most 8
bits (a Command wire row) goes to the front of a slice of 7 bytes, zeros after it, with the decoder's step on it next. notes/assumptions/6.md -/
def placeWord (s : State) (nbits w : Nat) : State :=
  if nbits ≤ 8 then
    { (s.openSlice 7).storeWbuf (BitVec.ofNat 8 w :: List.replicate 6 0) with
      pending := .decodeStep .command :: s.pending }
  else { s with pending := .write 0 .w32 (BitVec.ofNat 32 w) :: s.pending }

end Sys2Proof.Machine
end

