-- ==== Sys2Proof/Machine/Step.lean ====
section
/-! DEFINITION. One step of the machine, and where the next instruction is placed. -/

namespace Sys2Proof.Machine

/-- One step: the next pending action of the host agent, whole (spec/00_scope.md R5, spec/20_memory.md R80). With
nothing pending the state stays (R6). -/
def step (s : State) : Host.Outcome State Fault Refusal := runNext s

/-- s with a table row's word placed where step fetches its next instruction. -/
def State.withFetchWord (s : State) (nbits w : Nat) : State := placeWord s nbits w

end Sys2Proof.Machine
end

