-- ==== Sys2Proof/Safety.lean ====
section
/-! DEFINITION. What claims are stated in: the invariant of every reachable state, the views of a state that a frame
compares, and the pseudocode loops of spec/40_bit_codec.md taken literally. -/

namespace Sys2Proof.Machine

/-! ## The invariant -/

/-- R43: 0 <= BIT_POS <= 7, 0 <= LIMIT <= 32, 8*BYTE_POS + BIT_POS <= 8*LIMIT. -/
abbrev State.CursorInv (s : State) : Prop := s.bitPos ≤ 7 ∧ s.limit ≤ 32 ∧ s.cursor ≤ 8 * s.limit

/-- The invariant every step keeps: the cursor's (R43), and the canonical form of the buffers (the model's own). -/
abbrev State.Inv (s : State) : Prop := Memory.wf s.mem = true ∧ s.CursorInv

/-! ## Views -/

/-- The byte at a window offset: every byte of WBUF and PAYLOAD is one. -/
abbrev State.byte (s : State) (a : Nat) : Byte := Memory.read s.mem a

/-- A command, as against a row of the wire format or of the frame layout (spec/00_scope.md R2). -/
def isCommand (i : Instr) : Bool :=
  match encode i with
  | .command _ => true
  | _ => false

/-! ## The pseudocode, literally -/

/-- BIT_POS <- BIT_POS + 1; if BIT_POS = 8: BIT_POS <- 0; BYTE_POS <- BYTE_POS + 1 (R152, R162). -/
def advance (s : State) : State :=
  if s.bitPos + 1 = 8 then { s with bitPos := 0, bytePos := s.bytePos + 1 } else { s with bitPos := s.bitPos + 1 }

/-- The loop of BitRead (R162): w times, v <- 2*v + WBUF[BYTE_POS][7 - BIT_POS], then advance. -/
def bitReadLoop : Nat → Nat → State → Nat × State
  | 0, v, s => (v, s)
  | w + 1, v, s => bitReadLoop w (2 * v + ((s.wbuf s.bytePos).getLsbD (7 - s.bitPos)).toNat) (advance s)

/-- BitRead (R162). -/
def bitReadPseudo (w : Nat) (s : State) : Decoded Nat :=
  if 8 * s.limit < s.cursor + w then .err .bufferUnderflow s
  else .ok (bitReadLoop w 0 s).1 (bitReadLoop w 0 s).2

/-- What a write of n bits at cursor P may do to stream position p (R152): position P + i takes bit i, the rest of a byte
that the write entered is cleared, every other position is as before. -/
def writtenBit (s : State) (bs : Bits) (p : Nat) : Bool :=
  if s.cursor ≤ p ∧ p < s.cursor + bs.length then bs.getD (p - s.cursor) false
  else if s.cursor ≤ 8 * (p / 8) ∧ 8 * (p / 8) < s.cursor + bs.length then false
  else s.streamBit p

/-! ## Stored bytes and packed bits -/

/-- `m'` is `m` with the bytes bs stored from address a upward: these read as stored, every other address as before. -/
abbrev StoredAt (m m' : List Host.Cell) (a : Nat) (bs : List Byte) : Prop :=
  Memory.wf m' = true ∧
    ∀ b, Memory.read m' b = if a ≤ b ∧ b < a + bs.length then bs.getD (b - a) 0 else Memory.read m b

/-- The bytes a writer session leaves for a bit string (spec/00_scope.md R9, spec/20_memory.md R87): stream position p is bit
7 - (p mod 8) of byte p div 8, and the last byte is filled up with zero bits. -/
def packBits (bs : Bits) : List Byte :=
  (List.range ((bs.length + 7) / 8)).map fun i =>
    BitVec.ofNat 8 (natOf (((bs ++ List.replicate 7 false).drop (8 * i)).take 8))

/-- Bytes a bit string takes: bits / 8, rounded up (R347). -/
def bytesFor (bits : Nat) : Nat := (bits + 7) / 8

/-! ## Sessions the host runs command by command (R151, R161) -/

/-- For each value and width: ARG0 <- value, then BW_WRITE of the width. None if a write raises an error. -/
def writeAll : List (Word × BitVec 6) → State → Option State
  | [], s => some s
  | (v, n) :: rest, s =>
    match exec (.bwWrite n) { s with arg0 := v } with
    | .next t => if t.err = none then writeAll rest t else none
    | _ => none

/-- BR_READ of each width, with the RESULTs. None if a read raises an error. -/
def readAll : List (BitVec 6) → State → Option (List Word)
  | [], _ => some []
  | n :: rest, s =>
    match exec (.brRead n) s with
    | .next t => if t.err = none then (readAll rest t).map (t.result :: ·) else none
    | _ => none

/-! ## How a command fails -/

/-- RESULT <- 0, ERR <- e, and nothing else changes (R380, R386). -/
abbrev failed (e : Error) (s : State) : State := { s with result := 0, err := some e }

/-- The commands whose every error also leaves MSG_OUT = None (R40, R385). -/
def decodes : Instr → Bool
  | .msgDecode _ | .unframeMsg => true
  | _ => false

/-- A pre-check of command i that fails with e (R385, the closing sentence). -/
def precheckFailed (i : Instr) (e : Error) (s : State) : State :=
  { s with result := 0, err := some e, msgOut := if decodes i then none else s.msgOut }

/-- The MODE a command needs (R385, 2; the commands of R381's row IllegalSequence). -/
def neededMode : Instr → Option Mode
  | .bwBegin _ | .brBegin _ | .msgEncode _ | .msgDecode _ | .plData | .frameMsg _ _ | .unframeMsg => some .idle
  | .bwWrite _ | .bwFinalize => some .write
  | .brRead _ | .brEnd => some .read
  | _ => none

/-- The commands that need MSG_IN = Some(_) (R385, 3). -/
def needsMessage : Instr → Bool
  | .msgEncode _ | .frameMsg _ _ => true
  | _ => false

/-- The error of an operand out of its range (spec/30_encoding.md R103; R385, 4). -/
def operandError : Instr → Option Error
  | .bwWrite n | .brRead n => if 32 < n.toNat then some .illegalWidth else none
  | .bwBegin n | .brBegin n | .msgEncode n | .msgDecode n => if 32 < n.toNat then some .illegalLimit else none
  | .plNew n _ => if 30 < n.toNat then some .payloadTooLong else none
  | .plNewWithAddr n _ => if 28 < n.toNat then some .payloadTooLong else none
  | .plAddrFilter n a => if a = true ∧ 4 < n.toNat then some .illegalLimit else none
  | _ => none

/-- The commands that need a valid frame (R385, 5). -/
def needsValidFrame : Instr → Bool
  | .plData | .plPacket | .unframeMsg => true
  | _ => false

/-- The errors of execution (R385, 6). -/
def executionErrors : List Error :=
  [.bufferOverflow, .bufferUnderflow, .versionMismatch, .invalidMessage, .invalidCommand, .invalidResponse,
    .invalidSensor, .invalidActuator]

/-! ## What each command may raise -/

/-- The errors a decode of a Message can end in (spec/43_message_envelope.md R341). -/
def decodeErrors : List Error :=
  [.bufferUnderflow, .versionMismatch, .invalidMessage, .invalidCommand, .invalidResponse, .invalidSensor,
    .invalidActuator]

/-- The errors each command may raise: the "raised by" column of spec/60_exceptions.md R381, read by command. -/
def mayRaise : Instr → List Error
  | .bwBegin _ => [.illegalSequence, .illegalLimit]
  | .bwWrite _ => [.illegalSequence, .illegalWidth, .bufferOverflow]
  | .bwFinalize => [.illegalSequence]
  | .brBegin _ => [.illegalSequence, .illegalLimit]
  | .brRead _ => [.illegalSequence, .illegalWidth, .bufferUnderflow]
  | .brEnd => [.illegalSequence]
  | .msgEncode _ => [.illegalSequence, .illegalLimit, .bufferOverflow]
  | .msgDecode _ => .illegalSequence :: .illegalLimit :: decodeErrors
  | .plNew _ _ => [.payloadTooLong]
  | .plNewWithAddr _ _ => [.payloadTooLong]
  | .plData => [.illegalSequence, .invalidLength]
  | .plPacket => [.invalidLength]
  | .plAddrFilter _ _ => [.illegalLimit]
  | .frameMsg _ _ => [.illegalSequence, .bufferOverflow]
  | .unframeMsg => .illegalSequence :: .invalidLength :: decodeErrors
  | _ => []

/-! ## The opcode map -/

/-- The opcodes of R101; every other one is reserved. -/
def opcodes : List Nat :=
  [0x00, 0x01, 0x02, 0x03, 0x04, 0x05, 0x06, 0x10, 0x11, 0x20, 0x21, 0x22, 0x23, 0x24, 0x25, 0x26, 0x27, 0x28, 0x29,
    0x2A, 0x30, 0x31, 0x3F]

end Sys2Proof.Machine
end

