-- ==== Sys2Proof/Certificates/Slice0/Obligations.lean ====
section
/-! DEFINITION. The statements for the provers. Each docstring names the rule of spec/ it formalises, or says which
clause is the model's own choice and where the log declares it. -/

open Sys2Proof Sys2Proof.Machine

/-! ## Encodings -/

/-- Every well-formed instruction of every family is what its encoding decodes to, every operand at every value:
spec/30_encoding.md R101, R110, R112 to R131. -/
def Obligations.DecodeOfEncode : Prop := ∀ i : Instr, i.wf = true → decode (encode i) = some i

/-- spec/30_encoding.md R100, with the expansion of R105: each field of a command word lies in its own bits, and a word
with clear reserved bits is the word of its fields. -/
def Obligations.CommandWordLayout : Prop :=
  (∀ (opc : BitVec 8) (n : BitVec 6) (a : Bool) (pipe : Byte),
    (commandWord opc n a pipe).toNat = opc.toNat + n.toNat * 2 ^ 8 + a.toNat * 2 ^ 14 + pipe.toNat * 2 ^ 16 ∧
    Word.opc (commandWord opc n a pipe) = opc.toNat ∧ Word.n (commandWord opc n a pipe) = n ∧
    Word.a (commandWord opc n a pipe) = a ∧ Word.pipe (commandWord opc n a pipe) = pipe ∧
    Word.reservedClear (commandWord opc n a pipe) = true) ∧
  ∀ w : Word, Word.reservedClear w = true →
    w = commandWord (w.extractLsb' 0 8) (Word.n w) (Word.a w) (Word.pipe w)

/-- spec/30_encoding.md R101: the opcode map. N, A and PIPE are free in every line, so a field the table marks "-" is ignored
and not checked. Every other opcode is no command. -/
def Obligations.OpcodeMap : Prop :=
  (∀ (n : BitVec 6) (a : Bool) (pipe : Byte),
    decodeCommand (commandWord 0x00 n a pipe) = some .nop ∧
    decodeCommand (commandWord 0x01 n a pipe) = some (.bwBegin n) ∧
    decodeCommand (commandWord 0x02 n a pipe) = some (.bwWrite n) ∧
    decodeCommand (commandWord 0x03 n a pipe) = some .bwFinalize ∧
    decodeCommand (commandWord 0x04 n a pipe) = some (.brBegin n) ∧
    decodeCommand (commandWord 0x05 n a pipe) = some (.brRead n) ∧
    decodeCommand (commandWord 0x06 n a pipe) = some .brEnd ∧
    decodeCommand (commandWord 0x10 n a pipe) = some (.msgEncode n) ∧
    decodeCommand (commandWord 0x11 n a pipe) = some (.msgDecode n) ∧
    decodeCommand (commandWord 0x20 n a pipe) = some (.plNew n pipe) ∧
    decodeCommand (commandWord 0x21 n a pipe) = some (.plNewWithAddr n pipe) ∧
    decodeCommand (commandWord 0x22 n a pipe) = some .plPipe ∧
    decodeCommand (commandWord 0x23 n a pipe) = some .plLen ∧
    decodeCommand (commandWord 0x24 n a pipe) = some .plAddress ∧
    decodeCommand (commandWord 0x25 n a pipe) = some .plHeaderLength ∧
    decodeCommand (commandWord 0x26 n a pipe) = some .plLenIsValid ∧
    decodeCommand (commandWord 0x27 n a pipe) = some .plData ∧
    decodeCommand (commandWord 0x28 n a pipe) = some .plPacket ∧
    decodeCommand (commandWord 0x29 n a pipe) = some (.plAddrFilter n a) ∧
    decodeCommand (commandWord 0x2A n a pipe) = some .pipeForAddr ∧
    decodeCommand (commandWord 0x30 n a pipe) = some (.frameMsg a pipe) ∧
    decodeCommand (commandWord 0x31 n a pipe) = some .unframeMsg ∧
    decodeCommand (commandWord 0x3F n a pipe) = some .clearStatus) ∧
  ∀ w : Word, Word.opc w ∉ opcodes → decodeCommand w = none

/-- spec/30_encoding.md R102: a CMD write of an unassigned opcode, or with bit 15 or a bit of [31:24] set, changes ERR and
RESULT and nothing else. Every other word is a command, and the words that run as NOP have NOP's opcode. -/
def Obligations.IllegalWords : Prop :=
  (∀ (w : Word) (s : State) (rest : List Action),
    (Word.opc w ∉ opcodes ∨ w.getLsbD 15 = true ∨ w.extractLsb' 24 8 ≠ 0) →
    step { s with pending := .write 0 .w32 w :: rest } =
      .next { s with pending := rest, err := some .illegalCommand, result := 0 }) ∧
  (∀ w : Word, Word.opc w ∈ opcodes → w.getLsbD 15 = false → w.extractLsb' 24 8 = 0 →
    (decodeCommand w).isSome = true) ∧
  ∀ w : Word, decodeCommand w = some .nop → Word.opc w = 0x00

/-- Words written out from the tables of spec/30_encoding.md (R100 to R105, R110, R112, R120 to R128), one or more of each
family, decode to the instruction they stand for. -/
def Obligations.SampleWordsDecode : Prop :=
  decode (.command 0x00000000) = some .nop ∧
  decode (.command 0x00002001) = some (.bwBegin 32) ∧
  decode (.command 0x00001105) = some (.brRead 17) ∧
  decode (.command 0x00220321) = some (.plNewWithAddr 3 0x22) ∧
  decode (.command 0x00004229) = some (.plAddrFilter 2 true) ∧
  decode (.command 0x00224030) = some (.frameMsg true 0x22) ∧
  decode (.command 0x00008000) = none ∧
  decode (.wire .dec .command [false, false, true, true, true, true, true, true]) =
    some (.commandToggleLimb .dec 15) ∧
  decode (.wire .enc .response [true, false, false, true]) = some (.responseErrLimbTypeDoesntMatch .enc) ∧
  decode (.wire .dec .actuator [false, false, false, false, true]) = some (.actuatorLight .dec true) ∧
  decode (.wire .dec .board [true, false]) = some (.boardB2 .dec) ∧
  decode (.wire .dec .message [false, true, false, true, false, true]) = some (.messageReserved (.code 5)) ∧
  decode (.frame .dec ([0x22, 0x83, 0x55, 0x55, 1, 2, 3] ++ List.replicate 25 0)) =
    some (.frameWithAddress .dec 0x22 0x5555 [1, 2, 3])

/-! ## Steps -/

/-- spec/10_state.md R34: a 32-bit write to CMD runs exactly the command the word decodes to, whole, in one step, and the
word is stored nowhere. A read of CMD returns 0. A narrower write is a bus error and runs nothing. -/
def Obligations.StepRunsIssuedCommand : Prop :=
  (∀ (w : Word) (i : Instr) (s : State) (rest : List Action), decodeCommand w = some i →
    step { s with pending := .write 0 .w32 w :: rest } = exec i { s with pending := rest }) ∧
  (∀ (s : State) (rest : List Action),
    step { s with pending := .read 0 .w32 :: rest } = .next { s with pending := rest, hostRead := 0 }) ∧
  ∀ (w : Word) (s : State) (rest : List Action) (k : Width), k ≠ .w32 →
    step { s with pending := .write 0 k w :: rest } = .next { s with pending := rest, busError := true }

/-- The model's own interface to one row at a time (notes/assumptions/5.md): where the unread bits of the slice begin with
the encoding of a well-formed row, the decoder's step runs that row; where PAYLOAD holds a frame, the frame's step runs it;
and the encoder's step runs the row it is given. -/
def Obligations.StepRunsRow : Prop :=
  (∀ (i : Instr) (t : WireType) (bits more : Bits) (s : State) (rest : List Action),
    i.wf = true → encode i = .wire .dec t bits → s.unread = bits ++ more →
    step { s with pending := .decodeStep t :: rest } = exec i { s with pending := rest }) ∧
  (∀ (f : Frame) (s : State) (rest : List Action), decodeFrame (s.payloadBytes 0 32) = some f →
    step { s with pending := .decodeFrame :: rest } = exec (f.row .dec) { s with pending := rest }) ∧
  (∀ (v : WireValue) (s : State) (rest : List Action),
    step { s with pending := .encodeStep v :: rest } = exec (v.row .enc) { s with pending := rest }) ∧
  ∀ (f : Frame) (s : State) (rest : List Action),
    step { s with pending := .encodeFrame f :: rest } = exec (f.row .enc) { s with pending := rest }

/-- A word of the opcode table that is placed is the very next thing that runs: a command word in the state it is placed
in, a Command wire row of eight bits with a slice of 7 bytes opened on it (notes/assumptions/6.md). -/
def Obligations.PlacedWordRuns : Prop :=
  (∀ (w : Nat) (i : Instr) (s : State), decodeTableWord 32 w = some i → step (s.withFetchWord 32 w) = exec i s) ∧
  ∀ (w : Nat) (i : Instr) (s : State), Memory.wf s.mem = true → decodeTableWord 8 w = some i →
    step (s.withFetchWord 8 w) =
      exec i ((s.openSlice 7).storeWbuf (BitVec.ofNat 8 w :: List.replicate 6 0))

/-- spec/00_scope.md R6: with no action of the host or the environment pending, the block does nothing. -/
def Obligations.NothingPending : Prop := ∀ s : State, s.pending = [] → step s = .next s

/-! ## Reset -/

/-- spec/70_reset_and_hazards.md R420, with the values of spec/10_state.md R47: the reset event, for every draw, in every
state. That pending, hostRead, hostTaken and busError, the host agent's own side, stay as they were is the model's choice
(notes/assumptions/4.md, and notes/assumptions/1.md for busError): R420 speaks of block state and no rule of them. -/
def Obligations.ResetEvent : Prop :=
  ∀ (wbuf payload : Vector Byte 32) (s : State) (rest : List Action),
    ∃ m t, Memory.wf m = true ∧
      (∀ i : Fin 32, Memory.read m (0x20 + i) = wbuf[i] ∧ Memory.read m (0x40 + i) = payload[i]) ∧
      step { s with pending := .reset wbuf payload :: rest } = .next t ∧
      t = { mem := m, arg0 := 0, result := 0, filter0 := 0, filter1 := 0, filter2 := 0, filter3 := 0, err := none,
            cv := false, mode := .idle, bytePos := 0, bitPos := 0, limit := 0, msgIn := none, msgOut := none,
            pending := rest, hostRead := s.hostRead, hostTaken := s.hostTaken, busError := s.busError } ∧
      t.status = 0

/-- The registers of spec/10_state.md R47 in State.reset, and STATUS as spec/70_reset_and_hazards.md R421 reads it. That a
byte of WBUF or PAYLOAD reads 0 there is the model's choice (notes/assumptions/2.md) and is not stated. -/
def Obligations.ResetRegisters : Prop :=
  State.reset.arg0 = 0 ∧ State.reset.result = 0 ∧ State.reset.filters = [0, 0, 0, 0] ∧
  State.reset.err = none ∧ State.reset.cv = false ∧ State.reset.mode = .idle ∧
  State.reset.bytePos = 0 ∧ State.reset.bitPos = 0 ∧ State.reset.limit = 0 ∧
  State.reset.msgIn = none ∧ State.reset.msgOut = none ∧ State.reset.status = 0

/-- The state after reset meets the invariant: the cursor's (spec/10_state.md R43) and the memory's canonical form. -/
def Obligations.ResetMeetsInvariant : Prop := State.reset.Inv

/-- From any state that meets the invariant, whatever comes next, one step leads to a state that meets it: spec/10_state.md
R43 (0 <= BIT_POS <= 7, 0 <= LIMIT <= 32, P <= 8*LIMIT), and the canonical form of the buffers, the model's own. No step
stops (spec/60_exceptions.md R380). -/
def Obligations.StepKeepsInvariant : Prop := ∀ s : State, s.Inv → ∃ t, step s = .next t ∧ t.Inv

/-- spec/43_message_envelope.md R345, over every kind of step: MSG_OUT never comes to hold a value that is not canonical. -/
def Obligations.MsgOutStaysCanonical : Prop :=
  ∀ s t : State, (∀ m ∈ s.msgOut, m.Canonical) → step s = .next t → ∀ m ∈ t.msgOut, m.Canonical

/-! ## The bit codec -/

/-- spec/40_bit_codec.md R150 and R160: BW_BEGIN and BR_BEGIN, their pre-checks in order, their whole effect. -/
def Obligations.BeginOpensSession : Prop :=
  ∀ (n : BitVec 6) (s : State),
    (s.mode ≠ .idle → exec (.bwBegin n) s = .next (failed .illegalSequence s) ∧
      exec (.brBegin n) s = .next (failed .illegalSequence s)) ∧
    (s.mode = .idle → 32 < n.toNat → exec (.bwBegin n) s = .next (failed .illegalLimit s) ∧
      exec (.brBegin n) s = .next (failed .illegalLimit s)) ∧
    (s.mode = .idle → n.toNat ≤ 32 →
      exec (.bwBegin n) s = .next
        { s with limit := n.toNat, bytePos := 0, bitPos := 0, mode := .write, result := 0, err := none } ∧
      exec (.brBegin n) s = .next
        { s with limit := n.toNat, bytePos := 0, bitPos := 0, mode := .read, result := 0, err := none })

/-- spec/40_bit_codec.md R155 and R165, with Count() of R154: BW_FINALIZE and BR_END, in the mode they need and in any
other. -/
def Obligations.EndClosesSession : Prop :=
  ∀ s : State,
    (s.mode = .write → exec .bwFinalize s = .next
      { s with result := BitVec.ofNat 32 (s.bytePos + if 0 < s.bitPos then 1 else 0), mode := .idle, err := none }) ∧
    (s.mode ≠ .write → exec .bwFinalize s = .next (failed .illegalSequence s)) ∧
    (s.mode = .read → exec .brEnd s = .next
      { s with result := BitVec.ofNat 32 (s.bytePos + if 0 < s.bitPos then 1 else 0), mode := .idle, err := none }) ∧
    (s.mode ≠ .read → exec .brEnd s = .next (failed .illegalSequence s))

/-- spec/40_bit_codec.md R153 and the primitive R152 it runs, with the bound of R171. In a state that meets the cursor's
invariant: the pre-checks; the overflow, which changes nothing else; the write. Of the stream, position P + i takes bit
N - 1 - i of ARG0, the rest of a byte that the write enters is 0, and every other position is as before; so is every byte
outside WBUF[P div 8 .. ceil((P+N)/8) - 1]. CV is set where ARG0 does not fit. -/
def Obligations.BwWriteWritesTheField : Prop :=
  ∀ (n : BitVec 6) (s : State), s.Inv →
    (s.mode ≠ .write → exec (.bwWrite n) s = .next (failed .illegalSequence s)) ∧
    (s.mode = .write → 32 < n.toNat → exec (.bwWrite n) s = .next (failed .illegalWidth s)) ∧
    (s.mode = .write → n.toNat ≤ 32 → 8 * s.limit < s.cursor + n.toNat →
      exec (.bwWrite n) s = .next (failed .bufferOverflow s)) ∧
    (s.mode = .write → n.toNat ≤ 32 → s.cursor + n.toNat ≤ 8 * s.limit → ∃ m, Memory.wf m = true ∧
      exec (.bwWrite n) s = .next
        { s with mem := m, bytePos := (s.cursor + n.toNat) / 8, bitPos := (s.cursor + n.toNat) % 8,
                 cv := s.cv || decide (n.toNat < 32 ∧ 2 ^ n.toNat ≤ s.arg0.toNat),
                 result := BitVec.ofNat 32 (s.cursor + n.toNat), err := none } ∧
      (∀ p, ({ s with mem := m } : State).streamBit p =
        if s.cursor ≤ p ∧ p < s.cursor + n.toNat then s.arg0.getLsbD (s.cursor + n.toNat - 1 - p)
        else if s.cursor ≤ 8 * (p / 8) ∧ 8 * (p / 8) < s.cursor + n.toNat then false
        else s.streamBit p) ∧
      ∀ a, ¬ (0x20 + s.cursor / 8 ≤ a ∧ a < 0x20 + bytesFor (s.cursor + n.toNat)) → Memory.read m a = s.byte a)

/-- spec/40_bit_codec.md R163, with the bound of R171: the pre-checks; the underflow, which leaves the cursor; the read, whose
RESULT is the unsigned number that stream positions P .. P + N - 1 hold, first position most significant. -/
def Obligations.BrReadReadsTheField : Prop :=
  ∀ (n : BitVec 6) (s : State), s.Inv →
    (s.mode ≠ .read → exec (.brRead n) s = .next (failed .illegalSequence s)) ∧
    (s.mode = .read → 32 < n.toNat → exec (.brRead n) s = .next (failed .illegalWidth s)) ∧
    (s.mode = .read → n.toNat ≤ 32 → 8 * s.limit < s.cursor + n.toNat →
      exec (.brRead n) s = .next (failed .bufferUnderflow s)) ∧
    (s.mode = .read → n.toNat ≤ 32 → s.cursor + n.toNat ≤ 8 * s.limit → ∃ v : Word,
      exec (.brRead n) s = .next
        { s with bytePos := (s.cursor + n.toNat) / 8, bitPos := (s.cursor + n.toNat) % 8, result := v,
                 err := none } ∧
      ∀ i, v.getLsbD i = (decide (i < n.toNat) && s.streamBit (s.cursor + n.toNat - 1 - i)))

/-- spec/40_bit_codec.md R162: BitRead is its pseudocode, loop and all, in every state that meets the cursor's invariant; it
never writes a buffer, and it reads only WBUF bytes below LIMIT. -/
def Obligations.BitReadIsPseudocode : Prop :=
  ∀ (w : Nat) (s : State), s.Inv →
    bitRead w s = bitReadPseudo w s ∧
    (∀ v t, bitRead w s = .ok v t → v < 2 ^ w ∧ t.mem = s.mem) ∧
    ∀ m, (∀ i, i < s.limit → Memory.read m (0x20 + i) = s.wbuf i) →
      (∀ v t, bitRead w s = .ok v t → bitRead w { s with mem := m } = .ok v { t with mem := m }) ∧
      (∀ e t, bitRead w s = .err e t → bitRead w { s with mem := m } = .err e { t with mem := m })

/-- spec/40_bit_codec.md R170, for a whole session of writes: what BW_WRITE wrote with no error, BR_READ with the same widths
over the same slice reads back, each value modulo two to its width. -/
def Obligations.FieldRoundTrip : Prop :=
  ∀ (fs : List (Word × BitVec 6)) (n : BitVec 6) (s s1 s2 s3 s4 : State),
    s.Inv → s.mode = .idle → n.toNat ≤ 32 →
    exec (.bwBegin n) s = .next s1 → writeAll fs s1 = some s2 → exec .bwFinalize s2 = .next s3 →
    exec (.brBegin n) s3 = .next s4 →
    readAll (fs.map (·.2)) s4 = some (fs.map fun f => BitVec.ofNat 32 (f.1.toNat % 2 ^ f.2.toNat))

/-! ## The payload framer -/

/-- spec/41_payload_framer.md R210 to R214: each accessor's whole effect, from the bytes of PAYLOAD, in every state. -/
def Obligations.PlAccessors : Prop :=
  ∀ s : State,
    exec .plPipe s = .next { s with result := BitVec.ofNat 32 (s.payload 0).toNat, err := none } ∧
    exec .plLen s = .next { s with result := BitVec.ofNat 32 ((s.payload 1).toNat % 128), err := none } ∧
    exec .plAddress s = .next
      { s with
        result := if 128 ≤ (s.payload 1).toNat
          then BitVec.ofNat 32 (0x10000 + ((s.payload 2).toNat + 256 * (s.payload 3).toNat)) else 0,
        err := none } ∧
    exec .plHeaderLength s = .next
      { s with result := if 128 ≤ (s.payload 1).toNat then 4 else 2, err := none } ∧
    exec .plLenIsValid s = .next
      { s with
        result := if (s.payload 1).toNat % 128 ≠ 0 ∧
            (s.payload 1).toNat % 128 ≤ 32 - (if 128 ≤ (s.payload 1).toNat then 4 else 2) then 1 else 0,
        err := none }

/-- spec/41_payload_framer.md R216: PL_PACKET on a valid frame and on an invalid one. -/
def Obligations.PlPacket : Prop :=
  ∀ s : State,
    (s.plValid = true →
      exec .plPacket s = .next { s with result := BitVec.ofNat 32 (s.plHeader + s.plLen), err := none } ∧
      3 ≤ s.plHeader + s.plLen ∧ s.plHeader + s.plLen ≤ 32) ∧
    (s.plValid = false → exec .plPacket s = .next (failed .invalidLength s))

/-- spec/41_payload_framer.md R200: PL_NEW. The 32 bytes of PAYLOAD are the pipe, N, the N bytes of WBUF, then zeros; every
other byte and every other register is as before. Where N > 30, PayloadTooLong and nothing else. -/
def Obligations.PlNewBuildsFrame : Prop :=
  ∀ (n : BitVec 6) (pipe : Byte) (s : State), Memory.wf s.mem = true →
    (30 < n.toNat → exec (.plNew n pipe) s = .next (failed .payloadTooLong s)) ∧
    (n.toNat ≤ 30 → ∃ m, Memory.wf m = true ∧
      exec (.plNew n pipe) s = .next
        { s with mem := m, result := BitVec.ofNat 32 (2 + n.toNat), err := none } ∧
      (∀ i, i < 32 → Memory.read m (0x40 + i) =
        if i = 0 then pipe else if i = 1 then BitVec.ofNat 8 n.toNat
        else if i < 2 + n.toNat then s.wbuf (i - 2) else 0) ∧
      ∀ a, ¬ (0x40 ≤ a ∧ a < 0x60) → Memory.read m a = s.byte a)

/-- spec/41_payload_framer.md R201: PL_NEW_WITH_ADDR, with the flag, the little-endian address of ARG0[15:0] (spec/20_memory.md
R79) and the data from byte 4. Where N > 28, PayloadTooLong and nothing else. -/
def Obligations.PlNewWithAddrBuildsFrame : Prop :=
  ∀ (n : BitVec 6) (pipe : Byte) (s : State), Memory.wf s.mem = true →
    (28 < n.toNat → exec (.plNewWithAddr n pipe) s = .next (failed .payloadTooLong s)) ∧
    (n.toNat ≤ 28 → ∃ m, Memory.wf m = true ∧
      exec (.plNewWithAddr n pipe) s = .next
        { s with mem := m, result := BitVec.ofNat 32 (4 + n.toNat), err := none } ∧
      (∀ i, i < 32 → Memory.read m (0x40 + i) =
        if i = 0 then pipe else if i = 1 then BitVec.ofNat 8 (0x80 + n.toNat)
        else if i = 2 then s.arg0.extractLsb' 0 8 else if i = 3 then s.arg0.extractLsb' 8 8
        else if i < 4 + n.toNat then s.wbuf (i - 4) else 0) ∧
      ∀ a, ¬ (0x40 ≤ a ∧ a < 0x60) → Memory.read m a = s.byte a)

/-- spec/41_payload_framer.md R215: PL_DATA. The data of a valid frame goes to WBUF[0 .. len()-1], and every other byte and
register is as before; the two pre-checks change nothing but ERR and RESULT. -/
def Obligations.PlDataCopies : Prop :=
  ∀ s : State, Memory.wf s.mem = true →
    (s.mode ≠ .idle → exec .plData s = .next (failed .illegalSequence s)) ∧
    (s.mode = .idle → s.plValid = false → exec .plData s = .next (failed .invalidLength s)) ∧
    (s.mode = .idle → s.plValid = true → ∃ m, Memory.wf m = true ∧
      exec .plData s = .next { s with mem := m, result := BitVec.ofNat 32 s.plLen, err := none } ∧
      (∀ i, i < s.plLen → Memory.read m (0x20 + i) = s.payload (s.plHeader + i)) ∧
      ∀ a, ¬ (0x20 ≤ a ∧ a < 0x20 + s.plLen) → Memory.read m a = s.byte a)

/-- spec/41_payload_framer.md R230: PL_ADDR_FILTER, for every count, flag and frame. -/
def Obligations.AddrFilter : Prop :=
  ∀ (n : BitVec 6) (a : Bool) (s : State),
    (a = true → 4 < n.toNat → exec (.plAddrFilter n a) s = .next (failed .illegalLimit s)) ∧
    ((a = false ∨ n.toNat ≤ 4) →
      ((a = false ∨ (s.payload 1).toNat < 128 ∨
          ∃ i, i < n.toNat ∧ s.filters[i]? = some (s.payload 3 ++ s.payload 2)) →
        exec (.plAddrFilter n a) s = .next { s with result := 1, err := none }) ∧
      (¬ (a = false ∨ (s.payload 1).toNat < 128 ∨
          ∃ i, i < n.toNat ∧ s.filters[i]? = some (s.payload 3 ++ s.payload 2)) →
        exec (.plAddrFilter n a) s = .next { s with result := 0, err := none }))

/-- spec/41_payload_framer.md R235: PIPE_FOR_ADDR, as the mathematical modulus of ARG0[15:0] - 128, which is
(ARG0[7:0] + 128) mod 256. -/
def Obligations.PipeForAddr : Prop :=
  ∀ s : State, ∃ v : Word, exec .pipeForAddr s = .next { s with result := v, err := none } ∧
    (v.toNat : Int) = ((s.arg0.toNat % 2 ^ 16 : Nat) - 128 : Int) % 256 ∧
    v.toNat = (s.arg0.toNat % 2 ^ 8 + 128) % 256

/-- spec/41_payload_framer.md R220: two states that differ only in the bytes after the data of a valid frame. Every accessor,
the filter and UNFRAME_MSG give the same registers and leave the same bytes before those, and the bytes after the data are
as they were. -/
def Obligations.TrailingBytesNeverRead : Prop :=
  ∀ (i : Instr) (s t : State) (m : List Host.Cell),
    (i ∈ [Instr.plPipe, .plLen, .plAddress, .plHeaderLength, .plLenIsValid, .plData, .plPacket, .unframeMsg] ∨
      ∃ n a, i = .plAddrFilter n a) →
    Memory.wf s.mem = true → Memory.wf m = true → s.plValid = true →
    (∀ a, a < 0x40 + s.plHeader + s.plLen → Memory.read m a = s.byte a) →
    exec i s = .next t →
    ∃ m', exec i { s with mem := m } = .next { t with mem := m' } ∧
      ∀ a, Memory.read m' a = if a < 0x40 + s.plHeader + s.plLen then t.byte a else Memory.read m a

/-! ## The wire format -/

/-- The bit strings of spec/30_encoding.md R112 and R120 to R128 with the widths of R131, variant by variant. -/
def Obligations.WireLayout : Prop :=
  (fieldsBits Board.b0.fields = bitsOf 0 2 ∧ fieldsBits Board.b1.fields = bitsOf 1 2 ∧
    fieldsBits Board.b2.fields = bitsOf 2 2 ∧ fieldsBits Board.b3.fields = bitsOf 3 2) ∧
  (∀ p : Byte, fieldsBits (Sensor.battery p).fields = bitsOf 0 4 ++ bitsOf p.toNat 8) ∧
  (∀ (t : Half) (h : Byte),
    fieldsBits (Sensor.tempHum t h).fields = bitsOf 1 4 ++ bitsOf t.toNat 16 ++ bitsOf h.toNat 8) ∧
  (∀ c : Half, fieldsBits (Sensor.current c).fields = bitsOf 2 4 ++ bitsOf c.toNat 16) ∧
  (∀ on : Bool, fieldsBits (Actuator.light on).fields = bitsOf 0 4 ++ [on]) ∧
  (∀ r : Half, fieldsBits (LimbType.sensor r none).fields = [false] ++ bitsOf r.toNat 16 ++ [false]) ∧
  (∀ (r : Half) (x : Sensor), fieldsBits (LimbType.sensor r (some x)).fields =
    [false] ++ bitsOf r.toNat 16 ++ [true] ++ fieldsBits x.fields) ∧
  (∀ a : Actuator, fieldsBits (LimbType.actuator a).fields = [true] ++ fieldsBits a.fields) ∧
  (∀ l : Limb, fieldsBits l.fields = bitsOf l.id.toNat 4 ++ fieldsBits l.kind.fields) ∧
  (∀ n : NodeInfo, fieldsBits n.fields = fieldsBits n.board.fields ++ bitsOf n.heartbeatInterval.toNat 16) ∧
  (fieldsBits Command.info.fields = bitsOf 0 4 ∧ fieldsBits Command.limbs.fields = bitsOf 1 4 ∧
    (∀ l, fieldsBits (Command.setLimb l).fields = bitsOf 2 4 ++ fieldsBits l.fields) ∧
    (∀ i : Byte, fieldsBits (Command.toggleLimb i).fields = bitsOf 3 4 ++ bitsOf i.toNat 4) ∧
    ∀ t, fieldsBits (Command.setLimbType t).fields = bitsOf 4 4 ++ fieldsBits t.fields) ∧
  (fieldsBits Response.ok.fields = bitsOf 0 4 ∧
    (∀ n, fieldsBits (Response.info n).fields = bitsOf 1 4 ++ fieldsBits n.fields) ∧
    (∀ x y z, fieldsBits (Response.limbs x y z).fields =
      bitsOf 2 4 ++ (fieldsBits (optionFields Limb.fields x) ++
        (fieldsBits (optionFields Limb.fields y) ++ fieldsBits (optionFields Limb.fields z)))) ∧
    (∀ l : Limb, fieldsBits (optionFields Limb.fields (some l)) = [true] ++ fieldsBits l.fields) ∧
    fieldsBits (optionFields Limb.fields none) = [false] ∧
    (∀ v : Word, fieldsBits (Response.heartbeat v).fields = bitsOf 3 4 ++ bitsOf v.toNat 32) ∧
    fieldsBits Response.errLimbNotFound.fields = bitsOf 8 4 ∧
    fieldsBits Response.errLimbTypeDoesntMatch.fields = bitsOf 9 4) ∧
  ((∀ (i : Byte) (c : Command), fieldsBits (MessageData.command i c).fields =
      [false] ++ bitsOf i.toNat 6 ++ fieldsBits c.fields) ∧
    (∀ r : Response, fieldsBits (MessageData.response none r).fields =
      [true] ++ bitsOf 0 6 ++ fieldsBits r.fields) ∧
    ∀ (i : Byte) (r : Response), fieldsBits (MessageData.response (some i) r).fields =
      [true] ++ bitsOf i.toNat 6 ++ fieldsBits r.fields) ∧
  (∀ d, (Message.message d).bits = bitsOf 1 2 ++ bitsOf 0 4 ++ fieldsBits d.fields) ∧
  (∀ (n : Word) (d : MessageData), (Message.relayMessage n d).bits =
    bitsOf 1 2 ++ bitsOf 1 4 ++ bitsOf n.toNat 32 ++ fieldsBits d.fields) ∧
  (∀ n : Word, (Message.searchingNetwork n).bits = bitsOf 1 2 ++ bitsOf 2 4 ++ bitsOf n.toNat 32) ∧
  (∀ (n : Word) (a : Half), (Message.network n a).bits =
    bitsOf 1 2 ++ bitsOf 3 4 ++ bitsOf n.toNat 32 ++ bitsOf a.toNat 16) ∧
  ∀ (n : Word) (b : Vector Byte 20), (Message.debugMessage n b).bits =
    bitsOf 1 2 ++ bitsOf 4 4 ++ bitsOf n.toNat 32 ++ b.toList.flatMap fun x => bitsOf x.toNat 8

/-- spec/42_message_types.md R270 and spec/43_message_envelope.md R347: the encoded lengths, in bits, the bounds with values
that reach both ends, and the 26 bytes that no Message exceeds. -/
def Obligations.EncodedLengths : Prop :=
  (∀ b : Board, (fieldsBits b.fields).length = 2) ∧
  (∀ p, (fieldsBits (Sensor.battery p).fields).length = 12) ∧
  (∀ t h, (fieldsBits (Sensor.tempHum t h).fields).length = 28) ∧
  (∀ c, (fieldsBits (Sensor.current c).fields).length = 20) ∧
  (∀ a : Actuator, (fieldsBits a.fields).length = 5) ∧
  (∀ r, (fieldsBits (LimbType.sensor r none).fields).length = 18) ∧
  (∀ r x, (fieldsBits (LimbType.sensor r (some x)).fields).length = 18 + (fieldsBits x.fields).length) ∧
  ((fieldsBits (optionFields Sensor.fields none)).length = 1 ∧ (fieldsBits (optionFields Limb.fields none)).length = 1 ∧
    (∀ x, (fieldsBits (optionFields Sensor.fields (some x))).length = 1 + (fieldsBits x.fields).length) ∧
    ∀ x, (fieldsBits (optionFields Limb.fields (some x))).length = 1 + (fieldsBits x.fields).length) ∧
  (∀ a, (fieldsBits (LimbType.actuator a).fields).length = 6) ∧
  (∀ l : Limb, (fieldsBits l.fields).length = 4 + (fieldsBits l.kind.fields).length ∧
    (fieldsBits l.fields).length ∈ [10, 22, 34, 50, 42]) ∧
  (∀ n : NodeInfo, (fieldsBits n.fields).length = 18) ∧
  ((fieldsBits Command.info.fields).length = 4 ∧ (fieldsBits Command.limbs.fields).length = 4 ∧
    (∀ l, 14 ≤ (fieldsBits (Command.setLimb l).fields).length ∧
      (fieldsBits (Command.setLimb l).fields).length ≤ 54) ∧
    (∀ i, (fieldsBits (Command.toggleLimb i).fields).length = 8) ∧
    ∀ t, 10 ≤ (fieldsBits (Command.setLimbType t).fields).length ∧
      (fieldsBits (Command.setLimbType t).fields).length ≤ 50) ∧
  ((fieldsBits Response.ok.fields).length = 4 ∧ (fieldsBits Response.errLimbNotFound.fields).length = 4 ∧
    (fieldsBits Response.errLimbTypeDoesntMatch.fields).length = 4 ∧
    (∀ n, (fieldsBits (Response.info n).fields).length = 22) ∧
    (∀ x y z, 7 ≤ (fieldsBits (Response.limbs x y z).fields).length ∧
      (fieldsBits (Response.limbs x y z).fields).length ≤ 157) ∧
    ∀ v, (fieldsBits (Response.heartbeat v).fields).length = 36) ∧
  (∀ i c, (fieldsBits (MessageData.command i c).fields).length = 7 + (fieldsBits c.fields).length) ∧
  (∀ i r, (fieldsBits (MessageData.response i r).fields).length = 7 + (fieldsBits r.fields).length) ∧
  (∀ d : MessageData, 11 ≤ (fieldsBits d.fields).length ∧ (fieldsBits d.fields).length ≤ 164) ∧
  (∀ d, (Message.message d).bits.length = 6 + (fieldsBits d.fields).length ∧
    17 ≤ (Message.message d).bits.length ∧ (Message.message d).bits.length ≤ 170) ∧
  (∀ n d, (Message.relayMessage n d).bits.length = 38 + (fieldsBits d.fields).length ∧
    49 ≤ (Message.relayMessage n d).bits.length ∧ (Message.relayMessage n d).bits.length ≤ 202) ∧
  (∀ d, 3 ≤ bytesFor (Message.message d).bits.length ∧ bytesFor (Message.message d).bits.length ≤ 22) ∧
  (∀ n d, 7 ≤ bytesFor (Message.relayMessage n d).bits.length ∧ bytesFor (Message.relayMessage n d).bits.length ≤ 26) ∧
  (∀ n, (Message.searchingNetwork n).bits.length = 38 ∧ bytesFor (Message.searchingNetwork n).bits.length = 5) ∧
  (∀ n a, (Message.network n a).bits.length = 54 ∧ bytesFor (Message.network n a).bits.length = 7) ∧
  (∀ n b, (Message.debugMessage n b).bits.length = 198 ∧ bytesFor (Message.debugMessage n b).bits.length = 25) ∧
  (∀ m : Message, bytesFor m.bits.length ≤ Config.maxMessageBytes) ∧
  ((∃ m : Message, m.bits.length = 202) ∧ (∃ m : Message, m.bits.length = 17) ∧
    ∃ d, (Message.message d).bits.length = 170)

/-! ## The message commands -/

/-- spec/43_message_envelope.md R340: MSG_ENCODE, whole. The three pre-checks in order; a Message that fits: WBUF[0 .. Count()-1]
takes its bits, zero-padded, the cursor stands after them, CV is set where the Message is not canonical; a Message that does
not fit: the fields before the failing one are written and the cursor stands there. Every other byte is as before. That a
Response id Some(0) sets CV even where its own write is the one that overflows (`f.violation`) is the model's inference, not a
sentence of R340 (notes/assumptions/17.md). -/
def Obligations.MsgEncode : Prop :=
  ∀ (n : BitVec 6) (s : State), s.Inv →
    (s.mode ≠ .idle → exec (.msgEncode n) s = .next (failed .illegalSequence s)) ∧
    (s.mode = .idle → s.msgIn = none → exec (.msgEncode n) s = .next (failed .illegalSequence s)) ∧
    ∀ m, s.mode = .idle → s.msgIn = some m →
      (32 < n.toNat → exec (.msgEncode n) s = .next (failed .illegalLimit s)) ∧
      (n.toNat ≤ 32 → m.bits.length ≤ 8 * n.toNat → ∃ mem, StoredAt s.mem mem 0x20 (packBits m.bits) ∧
        exec (.msgEncode n) s = .next
          { s with mem := mem, limit := n.toNat, bytePos := m.bits.length / 8, bitPos := m.bits.length % 8,
                   cv := s.cv || decide (¬ m.Canonical), result := BitVec.ofNat 32 (bytesFor m.bits.length),
                   err := none }) ∧
      (n.toNat ≤ 32 → 8 * n.toNat < m.bits.length →
        ∃ gs f rest mem, m.fields = gs ++ f :: rest ∧
          fieldsWidth gs ≤ 8 * n.toNat ∧ 8 * n.toNat < fieldsWidth gs + f.width ∧
          StoredAt s.mem mem 0x20 (packBits (fieldsBits gs)) ∧
          exec (.msgEncode n) s = .next
            { s with mem := mem, limit := n.toNat, bytePos := fieldsWidth gs / 8, bitPos := fieldsWidth gs % 8,
                     cv := s.cv || (gs.any Field.violates || f.violation), result := 0,
                     err := some .bufferOverflow })

/-- spec/43_message_envelope.md R341: MSG_DECODE, whole. The two pre-checks, each with MSG_OUT <- None; the slice that begins
with the bits of a canonical Message, whatever follows; any other slice, which ends in one of the decode errors, the first
the decoder meets (dec_Message, R329). -/
def Obligations.MsgDecode : Prop :=
  ∀ (n : BitVec 6) (s : State), s.Inv →
    (s.mode ≠ .idle → exec (.msgDecode n) s = .next { failed .illegalSequence s with msgOut := none }) ∧
    (s.mode = .idle → 32 < n.toNat →
      exec (.msgDecode n) s = .next { failed .illegalLimit s with msgOut := none }) ∧
    (s.mode = .idle → n.toNat ≤ 32 →
      (∀ (m : Message) (more : Bits), m.Canonical → s.bitsFrom 0 (8 * n.toNat) = m.bits ++ more →
        exec (.msgDecode n) s = .next
          { s with limit := n.toNat, bytePos := m.bits.length / 8, bitPos := m.bits.length % 8, msgOut := some m,
                   result := BitVec.ofNat 32 (bytesFor m.bits.length), err := none }) ∧
      ((¬ ∃ (m : Message) (more : Bits), m.Canonical ∧ s.bitsFrom 0 (8 * n.toNat) = m.bits ++ more) →
        ∃ e p rest, e ∈ decodeErrors ∧ decMessage (s.bitsFrom 0 (8 * n.toNat)) = .err e rest ∧
          p + rest.length = 8 * n.toNat ∧
          exec (.msgDecode n) s = .next
            { s with limit := n.toNat, bytePos := p / 8, bitPos := p % 8, msgOut := none, result := 0,
                     err := some e }))

/-- spec/43_message_envelope.md R342: a decode leaves MSG_OUT a complete Message, all of whose bits it has read, or None with an
error; and what it does depends on no bit at or after the cursor it leaves. The second part is said of WBUF for MSG_DECODE
and of the frame's data for UNFRAME_MSG. -/
def Obligations.DecodeStopsAtFirstFailure : Prop :=
  (∀ (i : Instr) (s t : State), ((∃ n, i = .msgDecode n) ∨ i = .unframeMsg) → s.Inv → exec i s = .next t →
    (t.err = none ∧ ∃ m, t.msgOut = some m ∧ m.bits = t.bitsFrom 0 t.cursor) ∨
      (t.err ≠ none ∧ t.msgOut = none)) ∧
  (∀ (n : BitVec 6) (s t : State) (m : List Host.Cell), s.Inv → Memory.wf m = true → s.mode = .idle →
    n.toNat ≤ 32 → exec (.msgDecode n) s = .next t →
    (∀ p, p < t.cursor → ({ s with mem := m } : State).streamBit p = s.streamBit p) →
    exec (.msgDecode n) { s with mem := m } = .next { t with mem := m }) ∧
  ∀ (s t : State) (m : List Host.Cell), s.Inv → Memory.wf m = true → s.mode = .idle → s.plValid = true →
    exec .unframeMsg s = .next t → Memory.read m 0x41 = s.payload 1 →
    (∀ p, p < t.cursor → (Memory.read m (0x40 + s.plHeader + p / 8)).getLsbD (7 - p % 8) =
      (s.payload (s.plHeader + p / 8)).getLsbD (7 - p % 8)) →
    ∃ m', exec .unframeMsg { s with mem := m } = .next { t with mem := m' }

/-- spec/60_exceptions.md R381, the column "recorded besides ERR", for MSG_DECODE in IDLE with a slice in range: where each
decode error leaves the cursor, and the code it found there. The bits before the cursor are always whole fields of some
Message: an underflow stands at the field that does not fit, with none of it read, and the other errors right after the code
they name. -/
def Obligations.DecodeErrorsRecordCursor : Prop :=
  ∀ (n : BitVec 6) (s t : State), s.Inv → s.mode = .idle → n.toNat ≤ 32 → exec (.msgDecode n) s = .next t →
    t.cursor ≤ 8 * n.toNat ∧
    (t.err = some .versionMismatch → t.cursor = 2 ∧ natOf (t.bitsFrom 0 2) ≠ 1) ∧
    (t.err = some .invalidMessage → t.cursor = 6 ∧ natOf (t.bitsFrom 0 2) = 1 ∧ 4 < natOf (t.bitsFrom 2 4)) ∧
    (t.err = some .invalidCommand → 4 ≤ t.cursor ∧ 4 < natOf (t.bitsFrom (t.cursor - 4) 4)) ∧
    (t.err = some .invalidResponse → 4 ≤ t.cursor ∧ 3 < natOf (t.bitsFrom (t.cursor - 4) 4) ∧
      natOf (t.bitsFrom (t.cursor - 4) 4) ≠ 8 ∧ natOf (t.bitsFrom (t.cursor - 4) 4) ≠ 9) ∧
    (t.err = some .invalidSensor → 4 ≤ t.cursor ∧ 2 < natOf (t.bitsFrom (t.cursor - 4) 4)) ∧
    (t.err = some .invalidActuator → 4 ≤ t.cursor ∧ 0 < natOf (t.bitsFrom (t.cursor - 4) 4)) ∧
    (∀ e ∈ t.err, e ∈ [Error.invalidCommand, .invalidResponse, .invalidSensor, .invalidActuator] →
      ∃ (m : Message) (gs : List Field) (f : Field) (more : List Field), m.fields = gs ++ f :: more ∧ f.width = 4 ∧
        fieldsWidth gs + 4 = t.cursor ∧ fieldsBits gs = t.bitsFrom 0 (t.cursor - 4)) ∧
    (t.err = some .bufferUnderflow →
      ∃ (m : Message) (gs : List Field) (f : Field) (more : List Field), m.fields = gs ++ f :: more ∧
        fieldsWidth gs = t.cursor ∧ fieldsBits gs = t.bitsFrom 0 t.cursor ∧ 8 * n.toNat < t.cursor + f.width) ∧
    (t.err = some .bufferUnderflow → 8 * n.toNat < t.cursor + 32)

/-- spec/43_message_envelope.md R336: the version gate. A slice whose first two bits are not 01, which is a byte 0 below 0x40 or
from 0x80 up, raises VersionMismatch after exactly those two bits, whatever follows; an empty slice raises
BufferUnderflow. -/
def Obligations.VersionGate : Prop :=
  ∀ (n : BitVec 6) (s : State), s.Inv → s.mode = .idle →
    (n.toNat = 0 → exec (.msgDecode n) s = .next
      { s with limit := 0, bytePos := 0, bitPos := 0, msgOut := none, result := 0, err := some .bufferUnderflow }) ∧
    (0 < n.toNat → n.toNat ≤ 32 → ((s.wbuf 0).toNat < 0x40 ∨ 0x80 ≤ (s.wbuf 0).toNat) →
      exec (.msgDecode n) s = .next
        { s with limit := n.toNat, bytePos := 0, bitPos := 2, msgOut := none, result := 0,
                 err := some .versionMismatch })

/-- spec/43_message_envelope.md R335: byte 0 from 0x54 to 0x7F, that is version 1 and a code 5 .. 15, raises InvalidMessage right
after the code. -/
def Obligations.ReservedMessageCode : Prop :=
  ∀ (n : BitVec 6) (s : State), s.Inv → s.mode = .idle → 0 < n.toNat → n.toNat ≤ 32 →
    0x54 ≤ (s.wbuf 0).toNat → (s.wbuf 0).toNat < 0x80 →
    exec (.msgDecode n) s = .next
      { s with limit := n.toNat, bytePos := 0, bitPos := 6, msgOut := none, result := 0, err := some .invalidMessage }

/-- spec/43_message_envelope.md R343: FRAME_MSG, whole. The two pre-checks; then, for every Message, the encoding in WBUF, the
frame of it in PAYLOAD with the address of ARG0[15:0] where A = 1, RESULT the packet length. BufferOverflow is never
raised. -/
def Obligations.FrameMsg : Prop :=
  ∀ (a : Bool) (pipe : Byte) (s : State), s.Inv →
    (s.mode ≠ .idle → exec (.frameMsg a pipe) s = .next (failed .illegalSequence s)) ∧
    (s.mode = .idle → s.msgIn = none → exec (.frameMsg a pipe) s = .next (failed .illegalSequence s)) ∧
    ∀ m, s.mode = .idle → s.msgIn = some m →
      ∃ mem mem', StoredAt s.mem mem 0x20 (packBits m.bits) ∧
        StoredAt mem mem' 0x40
          ((if a then [pipe, BitVec.ofNat 8 (0x80 + bytesFor m.bits.length), s.arg0.extractLsb' 0 8,
              s.arg0.extractLsb' 8 8] else [pipe, BitVec.ofNat 8 (bytesFor m.bits.length)]) ++ packBits m.bits ++
            List.replicate ((if a then 28 else 30) - bytesFor m.bits.length) 0) ∧
        bytesFor m.bits.length ≤ 26 ∧
        exec (.frameMsg a pipe) s = .next
          { s with mem := mem', limit := if a then 28 else 30, bytePos := m.bits.length / 8,
                   bitPos := m.bits.length % 8, cv := s.cv || decide (¬ m.Canonical),
                   result := BitVec.ofNat 32 ((if a then 4 else 2) + bytesFor m.bits.length), err := none }

/-- spec/43_message_envelope.md R344: UNFRAME_MSG, whole. The two checks, each with MSG_OUT <- None; then the data of the frame
in WBUF[0 .. len()-1], and the outcome of a MSG_DECODE of len() bytes there. -/
def Obligations.UnframeMsg : Prop :=
  ∀ s : State, s.Inv →
    (s.mode ≠ .idle → exec .unframeMsg s = .next { failed .illegalSequence s with msgOut := none }) ∧
    (s.mode = .idle → s.plValid = false →
      exec .unframeMsg s = .next { failed .invalidLength s with msgOut := none }) ∧
    (s.mode = .idle → s.plValid = true →
      ∃ mem t, StoredAt s.mem mem 0x20 (s.payloadBytes s.plHeader s.plLen) ∧
        exec .unframeMsg s = .next t ∧ exec (.msgDecode (BitVec.ofNat 6 s.plLen)) { s with mem := mem } = .next t ∧
        t.limit = s.plLen ∧ t.mem = mem)

/-- spec/43_message_envelope.md R345: canon, field by field; the canonical values are exactly those MSG_DECODE can produce; and
encoding one sets no CV. -/
def Obligations.CanonicalValues : Prop :=
  ((∀ i : Byte, (canonLimbId i).toNat = i.toNat % 16) ∧ (∀ i : Byte, (canonCommandId i).toNat = i.toNat % 64) ∧
    canonResponseId none = none ∧
    ∀ v : Byte, (v.toNat % 64 = 0 → canonResponseId (some v) = none) ∧
      (v.toNat % 64 ≠ 0 → canonResponseId (some v) = some (BitVec.ofNat 8 (v.toNat % 64)))) ∧
  ((∀ d, (Message.message d).canon = .message d.canon) ∧
    (∀ n d, (Message.relayMessage n d).canon = .relayMessage n d.canon) ∧
    (∀ n, (Message.searchingNetwork n).canon = .searchingNetwork n) ∧
    (∀ n a, (Message.network n a).canon = .network n a) ∧
    (∀ n b, (Message.debugMessage n b).canon = .debugMessage n b) ∧
    (∀ i c, (MessageData.command i c).canon = .command (canonCommandId i) c.canon) ∧
    (∀ i r, (MessageData.response i r).canon = .response (canonResponseId i) r.canon) ∧
    (∀ l : Limb, l.canon = ⟨canonLimbId l.id, l.kind⟩) ∧
    (∀ l, (Command.setLimb l).canon = .setLimb l.canon) ∧
    (∀ i, (Command.toggleLimb i).canon = .toggleLimb (canonLimbId i)) ∧
    (∀ c : Command, (∀ l, c ≠ .setLimb l) → (∀ i, c ≠ .toggleLimb i) → c.canon = c) ∧
    (∀ x y z, (Response.limbs x y z).canon = .limbs (x.map Limb.canon) (y.map Limb.canon) (z.map Limb.canon)) ∧
    ∀ r : Response, (∀ x y z, r ≠ .limbs x y z) → r.canon = r) ∧
  (∀ m : Message, m.canon.Canonical) ∧
  (∀ (n : BitVec 6) (s t : State) (m : Message), s.Inv → s.mode = .idle → exec (.msgDecode n) s = .next t →
    t.msgOut = some m → m.Canonical) ∧
  (∀ m : Message, m.Canonical → ∃ s t, s.Inv ∧ s.mode = .idle ∧ exec (.msgDecode 32) s = .next t ∧
    t.msgOut = some m) ∧
  ∀ (n : BitVec 6) (s t : State) (m : Message), s.msgIn = some m → m.Canonical →
    exec (.msgEncode n) s = .next t → t.cv = s.cv

/-- spec/43_message_envelope.md R346: the round trip. After a MSG_ENCODE n=32 that succeeds with k bytes, MSG_DECODE of any
length from k to 32 gives canon(m) with RESULT k, which is m itself for a canonical m; for any other m, CV = 1. -/
def Obligations.MessageRoundTrip : Prop :=
  ∀ (m : Message) (s t : State), s.Inv → s.msgIn = some m → exec (.msgEncode 32) s = .next t → t.err = none →
    (m.Canonical ∨ t.cv = true) ∧ t.result.toNat ≤ 32 ∧
    ∀ n : BitVec 6, t.result.toNat ≤ n.toNat → n.toNat ≤ 32 →
      ∃ u, exec (.msgDecode n) t = .next u ∧ u.err = none ∧ u.msgOut = some m.canon ∧ u.result = t.result ∧
        (m.Canonical → u.msgOut = some m)

/-- spec/43_message_envelope.md R343, R344 and R346 together: what one block frames, a block whose PAYLOAD holds the same frame
(its other registers and WBUF anything) unframes to the canonical value, with the byte count of the encoding. -/
def Obligations.FrameThenUnframe : Prop :=
  ∀ (a : Bool) (pipe : Byte) (m : Message) (s t r : State), s.Inv → r.Inv → s.mode = .idle → r.mode = .idle →
    s.msgIn = some m → exec (.frameMsg a pipe) s = .next t → (∀ i, i < 32 → r.payload i = t.payload i) →
    ∃ u, exec .unframeMsg r = .next u ∧ u.err = none ∧ u.msgOut = some m.canon ∧
      u.result = BitVec.ofNat 32 (bytesFor m.bits.length) ∧ u.cv = r.cv

/-! ## Rows by themselves -/

/-- Every wire row that is not a reserved one, run by its encoder (the rules of spec/42_message_types.md R250 to R267 and
spec/43_message_envelope.md R302 to R334, "Encoder"): where it fits, its bits go out at the cursor and CV is set exactly where
a field does not hold its value; where it does not fit, the fields before the failing one go out and BufferOverflow is
raised. That a row runs by itself, and leaves ERR and RESULT to the command it is part of where it goes through, is the
model's choice (notes/assumptions/5.md). That a Response id Some(0) sets CV even where its own write overflows
(`f.violation`) is the model's inference (notes/assumptions/17.md). Every constructor of WireValue.row is meant. -/
def Obligations.RowEncodes : Prop :=
  ∀ (v : WireValue) (s : State), s.Inv →
    (s.cursor + fieldsWidth v.fields ≤ 8 * s.limit → ∃ m, Memory.wf m = true ∧
      exec (v.row .enc) s = .next
        { s with mem := m, bytePos := (s.cursor + fieldsWidth v.fields) / 8,
                 bitPos := (s.cursor + fieldsWidth v.fields) % 8, cv := s.cv || decide (v.canon ≠ v) } ∧
      (∀ p, ({ s with mem := m } : State).streamBit p = writtenBit s (fieldsBits v.fields) p) ∧
      ∀ a, ¬ (0x20 + s.cursor / 8 ≤ a ∧ a < 0x20 + bytesFor (s.cursor + fieldsWidth v.fields)) →
        Memory.read m a = s.byte a) ∧
    (8 * s.limit < s.cursor + fieldsWidth v.fields → ∃ gs f rest m, v.fields = gs ++ f :: rest ∧
      s.cursor + fieldsWidth gs ≤ 8 * s.limit ∧ 8 * s.limit < s.cursor + fieldsWidth gs + f.width ∧
      Memory.wf m = true ∧
      exec (v.row .enc) s = .next
        { s with mem := m, bytePos := (s.cursor + fieldsWidth gs) / 8, bitPos := (s.cursor + fieldsWidth gs) % 8,
                 cv := s.cv || (gs.any Field.violates || f.violation), result := 0, err := some .bufferOverflow } ∧
      ∀ p, ({ s with mem := m } : State).streamBit p = writtenBit s (fieldsBits gs) p)

/-- Every wire row that is not a reserved one, run by its decoder (the same rules, "Decoder", and spec/40_bit_codec.md R162):
where the slice holds all its bits, the cursor passes them and nothing else changes; where it ends inside the row,
BufferUnderflow, with the cursor at the failing field and MSG_OUT = None. A row by itself is the model's choice
(notes/assumptions/5.md). Every constructor of WireValue.row is meant. -/
def Obligations.RowDecodes : Prop :=
  ∀ (v : WireValue) (s : State), s.Inv →
    (s.cursor + fieldsWidth v.fields ≤ 8 * s.limit →
      exec (v.row .dec) s = .next
        { s with bytePos := (s.cursor + fieldsWidth v.fields) / 8,
                 bitPos := (s.cursor + fieldsWidth v.fields) % 8 }) ∧
    (8 * s.limit < s.cursor + fieldsWidth v.fields → ∃ gs f rest, v.fields = gs ++ f :: rest ∧
      s.cursor + fieldsWidth gs ≤ 8 * s.limit ∧ 8 * s.limit < s.cursor + fieldsWidth gs + f.width ∧
      exec (v.row .dec) s = .next
        { s with bytePos := (s.cursor + fieldsWidth gs) / 8, bitPos := (s.cursor + fieldsWidth gs) % 8,
                 msgOut := none, result := 0, err := some .bufferUnderflow })

/-- spec/30_encoding.md R130: each reserved row raises its error as soon as its code is read, the cursor just after the code
(spec/42_message_types.md R255 and R258, spec/43_message_envelope.md R307, R317, R335 and R336); a slice that ends inside the
code raises BufferUnderflow at the read that fails (spec/40_bit_codec.md R162, spec/60_exceptions.md R381 and R385, 6): for a
Message code, after the version where that fits. That a reserved row runs by itself, at whatever cursor is open, is the
model's choice (notes/assumptions/5.md). -/
def Obligations.ReservedRows : Prop :=
  ∀ s : State, s.Inv →
    (∀ (k : BitVec 4) (i : Instr) (e : Error),
      (i, e) ∈ [(Instr.sensorReserved k, Error.invalidSensor), (.actuatorReserved k, .invalidActuator),
        (.commandReserved k, .invalidCommand), (.responseReserved k, .invalidResponse)] → i.wf = true →
      (s.cursor + 4 ≤ 8 * s.limit → exec i s = .next
        { s with bytePos := (s.cursor + 4) / 8, bitPos := (s.cursor + 4) % 8, msgOut := none, result := 0,
                 err := some e }) ∧
      (8 * s.limit < s.cursor + 4 → exec i s = .next { failed .bufferUnderflow s with msgOut := none })) ∧
    (∀ v : BitVec 2, (Instr.messageReserved (.version v)).wf = true →
      (s.cursor + 2 ≤ 8 * s.limit → exec (.messageReserved (.version v)) s = .next
        { s with bytePos := (s.cursor + 2) / 8, bitPos := (s.cursor + 2) % 8, msgOut := none, result := 0,
                 err := some .versionMismatch }) ∧
      (8 * s.limit < s.cursor + 2 →
        exec (.messageReserved (.version v)) s = .next { failed .bufferUnderflow s with msgOut := none })) ∧
    ∀ k : BitVec 4, (Instr.messageReserved (.code k)).wf = true →
      (s.cursor + 6 ≤ 8 * s.limit → exec (.messageReserved (.code k)) s = .next
        { s with bytePos := (s.cursor + 6) / 8, bitPos := (s.cursor + 6) % 8, msgOut := none, result := 0,
                 err := some .invalidMessage }) ∧
      (s.cursor + 2 ≤ 8 * s.limit → 8 * s.limit < s.cursor + 6 → exec (.messageReserved (.code k)) s = .next
        { s with bytePos := (s.cursor + 2) / 8, bitPos := (s.cursor + 2) % 8, msgOut := none, result := 0,
                 err := some .bufferUnderflow }) ∧
      (8 * s.limit < s.cursor + 2 →
        exec (.messageReserved (.code k)) s = .next { failed .bufferUnderflow s with msgOut := none })

/-- The two frame layouts of spec/30_encoding.md R110 by themselves, for every length of data. `enc` puts the header, the data
and zeros into PAYLOAD (spec/41_payload_framer.md R200, R201) or raises PayloadTooLong; `dec` copies the data() view into WBUF
(R215) or raises InvalidLength. That a layout runs by itself is the model's choice (notes/assumptions/5.md). -/
def Obligations.FrameRows : Prop :=
  ∀ (f : Frame) (s : State), Memory.wf s.mem = true →
    (f.data.length ≤ 32 - headerLength f.address → ∃ m,
      StoredAt s.mem m 0x40
        ((match f.address with
          | some a => [f.pipe, BitVec.ofNat 8 (0x80 + f.data.length), a.extractLsb' 0 8, a.extractLsb' 8 8]
          | none => [f.pipe, BitVec.ofNat 8 f.data.length]) ++ f.data ++
          List.replicate (32 - headerLength f.address - f.data.length) 0) ∧
      exec (f.row .enc) s = .next { s with mem := m }) ∧
    (32 - headerLength f.address < f.data.length → exec (f.row .enc) s = .next (failed .payloadTooLong s)) ∧
    (f.data ≠ [] → f.data.length ≤ 32 - headerLength f.address → ∃ m,
      StoredAt s.mem m 0x20 (s.payloadBytes (headerLength f.address) f.data.length) ∧
      exec (f.row .dec) s = .next { s with mem := m }) ∧
    ((f.data = [] ∨ 32 - headerLength f.address < f.data.length) →
      exec (f.row .dec) s = .next (failed .invalidLength s))

/-! ## Control, status and the whole machine -/

/-- spec/44_control.md R370: NOP, in every state. -/
def Obligations.NopReportsSuccess : Prop := ∀ s : State, exec .nop s = .next { s with result := 0, err := none }

/-- spec/44_control.md R371: CLEAR_STATUS, in every state, and the STATUS it leaves. -/
def Obligations.ClearStatusClears : Prop :=
  ∀ s : State,
    exec .clearStatus s = .next
      { s with mode := .idle, bytePos := 0, bitPos := 0, limit := 0, cv := false, msgIn := none, msgOut := none,
               result := 0, err := none } ∧
    ({ s with mode := .idle, bytePos := 0, bitPos := 0, limit := 0, cv := false, msgIn := none, msgOut := none,
              result := 0, err := none } : State).status = 0

/-- What no command changes, over all of them: ARG0 (spec/10_state.md R35), FILTER (R42), and the host agent's side. And every
command ends in a next state (spec/60_exceptions.md R380). -/
def Obligations.CommandFrame : Prop :=
  ∀ (i : Instr) (s : State), isCommand i = true → ∃ t, exec i s = .next t ∧
    t.arg0 = s.arg0 ∧ t.filters = s.filters ∧ t.pending = s.pending ∧ t.hostRead = s.hostRead ∧
    t.hostTaken = s.hostTaken ∧ t.busError = s.busError

/-- spec/10_state.md R37: only CLEAR_STATUS and reset lower CV, over every step; and the commands that write no field leave it
alone. -/
def Obligations.CvSticky : Prop :=
  (∀ s t : State, step s = .next t → s.cv = true → t.cv = false →
    (∃ wbuf payload rest, s.pending = .reset wbuf payload :: rest) ∨
      ∃ w rest, s.pending = .write 0 .w32 w :: rest ∧ decodeCommand w = some .clearStatus) ∧
  ∀ (i : Instr) (s t : State), isCommand i = true → exec i s = .next t → t.cv ≠ s.cv →
    (∃ n, i = .bwWrite n) ∨ (∃ n, i = .msgEncode n) ∨ (∃ a pipe, i = .frameMsg a pipe) ∨ i = .clearStatus

/-- spec/10_state.md R39: what changes MODE, over every step, and from which mode to which; and the composite commands outside
IDLE, which leave it as it is. The value 3 is no mode. -/
def Obligations.ModeChangers : Prop :=
  (∀ s t : State, step s = .next t → t.mode ≠ s.mode →
    ((∃ wbuf payload rest, s.pending = .reset wbuf payload :: rest) ∧ t.mode = .idle) ∨
    ∃ w rest, s.pending = .write 0 .w32 w :: rest ∧
      (((∃ n, decodeCommand w = some (.bwBegin n)) ∧ s.mode = .idle ∧ t.mode = .write) ∨
        (decodeCommand w = some .bwFinalize ∧ s.mode = .write ∧ t.mode = .idle) ∨
        ((∃ n, decodeCommand w = some (.brBegin n)) ∧ s.mode = .idle ∧ t.mode = .read) ∨
        (decodeCommand w = some .brEnd ∧ s.mode = .read ∧ t.mode = .idle) ∨
        (decodeCommand w = some .clearStatus ∧ t.mode = .idle))) ∧
  (∀ (i : Instr) (s t : State),
    ((∃ n, i = .msgEncode n) ∨ (∃ n, i = .msgDecode n) ∨ (∃ a pipe, i = .frameMsg a pipe) ∨ i = .unframeMsg) →
    exec i s = .next t → t.mode = s.mode ∧ (s.mode ≠ .idle → t.err = some .illegalSequence)) ∧
  ∀ m : Mode, modeField m < 3

/-- spec/70_reset_and_hazards.md R426, with the slice bound of spec/20_memory.md R70: the commands that write WBUF, those that
write PAYLOAD, and the bytes past LIMIT that no writer session touches. -/
def Obligations.BufferWriters : Prop :=
  ∀ (i : Instr) (s t : State), isCommand i = true → s.Inv → exec i s = .next t →
    (¬ ((∃ n, i = .bwWrite n) ∨ (∃ n, i = .msgEncode n) ∨ (∃ a pipe, i = .frameMsg a pipe) ∨ i = .plData ∨
        i = .unframeMsg) → ∀ k, k < 32 → t.wbuf k = s.wbuf k) ∧
    (¬ ((∃ n pipe, i = .plNew n pipe) ∨ (∃ n pipe, i = .plNewWithAddr n pipe) ∨ ∃ a pipe, i = .frameMsg a pipe) →
      ∀ k, k < 32 → t.payload k = s.payload k) ∧
    (i ≠ .plData → ∀ k, t.limit ≤ k → k < 32 → t.wbuf k = s.wbuf k)

/-- spec/10_state.md R45, R38 and R41: no command reads RESULT, ERR or CV; each writes RESULT and ERR, so what stood there is
gone; and a command that ends with an error leaves RESULT 0. -/
def Obligations.NoConditionCodes : Prop :=
  ∀ (i : Instr) (s : State), isCommand i = true →
    (∀ (r : Word) (e : Option Error), exec i { s with result := r, err := e } = exec i s) ∧
    ∀ t, exec i s = .next t → (t.err ≠ none → t.result = 0) ∧
      ∀ c : Bool, ∃ c', exec i { s with cv := c } = .next { t with cv := c' }

/-- spec/10_state.md R40: PutMsg and TakeMsg; what commands do to the two ports; reset clears both. -/
def Obligations.Ports : Prop :=
  (∀ (m : Message) (s : State) (rest : List Action),
    step { s with pending := .putMsg m :: rest } = .next { s with pending := rest, msgIn := some m }) ∧
  (∀ (s : State) (rest : List Action),
    step { s with pending := .takeMsg :: rest } = .next { s with pending := rest, hostTaken := s.msgOut }) ∧
  (∀ (i : Instr) (s t : State), isCommand i = true → i ≠ .clearStatus → exec i s = .next t →
    t.msgIn = s.msgIn ∧
    (decodes i = false → t.msgOut = s.msgOut) ∧
    (decodes i = true → (t.err = none → t.msgOut.isSome = true) ∧ (t.err ≠ none → t.msgOut = none))) ∧
  (∀ s t : State, exec .clearStatus s = .next t → t.msgIn = none ∧ t.msgOut = none) ∧
  ∀ (wbuf payload : Vector Byte 32) (s t : State) (rest : List Action),
    step { s with pending := .reset wbuf payload :: rest } = .next t → t.msgIn = none ∧ t.msgOut = none

/-- spec/60_exceptions.md R385, with the operand ranges of spec/30_encoding.md R103: over all commands, the first check that fails
is the one reported, and it changes nothing but ERR and RESULT, and MSG_OUT for the decoding commands; where none fails, the
command ends with no error or with an error of execution. The word check comes before all of them; and a version or variant
code that cannot be read in full is an underflow, for the rows by themselves and for the decoders the commands run, the
Message code after version 01 included. -/
def Obligations.PreCheckOrder : Prop :=
  (∀ (w : Word) (s : State) (rest : List Action), decodeCommand w = none →
    step { s with pending := .write 0 .w32 w :: rest } =
      .next (failed .illegalCommand { s with pending := rest })) ∧
  (∀ (i : Instr) (s : State), isCommand i = true → s.Inv →
    (∀ m ∈ neededMode i, s.mode ≠ m → exec i s = .next (precheckFailed i .illegalSequence s)) ∧
    ((∀ m ∈ neededMode i, s.mode = m) →
      (needsMessage i = true → s.msgIn = none → exec i s = .next (precheckFailed i .illegalSequence s)) ∧
      ((needsMessage i = true → s.msgIn.isSome = true) →
        (∀ e ∈ operandError i, exec i s = .next (precheckFailed i e s)) ∧
        (operandError i = none →
          (needsValidFrame i = true → s.plValid = false → exec i s = .next (precheckFailed i .invalidLength s)) ∧
          ((needsValidFrame i = true → s.plValid = true) →
            ∃ t, exec i s = .next t ∧ ∀ e ∈ t.err, e ∈ executionErrors))))) ∧
  (∀ (d : WireType) (k : Nat) (bs : Bits),
    (d, k) ∈ [(WireType.board, 2), (.message, 2), (.sensor, 4), (.actuator, 4), (.command, 4), (.response, 4)] →
    bs.length < k → decRow .dec d bs = .err .bufferUnderflow bs) ∧
  (∀ bs : Bits, bs.length < 2 → decBoard bs = .err .bufferUnderflow bs ∧ decMessage bs = .err .bufferUnderflow bs) ∧
  ∀ bs : Bits, bs.length < 4 →
    decSensor bs = .err .bufferUnderflow bs ∧ decActuator bs = .err .bufferUnderflow bs ∧
    decCommand bs = .err .bufferUnderflow bs ∧ decResponse bs = .err .bufferUnderflow bs ∧
    decRow .dec .message ([false, true] ++ bs) = .err .bufferUnderflow bs ∧
    decMessage ([false, true] ++ bs) = .err .bufferUnderflow bs

/-- spec/60_exceptions.md R382, and of the table R381 the columns ERR, name and raised by: the number of every error (which
StatusLayout puts into STATUS), the errors each command can raise, and InvalidBoard, which none does. R381's causes stand in
PreCheckOrder and in the statements of the commands, and where an error leaves the cursor in DecodeErrorsRecordCursor. -/
def Obligations.ErrorsPerCommand : Prop :=
  (∀ (i : Instr) (s t : State), isCommand i = true → exec i s = .next t → ∀ e ∈ t.err, e ∈ mayRaise i) ∧
  (∀ (i : Instr) (s t : State), exec i s = .next t → t.err = some .invalidBoard → s.err = some .invalidBoard) ∧
  (∀ i : Instr, Error.invalidBoard ∉ mayRaise i) ∧ errNumber .invalidBoard = 3 ∧
  (errField none = 0 ∧ (∀ e : Error, errField (some e) = errNumber e) ∧
    errNumber .bufferOverflow = 1 ∧ errNumber .bufferUnderflow = 2 ∧ errNumber .invalidSensor = 4 ∧
    errNumber .invalidActuator = 5 ∧ errNumber .invalidCommand = 6 ∧ errNumber .invalidResponse = 7 ∧
    errNumber .invalidMessage = 8 ∧ errNumber .versionMismatch = 9 ∧ errNumber .payloadTooLong = 10 ∧
    errNumber .invalidLength = 11 ∧ errNumber .illegalCommand = 12 ∧ errNumber .illegalWidth = 13 ∧
    errNumber .illegalSequence = 14 ∧ errNumber .illegalLimit = 15) ∧
  (∀ e : Error, 1 ≤ errNumber e ∧ errNumber e ≤ 15) ∧
  ∀ e e' : Error, errNumber e = errNumber e' → e = e'

/-- spec/10_state.md R36: STATUS field by field, in every state that meets the cursor's invariant; and its reset value. -/
def Obligations.StatusLayout : Prop :=
  State.reset.status = 0 ∧ ∀ s : State, s.Inv →
    (s.status.extractLsb' 0 8).toNat = errField s.err ∧ s.status.getLsbD 8 = s.cv ∧
    (s.status.extractLsb' 9 2).toNat = (match s.mode with | .idle => 0 | .write => 1 | .read => 2) ∧
    s.status.getLsbD 11 = false ∧ (s.status.extractLsb' 12 6).toNat = s.bytePos ∧
    (s.status.extractLsb' 18 3).toNat = s.bitPos ∧ (s.status.extractLsb' 21 6).toNat = s.limit ∧
    s.status.getLsbD 27 = s.msgOut.isSome ∧ s.status.getLsbD 28 = s.msgIn.isSome ∧
    s.status.extractLsb' 29 3 = 0

/-! ## The host's accesses -/

/-- The reads of spec/20_memory.md R76 over the map of spec/10_state.md R33, with R78: each changes what the host has read and
nothing else. Little-endian in the buffers; 0 at CMD and at the reserved offsets. -/
def Obligations.HostReads : Prop :=
  ∀ (s : State) (rest : List Action),
    (∀ (offset : Nat) (k : Width) (v : Word), isBusError offset k = false →
      ((offset = 0x00 ∧ v = 0) ∨ (offset = 0x04 ∧ v = s.arg0) ∨ (offset = 0x08 ∧ v = s.result) ∨
        (offset = 0x0C ∧ v = s.status) ∨ (offset = 0x10 ∧ v = s.filter1 ++ s.filter0) ∨
        (offset = 0x14 ∧ v = s.filter3 ++ s.filter2) ∨ (0x18 ≤ offset ∧ offset < 0x20 ∧ v = 0) ∨
        (0x60 ≤ offset ∧ offset < 0x80 ∧ v = 0)) →
      step { s with pending := .read offset k :: rest } = .next { s with pending := rest, hostRead := v }) ∧
    ∀ offset : Nat, 0x20 ≤ offset → offset < 0x60 →
      step { s with pending := .read offset .w8 :: rest } =
        .next { s with pending := rest, hostRead := BitVec.ofNat 32 (s.byte offset).toNat } ∧
      (offset % 2 = 0 → step { s with pending := .read offset .w16 :: rest } =
        .next { s with pending := rest,
                       hostRead := BitVec.ofNat 32 ((s.byte offset).toNat + 2 ^ 8 * (s.byte (offset + 1)).toNat) }) ∧
      (offset % 4 = 0 → step { s with pending := .read offset .w32 :: rest } =
        .next { s with pending := rest,
                       hostRead := BitVec.ofNat 32 ((s.byte offset).toNat + 2 ^ 8 * (s.byte (offset + 1)).toNat +
                         2 ^ 16 * (s.byte (offset + 2)).toNat + 2 ^ 24 * (s.byte (offset + 3)).toNat) })

/-- The writes of spec/20_memory.md R76 other than to CMD: a register takes all 32 bits, the read-only registers and the reserved
offsets ignore them, a buffer takes the bytes little-endian and every other byte is as before. ERR is not written
(spec/10_state.md R38). -/
def Obligations.HostWrites : Prop :=
  ∀ (s : State) (rest : List Action) (v : Word), Memory.wf s.mem = true →
    step { s with pending := .write 0x04 .w32 v :: rest } = .next { s with pending := rest, arg0 := v } ∧
    step { s with pending := .write 0x08 .w32 v :: rest } = .next { s with pending := rest } ∧
    step { s with pending := .write 0x0C .w32 v :: rest } = .next { s with pending := rest } ∧
    step { s with pending := .write 0x10 .w32 v :: rest } =
      .next { s with pending := rest, filter0 := v.extractLsb' 0 16, filter1 := v.extractLsb' 16 16 } ∧
    step { s with pending := .write 0x14 .w32 v :: rest } =
      .next { s with pending := rest, filter2 := v.extractLsb' 0 16, filter3 := v.extractLsb' 16 16 } ∧
    (∀ (offset : Nat) (k : Width), isBusError offset k = false →
      ((0x18 ≤ offset ∧ offset < 0x20) ∨ (0x60 ≤ offset ∧ offset < 0x80)) →
      step { s with pending := .write offset k v :: rest } = .next { s with pending := rest }) ∧
    ∀ (offset : Nat) (k : Width), isBusError offset k = false → 0x20 ≤ offset → offset < 0x60 →
      ∃ m, Memory.wf m = true ∧
        step { s with pending := .write offset k v :: rest } = .next { s with pending := rest, mem := m } ∧
        ∀ a, Memory.read m a =
          if offset ≤ a ∧ a < offset + k.bytes then v.extractLsb' (8 * (a - offset)) 8 else s.byte a

/-- spec/20_memory.md R77: exactly which accesses are bus errors; one changes no block state and runs no command; it is recorded
and, by every kind of step, never cleared. That a read that is a bus error leaves hostRead as it was is the model's choice
(notes/assumptions/1.md): R77 says not what such a read returns. -/
def Obligations.BusErrors : Prop :=
  (∀ (offset : Nat) (k : Width), isBusError offset k = true ↔
    (offset % k.bytes ≠ 0 ∨ (offset < 0x18 ∧ k ≠ .w32) ∨ 0x80 ≤ offset)) ∧
  (∀ (offset : Nat) (k : Width) (v : Word) (s : State) (rest : List Action), isBusError offset k = true →
    step { s with pending := .read offset k :: rest } = .next { s with pending := rest, busError := true } ∧
    step { s with pending := .write offset k v :: rest } = .next { s with pending := rest, busError := true }) ∧
  ∀ s t : State, step s = .next t → s.busError = true → t.busError = true
end

