-- ==== Sys2Proof/Laws/Bits.lean ====
section
/-! SUPPORT. The laws of bit strings: a field's bits and the value they hold, and reading a field back. -/

namespace Sys2Proof

@[simp] theorem bitsOf_length (v w : Nat) : (bitsOf v w).length = w := by
  induction w with
  | zero => rfl
  | succ w ih => simp [bitsOf, ih]

theorem bitsOf_getElem? (v w i : Nat) (h : i < w) : (bitsOf v w)[i]? = some (v.testBit (w - 1 - i)) := by
  induction w generalizing i with
  | zero => omega
  | succ w ih =>
    cases i with
    | zero => simp [bitsOf]
    | succ i =>
      simp only [bitsOf, List.getElem?_cons_succ]
      rw [ih i (by omega)]
      congr 2
      omega

theorem natOf_foldl (bs : Bits) (n : Nat) :
    bs.foldl (fun v b => 2 * v + b.toNat) n = n * 2 ^ bs.length + natOf bs := by
  induction bs generalizing n with
  | nil => simp [natOf]
  | cons b bs ih =>
    simp only [natOf, List.foldl_cons, List.length_cons] at ih ⊢
    rw [ih, ih (2 * 0 + b.toNat)]
    ring

@[simp] theorem natOf_nil : natOf [] = 0 := rfl

theorem natOf_cons (b : Bool) (bs : Bits) : natOf (b :: bs) = b.toNat * 2 ^ bs.length + natOf bs := by
  have := natOf_foldl bs (2 * 0 + b.toNat)
  simpa [natOf] using this

theorem natOf_lt (bs : Bits) : natOf bs < 2 ^ bs.length := by
  induction bs with
  | nil => simp
  | cons b bs ih =>
    rw [natOf_cons, List.length_cons, pow_succ]
    cases b <;> simp <;> omega

/-- A field of width w holds v mod 2^w (R152, R170). -/
@[simp] theorem natOf_bitsOf (v w : Nat) : natOf (bitsOf v w) = v % 2 ^ w := by
  induction w with
  | zero => simp [bitsOf, Nat.mod_one]
  | succ w ih =>
    rw [bitsOf, natOf_cons, ih, bitsOf_length, Nat.testBit_eq_decide_div_mod_eq, Nat.pow_succ, Nat.mod_mul]
    rcases Nat.mod_two_eq_zero_or_one (v / 2 ^ w) with h | h <;> (simp [h]; try omega)

theorem bitsOf_mod (v w k : Nat) (h : w ≤ k) : bitsOf (v % 2 ^ k) w = bitsOf v w := by
  induction w with
  | zero => rfl
  | succ w ih =>
    simp only [bitsOf]
    rw [ih (by omega), Nat.testBit_mod_two_pow]
    simp [show w < k by omega]

/-- Reading a field of width w from the front of a bit string that begins with the field of v. -/
@[simp] theorem readBits_bitsOf (v w : Nat) (rest : Bits) :
    readBits w (bitsOf v w ++ rest) = .ok (v % 2 ^ w) rest := by
  unfold readBits
  rw [if_neg (by simp)]
  congr 1
  · rw [List.take_append_of_le_length (by simp), List.take_of_length_le (by simp), natOf_bitsOf]
  · rw [List.drop_append_of_le_length (by simp), List.drop_of_length_le (by simp), List.nil_append]

/-- R171: a read fails exactly when too few bits remain. -/
theorem readBits_short {w : Nat} {bs : Bits} (h : bs.length < w) :
    readBits w bs = .err .bufferUnderflow bs := by
  unfold readBits; rw [if_pos h]

theorem readBits_ok {w : Nat} {bs : Bits} (h : w ≤ bs.length) :
    readBits w bs = .ok (natOf (bs.take w)) (bs.drop w) := by
  unfold readBits; rw [if_neg (by omega)]

/-- What BitRead can answer. -/
theorem readBits_cases {w : Nat} {bs : Bits} :
    (∃ v rest, readBits w bs = .ok v rest ∧ v < 2 ^ w ∧ bs = bitsOf v w ++ rest) ∨
      (readBits w bs = .err .bufferUnderflow bs ∧ bs.length < w) := by
  by_cases h : bs.length < w
  · exact .inr ⟨readBits_short h, h⟩
  · refine .inl ⟨natOf (bs.take w), bs.drop w, readBits_ok (by omega), ?_, ?_⟩
    · have := natOf_lt (bs.take w)
      rwa [List.length_take, Nat.min_eq_left (by omega)] at this
    · have key : ∀ cs : Bits, bitsOf (natOf cs) cs.length = cs := by
        intro cs
        induction cs with
        | nil => rfl
        | cons c cs ih =>
          rw [List.length_cons, bitsOf]
          congr 1
          · rw [natOf_cons, Nat.mul_comm, Nat.testBit_two_pow_mul_add _ (natOf_lt cs)]
            simp
            cases c <;> rfl
          · rw [← bitsOf_mod _ _ cs.length (le_refl _), natOf_cons, Nat.mul_add_mod_self_right,
              Nat.mod_eq_of_lt (natOf_lt cs), ih]
      have := key (bs.take w)
      rw [List.length_take, Nat.min_eq_left (by omega)] at this
      rw [this, List.take_append_drop]

@[simp] theorem fieldsBits_nil : fieldsBits [] = [] := rfl

@[simp] theorem fieldsBits_cons (f : Field) (fs : List Field) : fieldsBits (f :: fs) = f.bits ++ fieldsBits fs :=
  List.flatMap_cons

@[simp] theorem fieldsBits_append (fs gs : List Field) :
    fieldsBits (fs ++ gs) = fieldsBits fs ++ fieldsBits gs := List.flatMap_append

@[simp] theorem fieldsWidth_nil : fieldsWidth [] = 0 := rfl

@[simp] theorem fieldsWidth_cons (f : Field) (fs : List Field) :
    fieldsWidth (f :: fs) = f.width + fieldsWidth fs := by simp [fieldsWidth]

@[simp] theorem fieldsWidth_append (fs gs : List Field) :
    fieldsWidth (fs ++ gs) = fieldsWidth fs + fieldsWidth gs := by simp [fieldsWidth]

@[simp] theorem fieldsBits_length (fs : List Field) : (fieldsBits fs).length = fieldsWidth fs := by
  induction fs with
  | nil => rfl
  | cons f fs ih => simp [ih, Field.bits]

end Sys2Proof
end

