-- ==== Sys2Proof/Laws/Codec.lean ====
section
/-! SUPPORT. Each decoder reads back what its encoder writes, as the canonical value (spec/43_message_envelope.md R345,
R346), and answers nothing else: the bits a decoder accepts are the encoding of the canonical value it answers. -/

namespace Sys2Proof

/-! ## Small laws of the decoders' building blocks -/

@[simp] theorem Dec.value_apply {α : Type} (v : α) (bs : Bits) : Dec.value v bs = .ok v bs := rfl

@[simp] theorem Dec.fail_apply {α : Type} (e : Error) (bs : Bits) : (Dec.fail e : Dec α) bs = .err e bs := rfl

theorem Dec.andThen_ok {α β : Type} {d : Dec α} {f : α → Dec β} {bs rest : Bits} {v : α}
    (h : d bs = .ok v rest) : Dec.andThen d f bs = f v rest := by
  simp [Dec.andThen, h]

theorem Dec.map_ok {α β : Type} {d : Dec α} {f : α → β} {bs rest : Bits} {v : α} (h : d bs = .ok v rest) :
    Dec.map d f bs = .ok (f v) rest := by
  simp [Dec.map, Dec.andThen, h]

/-- What a sequence of two decoders can answer. -/
theorem Dec.andThen_eq_ok {α β : Type} {d : Dec α} {f : α → Dec β} {bs rest : Bits} {w : β} :
    Dec.andThen d f bs = .ok w rest ↔ ∃ v mid, d bs = .ok v mid ∧ f v mid = .ok w rest := by
  unfold Dec.andThen
  cases h : d bs with
  | ok v mid => simp
  | err e mid => simp

theorem Dec.map_eq_ok {α β : Type} {d : Dec α} {f : α → β} {bs rest : Bits} {w : β} :
    Dec.map d f bs = .ok w rest ↔ ∃ v, d bs = .ok v rest ∧ f v = w := by
  unfold Dec.map
  rw [Dec.andThen_eq_ok]
  simp only [Dec.value_apply, Parse.ok.injEq]
  constructor
  · rintro ⟨v, mid, h, rfl, rfl⟩; exact ⟨v, h, rfl⟩
  · rintro ⟨v, h, rfl⟩; exact ⟨v, rest, h, rfl, rfl⟩

theorem readVec_bits {w k : Nat} (v : BitVec k) (rest : Bits) :
    readVec w k (bitsOf v.toNat w ++ rest) = .ok (BitVec.ofNat k (v.toNat % 2 ^ w)) rest :=
  Dec.map_ok (readBits_bitsOf _ _ _)

@[simp] theorem readVec_bits_full {k : Nat} (v : BitVec k) (rest : Bits) :
    readVec k k (bitsOf v.toNat k ++ rest) = .ok v rest := by
  rw [readVec_bits, Nat.mod_eq_of_lt v.isLt, BitVec.ofNat_toNat, BitVec.setWidth_eq]

@[simp] theorem readFlag_bits (b : Bool) (rest : Bits) : readFlag (bitsOf b.toNat 1 ++ rest) = .ok b rest := by
  rw [show readFlag (bitsOf b.toNat 1 ++ rest) = .ok (b.toNat % 2 ^ 1 == 1) rest from
    Dec.map_ok (readBits_bitsOf _ _ _)]
  cases b <;> rfl

@[simp] theorem Field.bits_mk (v w : Nat) (b : Bool) : (Field.mk v w b).bits = bitsOf v w := rfl

@[simp] theorem codeField_bits (v w : Nat) : (codeField v w).bits = bitsOf v w := rfl

@[simp] theorem vecField_bits {k : Nat} (v : BitVec k) (w : Nat) : (vecField v w).bits = bitsOf v.toNat w := rfl

@[simp] theorem flagField_bits (b : Bool) : (flagField b).bits = bitsOf b.toNat 1 := rfl

/-- Reading a code that was written. -/
theorem Dec.andThen_code {β : Type} (v w : Nat) (f : Nat → Dec β) (rest : Bits) :
    Dec.andThen (readBits w) f (bitsOf v w ++ rest) = f (v % 2 ^ w) rest :=
  Dec.andThen_ok (readBits_bitsOf _ _ _)

theorem Dec.andThen_vec {β : Type} {k : Nat} (v : BitVec k) (f : BitVec k → Dec β) (rest : Bits) :
    Dec.andThen (readVec k k) f (bitsOf v.toNat k ++ rest) = f v rest :=
  Dec.andThen_ok (readVec_bits_full v rest)

theorem Dec.andThen_flag {β : Type} (b : Bool) (f : Bool → Dec β) (rest : Bits) :
    Dec.andThen readFlag f (bitsOf b.toNat 1 ++ rest) = f b rest :=
  Dec.andThen_ok (readFlag_bits b rest)

theorem Dec.andThen_flag_one {β : Type} (f : Bool → Dec β) (rest : Bits) :
    Dec.andThen readFlag f (bitsOf 1 1 ++ rest) = f true rest := Dec.andThen_flag true f rest

theorem Dec.andThen_flag_zero {β : Type} (f : Bool → Dec β) (rest : Bits) :
    Dec.andThen readFlag f (bitsOf 0 1 ++ rest) = f false rest := Dec.andThen_flag false f rest

/-! ## Reading back what was written -/

theorem decBoard_fields (b : Board) (rest : Bits) : decBoard (fieldsBits b.fields ++ rest) = .ok b rest := by
  cases b <;> simp [decBoard, Board.fields, Board.code, Dec.map, Dec.andThen]

theorem decSensor_fields (x : Sensor) (rest : Bits) : decSensor (fieldsBits x.fields ++ rest) = .ok x rest := by
  cases x <;> simp [decSensor, Sensor.fields, Dec.map, Dec.andThen]

theorem decActuator_fields (x : Actuator) (rest : Bits) :
    decActuator (fieldsBits x.fields ++ rest) = .ok x rest := by
  cases x; simp [decActuator, Actuator.fields, Dec.map, Dec.andThen]

theorem decOption_fields {α : Type} {d : Dec α} {f : α → List Field} {g : α → α}
    (h : ∀ x rest, d (fieldsBits (f x) ++ rest) = .ok (g x) rest) (x : Option α) (rest : Bits) :
    decOption d (fieldsBits (optionFields f x) ++ rest) = .ok (x.map g) rest := by
  cases x with
  | none => simp [decOption, optionFields, Dec.andThen_flag_zero]
  | some x => simp [decOption, optionFields, Dec.andThen_flag_one, Dec.map_ok (h x rest)]

theorem decLimbType_fields (x : LimbType) (rest : Bits) :
    decLimbType (fieldsBits x.fields ++ rest) = .ok x rest := by
  cases x with
  | sensor r d =>
    have h := decOption_fields (g := id) decSensor_fields d rest
    simp only [Option.map_id, id] at h
    simp [decLimbType, LimbType.fields, Dec.andThen_flag_zero, Dec.andThen_vec, Dec.map_ok h]
  | actuator a =>
    simp [decLimbType, LimbType.fields, Dec.andThen_flag_one, Dec.map_ok (decActuator_fields a rest)]

theorem readVec_limbId (i : Byte) (rest : Bits) :
    readVec 4 8 (bitsOf i.toNat 4 ++ rest) = .ok (canonLimbId i) rest := readVec_bits i rest

theorem decLimb_fields (x : Limb) (rest : Bits) : decLimb (fieldsBits x.fields ++ rest) = .ok x.canon rest := by
  simp [decLimb, Limb.fields, Dec.andThen_ok (readVec_limbId x.id _), Dec.map_ok (decLimbType_fields x.kind rest),
    Limb.canon]

theorem decNodeInfo_fields (x : NodeInfo) (rest : Bits) :
    decNodeInfo (fieldsBits x.fields ++ rest) = .ok x rest := by
  simp [decNodeInfo, NodeInfo.fields, Dec.andThen_ok (decBoard_fields x.board _),
    Dec.map_ok (readVec_bits_full x.heartbeatInterval rest)]

theorem decCommand_fields (x : Command) (rest : Bits) :
    decCommand (fieldsBits x.fields ++ rest) = .ok x.canon rest := by
  cases x with
  | info => simp [decCommand, Command.fields, Dec.andThen_code, Command.canon]
  | limbs => simp [decCommand, Command.fields, Dec.andThen_code, Command.canon]
  | setLimb l =>
    simp [decCommand, Command.fields, Dec.andThen_code, Command.canon, Dec.map_ok (decLimb_fields l rest)]
  | toggleLimb i =>
    simp [decCommand, Command.fields, Dec.andThen_code, Command.canon, Dec.map_ok (readVec_limbId i rest)]
  | setLimbType t =>
    simp [decCommand, Command.fields, Dec.andThen_code, Command.canon, Dec.map_ok (decLimbType_fields t rest)]

theorem decResponse_fields (x : Response) (rest : Bits) :
    decResponse (fieldsBits x.fields ++ rest) = .ok x.canon rest := by
  cases x with
  | ok => simp [decResponse, Response.fields, Dec.andThen_code, Response.canon]
  | info i =>
    simp [decResponse, Response.fields, Dec.andThen_code, Response.canon, Dec.map_ok (decNodeInfo_fields i rest)]
  | limbs a b c =>
    have h := decOption_fields (g := Limb.canon) decLimb_fields
    simp [decResponse, Response.fields, Dec.andThen_code, Response.canon, Dec.andThen_ok (h a _),
      Dec.andThen_ok (h b _), Dec.map_ok (h c rest)]
  | heartbeat v =>
    simp [decResponse, Response.fields, Dec.andThen_code, Response.canon,
      Dec.map_ok (readVec_bits_full v rest)]
  | errLimbNotFound => simp [decResponse, Response.fields, Dec.andThen_code, Response.canon]
  | errLimbTypeDoesntMatch => simp [decResponse, Response.fields, Dec.andThen_code, Response.canon]

theorem decResponseId_field (x : Option Byte) (rest : Bits) :
    decResponseId ((responseIdField x).bits ++ rest) = .ok (canonResponseId x) rest := by
  cases x with
  | none => simp [decResponseId, responseIdField, Dec.map, Dec.andThen, canonResponseId]
  | some v => simp [decResponseId, responseIdField, Dec.map, Dec.andThen, canonResponseId]

theorem decMessageData_fields (x : MessageData) (rest : Bits) :
    decMessageData (fieldsBits x.fields ++ rest) = .ok x.canon rest := by
  cases x with
  | command i k =>
    have h : ∀ r, readVec 6 8 (bitsOf i.toNat 6 ++ r) = .ok (canonCommandId i) r := fun r => readVec_bits i r
    simp [decMessageData, MessageData.fields, Dec.andThen_flag_zero, MessageData.canon, Dec.andThen_ok (h _),
      Dec.map_ok (decCommand_fields k rest)]
  | response i r =>
    simp [decMessageData, MessageData.fields, Dec.andThen_flag_one, MessageData.canon,
      Dec.andThen_ok (decResponseId_field i _), Dec.map_ok (decResponse_fields r rest)]

theorem toList_push {n : Nat} (v : Vector Byte n) (b : Byte) : (v.push b).toList = v.toList ++ [b] := by
  obtain ⟨a, rfl⟩ := v
  simp [Vector.toList]

theorem readBytes_fields {n : Nat} (v : Vector Byte n) (rest : Bits) :
    readBytes n (fieldsBits (v.toList.map fun x => vecField x 8) ++ rest) = .ok v rest := by
  induction n generalizing rest with
  | zero =>
    have : v = #v[] := by apply Vector.ext; intro i h; omega
    subst this; rfl
  | succ n ih =>
    obtain ⟨u, b, rfl⟩ := Vector.exists_push (xs := v)
    simp [toList_push, readBytes, Dec.andThen_ok (ih u _), Dec.map_ok (readVec_bits_full b rest)]

theorem decMessageBody_fields (m : Message) (rest : Bits) :
    decMessageBody (bitsOf m.code 4 ++ (fieldsBits m.bodyFields ++ rest)) = .ok m.canon rest := by
  cases m with
  | message d =>
    simp [decMessageBody, Message.bodyFields, Message.code, Dec.andThen_code, Message.canon,
      Dec.map_ok (decMessageData_fields d rest)]
  | relayMessage n d =>
    simp [decMessageBody, Message.bodyFields, Message.code, Dec.andThen_code, Message.canon, Dec.andThen_vec,
      Dec.map_ok (decMessageData_fields d rest)]
  | searchingNetwork n =>
    simp [decMessageBody, Message.bodyFields, Message.code, Dec.andThen_code, Message.canon,
      Dec.map_ok (readVec_bits_full n rest)]
  | network n a =>
    simp [decMessageBody, Message.bodyFields, Message.code, Dec.andThen_code, Message.canon, Dec.andThen_vec,
      Dec.map_ok (readVec_bits_full a rest)]
  | debugMessage n b =>
    simp [decMessageBody, Message.bodyFields, Message.code, Dec.andThen_code, Message.canon, Dec.andThen_vec,
      Dec.map_ok (readBytes_fields b rest)]

/-- dec_Message reads back the wire form of m as canon(m), and leaves what follows it unread (R345, D33). -/
theorem decMessage_bits (m : Message) (rest : Bits) : decMessage (m.bits ++ rest) = .ok m.canon rest := by
  simp only [Message.bits, Message.fields, fieldsBits_cons, codeField_bits, List.append_assoc, decMessage,
    Dec.andThen_code]
  exact decMessageBody_fields m rest

/-! ## Nothing else is accepted -/

/-- The bits d accepts are enc of the value it answers, and that value meets P. -/
def Exact {α : Type} (d : Dec α) (enc : α → Bits) (P : α → Prop) : Prop :=
  ∀ bs v rest, d bs = .ok v rest → bs = enc v ++ rest ∧ P v

theorem readBits_exact (w : Nat) : Exact (readBits w) (fun v => bitsOf v w) (fun v => v < 2 ^ w) := by
  intro bs v rest h
  rcases readBits_cases (w := w) (bs := bs) with ⟨v', rest', h1, h2, h3⟩ | ⟨h1, -⟩
  · rw [h1] at h; cases h; exact ⟨h3, h2⟩
  · rw [h1] at h; cases h

theorem readVec_exact {w k : Nat} (hw : w ≤ k) :
    Exact (readVec w k) (fun v : BitVec k => bitsOf v.toNat w) (fun v => v.toNat < 2 ^ w) := by
  intro bs v rest h
  obtain ⟨u, h1, rfl⟩ := Dec.map_eq_ok.mp h
  obtain ⟨h2, h3⟩ := readBits_exact w bs u rest h1
  have : (BitVec.ofNat k u).toNat = u := by
    rw [BitVec.toNat_ofNat, Nat.mod_eq_of_lt (lt_of_lt_of_le h3 (Nat.pow_le_pow_right (by omega) hw))]
  simp only [this]
  exact ⟨h2, h3⟩

theorem readFlag_exact : Exact readFlag (fun b => bitsOf b.toNat 1) (fun _ => True) := by
  intro bs v rest h
  obtain ⟨u, h1, rfl⟩ := Dec.map_eq_ok.mp h
  obtain ⟨h2, h3⟩ := readBits_exact 1 bs u rest h1
  refine ⟨?_, trivial⟩
  have : u = 0 ∨ u = 1 := by omega
  rcases this with rfl | rfl <;> simpa using h2

theorem decBoard_exact : Exact decBoard (fun x => fieldsBits x.fields) (fun _ => True) := by
  intro bs v rest h
  obtain ⟨u, h1, rfl⟩ := Dec.map_eq_ok.mp h
  obtain ⟨h2, h3⟩ := readBits_exact 2 bs u rest h1
  refine ⟨?_, trivial⟩
  have : u = 0 ∨ u = 1 ∨ u = 2 ∨ u = 3 := by omega
  rcases this with rfl | rfl | rfl | rfl <;> simpa [Board.fields, Board.code] using h2

theorem decSensor_exact : Exact decSensor (fun x => fieldsBits x.fields) (fun _ => True) := by
  intro bs v rest h
  obtain ⟨c, mid, h1, h2⟩ := Dec.andThen_eq_ok.mp h
  obtain ⟨rfl, h3⟩ := readBits_exact 4 bs c mid h1
  refine ⟨?_, trivial⟩
  split at h2
  · obtain ⟨p, h4, rfl⟩ := Dec.map_eq_ok.mp h2
    obtain ⟨rfl, -⟩ := readVec_exact (by omega) _ _ _ h4
    simp [Sensor.fields]
  · obtain ⟨t, mid2, h4, h5⟩ := Dec.andThen_eq_ok.mp h2
    obtain ⟨rfl, -⟩ := readVec_exact (by omega) _ _ _ h4
    obtain ⟨p, h6, rfl⟩ := Dec.map_eq_ok.mp h5
    obtain ⟨rfl, -⟩ := readVec_exact (by omega) _ _ _ h6
    simp [Sensor.fields]
  · obtain ⟨p, h4, rfl⟩ := Dec.map_eq_ok.mp h2
    obtain ⟨rfl, -⟩ := readVec_exact (by omega) _ _ _ h4
    simp [Sensor.fields]
  · cases h2

theorem decActuator_exact : Exact decActuator (fun x => fieldsBits x.fields) (fun _ => True) := by
  intro bs v rest h
  obtain ⟨c, mid, h1, h2⟩ := Dec.andThen_eq_ok.mp h
  obtain ⟨rfl, h3⟩ := readBits_exact 4 bs c mid h1
  refine ⟨?_, trivial⟩
  split at h2
  · obtain ⟨p, h4, rfl⟩ := Dec.map_eq_ok.mp h2
    obtain ⟨rfl, -⟩ := readFlag_exact _ _ _ h4
    simp [Actuator.fields]
  · cases h2

theorem decOption_exact {α : Type} {d : Dec α} {f : α → List Field} {P : α → Prop}
    (hd : Exact d (fun x => fieldsBits (f x)) P) :
    Exact (decOption d) (fun x => fieldsBits (optionFields f x)) (fun x => ∀ y ∈ x, P y) := by
  intro bs v rest h
  obtain ⟨c, mid, h1, h2⟩ := Dec.andThen_eq_ok.mp h
  obtain ⟨rfl, -⟩ := readFlag_exact bs c mid h1
  cases c with
  | true =>
    obtain ⟨p, h4, rfl⟩ := Dec.map_eq_ok.mp h2
    obtain ⟨rfl, hp⟩ := hd _ _ _ h4
    exact ⟨by simp [optionFields], by simpa using hp⟩
  | false =>
    cases h2
    exact ⟨by simp [optionFields], by simp⟩

theorem decLimbType_exact : Exact decLimbType (fun x => fieldsBits x.fields) (fun _ => True) := by
  intro bs v rest h
  obtain ⟨c, mid, h1, h2⟩ := Dec.andThen_eq_ok.mp h
  obtain ⟨rfl, -⟩ := readFlag_exact bs c mid h1
  refine ⟨?_, trivial⟩
  cases c with
  | true =>
    obtain ⟨p, h4, rfl⟩ := Dec.map_eq_ok.mp h2
    obtain ⟨rfl, -⟩ := decActuator_exact _ _ _ h4
    simp [LimbType.fields]
  | false =>
    obtain ⟨t, mid2, h4, h5⟩ := Dec.andThen_eq_ok.mp h2
    obtain ⟨rfl, -⟩ := readVec_exact (by omega) _ _ _ h4
    obtain ⟨p, h6, rfl⟩ := Dec.map_eq_ok.mp h5
    obtain ⟨rfl, -⟩ := decOption_exact decSensor_exact _ _ _ h6
    simp [LimbType.fields]

theorem canonLimbId_of_lt {i : Byte} (h : i.toNat < 2 ^ 4) : canonLimbId i = i := by
  unfold canonLimbId
  rw [show Config.limbIdBits = 4 from rfl, Nat.mod_eq_of_lt h, BitVec.ofNat_toNat, BitVec.setWidth_eq]

theorem decLimb_exact : Exact decLimb (fun x => fieldsBits x.fields) (fun x => x.canon = x) := by
  intro bs v rest h
  obtain ⟨i, mid, h1, h2⟩ := Dec.andThen_eq_ok.mp h
  obtain ⟨rfl, hi⟩ := readVec_exact (by omega) _ _ _ h1
  obtain ⟨t, h3, rfl⟩ := Dec.map_eq_ok.mp h2
  obtain ⟨rfl, -⟩ := decLimbType_exact _ _ _ h3
  exact ⟨by simp [Limb.fields], by simp [Limb.canon, canonLimbId_of_lt hi]⟩

theorem decNodeInfo_exact : Exact decNodeInfo (fun x => fieldsBits x.fields) (fun _ => True) := by
  intro bs v rest h
  obtain ⟨i, mid, h1, h2⟩ := Dec.andThen_eq_ok.mp h
  obtain ⟨rfl, -⟩ := decBoard_exact _ _ _ h1
  obtain ⟨t, h3, rfl⟩ := Dec.map_eq_ok.mp h2
  obtain ⟨rfl, -⟩ := readVec_exact (by omega) _ _ _ h3
  exact ⟨by simp [NodeInfo.fields], trivial⟩

theorem decCommand_exact : Exact decCommand (fun x => fieldsBits x.fields) (fun x => x.canon = x) := by
  intro bs v rest h
  obtain ⟨c, mid, h1, h2⟩ := Dec.andThen_eq_ok.mp h
  obtain ⟨rfl, -⟩ := readBits_exact 4 bs c mid h1
  split at h2
  · cases h2; exact ⟨by simp [Command.fields], rfl⟩
  · cases h2; exact ⟨by simp [Command.fields], rfl⟩
  · obtain ⟨p, h4, rfl⟩ := Dec.map_eq_ok.mp h2
    obtain ⟨rfl, hp⟩ := decLimb_exact _ _ _ h4
    exact ⟨by simp [Command.fields], by simp [Command.canon, hp]⟩
  · obtain ⟨p, h4, rfl⟩ := Dec.map_eq_ok.mp h2
    obtain ⟨rfl, hp⟩ := readVec_exact (by omega) _ _ _ h4
    exact ⟨by simp [Command.fields], by simp [Command.canon, canonLimbId_of_lt hp]⟩
  · obtain ⟨p, h4, rfl⟩ := Dec.map_eq_ok.mp h2
    obtain ⟨rfl, -⟩ := decLimbType_exact _ _ _ h4
    exact ⟨by simp [Command.fields], rfl⟩
  · cases h2

theorem map_canon_eq {x : Option Limb} (h : ∀ y ∈ x, y.canon = y) : x.map Limb.canon = x := by
  cases x with
  | none => rfl
  | some y => simp [h y rfl]

theorem decResponse_exact : Exact decResponse (fun x => fieldsBits x.fields) (fun x => x.canon = x) := by
  intro bs v rest h
  obtain ⟨c, mid, h1, h2⟩ := Dec.andThen_eq_ok.mp h
  obtain ⟨rfl, -⟩ := readBits_exact 4 bs c mid h1
  split at h2
  · cases h2; exact ⟨by simp [Response.fields], rfl⟩
  · obtain ⟨p, h4, rfl⟩ := Dec.map_eq_ok.mp h2
    obtain ⟨rfl, -⟩ := decNodeInfo_exact _ _ _ h4
    exact ⟨by simp [Response.fields], rfl⟩
  · obtain ⟨x, m1, h3, h4⟩ := Dec.andThen_eq_ok.mp h2
    obtain ⟨rfl, hx⟩ := decOption_exact decLimb_exact _ _ _ h3
    obtain ⟨y, m2, h5, h6⟩ := Dec.andThen_eq_ok.mp h4
    obtain ⟨rfl, hy⟩ := decOption_exact decLimb_exact _ _ _ h5
    obtain ⟨z, h7, rfl⟩ := Dec.map_eq_ok.mp h6
    obtain ⟨rfl, hz⟩ := decOption_exact decLimb_exact _ _ _ h7
    exact ⟨by simp [Response.fields], by simp [Response.canon, map_canon_eq hx, map_canon_eq hy, map_canon_eq hz]⟩
  · obtain ⟨p, h4, rfl⟩ := Dec.map_eq_ok.mp h2
    obtain ⟨rfl, -⟩ := readVec_exact (by omega) _ _ _ h4
    exact ⟨by simp [Response.fields], rfl⟩
  · cases h2; exact ⟨by simp [Response.fields], rfl⟩
  · cases h2; exact ⟨by simp [Response.fields], rfl⟩
  · cases h2

theorem decResponseId_exact :
    Exact decResponseId (fun x => (responseIdField x).bits) (fun x => canonResponseId x = x) := by
  intro bs v rest h
  obtain ⟨u, h1, rfl⟩ := Dec.map_eq_ok.mp h
  obtain ⟨rfl, hu⟩ := readBits_exact 6 bs u rest h1
  by_cases h0 : u = 0
  · subst h0; exact ⟨rfl, rfl⟩
  · rw [if_neg h0]
    have hn : (BitVec.ofNat 8 u).toNat = u := by
      rw [BitVec.toNat_ofNat, Nat.mod_eq_of_lt (by omega)]
    refine ⟨by simp only [responseIdField, Field.bits_mk, hn], ?_⟩
    simp only [canonResponseId, hn]
    rw [Nat.mod_eq_of_lt (by omega), if_neg h0]

theorem canonCommandId_of_lt {i : Byte} (h : i.toNat < 2 ^ 6) : canonCommandId i = i := by
  unfold canonCommandId
  rw [show Config.commandIdMax = 2 ^ 6 from rfl, Nat.mod_eq_of_lt h, BitVec.ofNat_toNat, BitVec.setWidth_eq]

theorem decMessageData_exact : Exact decMessageData (fun x => fieldsBits x.fields) (fun x => x.canon = x) := by
  intro bs v rest h
  obtain ⟨c, mid, h1, h2⟩ := Dec.andThen_eq_ok.mp h
  obtain ⟨rfl, -⟩ := readFlag_exact bs c mid h1
  cases c with
  | true =>
    obtain ⟨i, m1, h3, h4⟩ := Dec.andThen_eq_ok.mp h2
    obtain ⟨rfl, hi⟩ := decResponseId_exact _ _ _ h3
    obtain ⟨r, h5, rfl⟩ := Dec.map_eq_ok.mp h4
    obtain ⟨rfl, hr⟩ := decResponse_exact _ _ _ h5
    exact ⟨by simp [MessageData.fields], by simp [MessageData.canon, hi, hr]⟩
  | false =>
    obtain ⟨i, m1, h3, h4⟩ := Dec.andThen_eq_ok.mp h2
    obtain ⟨rfl, hi⟩ := readVec_exact (by omega) _ _ _ h3
    obtain ⟨r, h5, rfl⟩ := Dec.map_eq_ok.mp h4
    obtain ⟨rfl, hr⟩ := decCommand_exact _ _ _ h5
    refine ⟨by simp [MessageData.fields], ?_⟩
    simp [MessageData.canon, canonCommandId_of_lt hi, hr]

theorem readBytes_exact (n : Nat) :
    Exact (readBytes n) (fun v => fieldsBits (v.toList.map fun x => vecField x 8)) (fun _ => True) := by
  induction n with
  | zero => intro bs v rest h; cases h; exact ⟨rfl, trivial⟩
  | succ n ih =>
    intro bs v rest h
    obtain ⟨u, mid, h1, h2⟩ := Dec.andThen_eq_ok.mp h
    obtain ⟨rfl, -⟩ := ih _ _ _ h1
    obtain ⟨b, h3, rfl⟩ := Dec.map_eq_ok.mp h2
    obtain ⟨rfl, -⟩ := readVec_exact (by omega) _ _ _ h3
    exact ⟨by simp [toList_push], trivial⟩

theorem decMessageBody_exact : Exact decMessageBody
    (fun m => bitsOf m.code 4 ++ fieldsBits m.bodyFields) (fun m => m.canon = m) := by
  intro bs v rest h
  obtain ⟨c, mid, h1, h2⟩ := Dec.andThen_eq_ok.mp h
  obtain ⟨rfl, -⟩ := readBits_exact 4 bs c mid h1
  split at h2
  · obtain ⟨d, h4, rfl⟩ := Dec.map_eq_ok.mp h2
    obtain ⟨rfl, hd⟩ := decMessageData_exact _ _ _ h4
    exact ⟨by simp [Message.bodyFields, Message.code], by simp [Message.canon, hd]⟩
  · obtain ⟨n, m1, h3, h4⟩ := Dec.andThen_eq_ok.mp h2
    obtain ⟨rfl, -⟩ := readVec_exact (by omega) _ _ _ h3
    obtain ⟨d, h5, rfl⟩ := Dec.map_eq_ok.mp h4
    obtain ⟨rfl, hd⟩ := decMessageData_exact _ _ _ h5
    exact ⟨by simp [Message.bodyFields, Message.code], by simp [Message.canon, hd]⟩
  · obtain ⟨n, h4, rfl⟩ := Dec.map_eq_ok.mp h2
    obtain ⟨rfl, -⟩ := readVec_exact (by omega) _ _ _ h4
    exact ⟨by simp [Message.bodyFields, Message.code], rfl⟩
  · obtain ⟨n, m1, h3, h4⟩ := Dec.andThen_eq_ok.mp h2
    obtain ⟨rfl, -⟩ := readVec_exact (by omega) _ _ _ h3
    obtain ⟨a, h5, rfl⟩ := Dec.map_eq_ok.mp h4
    obtain ⟨rfl, -⟩ := readVec_exact (by omega) _ _ _ h5
    exact ⟨by simp [Message.bodyFields, Message.code], rfl⟩
  · obtain ⟨n, m1, h3, h4⟩ := Dec.andThen_eq_ok.mp h2
    obtain ⟨rfl, -⟩ := readVec_exact (by omega) _ _ _ h3
    obtain ⟨b, h5, rfl⟩ := Dec.map_eq_ok.mp h4
    obtain ⟨rfl, -⟩ := readBytes_exact _ _ _ _ h5
    exact ⟨by simp [Message.bodyFields, Message.code], rfl⟩
  · cases h2

/-- dec_Message accepts only wire forms, and answers only canonical values (R345). -/
theorem decMessage_exact : Exact decMessage Message.bits Message.Canonical := by
  intro bs v rest h
  obtain ⟨c, mid, h1, h2⟩ := Dec.andThen_eq_ok.mp h
  obtain ⟨rfl, -⟩ := readBits_exact 2 bs c mid h1
  split at h2
  · rename_i hc
    subst hc
    obtain ⟨rfl, hv⟩ := decMessageBody_exact _ _ _ h2
    exact ⟨by simp [Message.bits, Message.fields], hv⟩
  · cases h2

end Sys2Proof
end

