-- ==== Sys2Proof/Laws/Canonical.lean ====
section
/-! SUPPORT. An encoder meets a contract violation exactly where the value is not canonical (spec/10_state.md R37,
spec/43_message_envelope.md R345). -/

namespace Sys2Proof

/-- Some field of the encoder meets a contract violation. -/
def violations (fs : List Field) : Bool := fs.any Field.violates

@[simp] theorem violations_nil : violations [] = false := rfl

@[simp] theorem violations_cons (f : Field) (fs : List Field) :
    violations (f :: fs) = (f.violates || violations fs) := by simp [violations]

@[simp] theorem violations_append (fs gs : List Field) :
    violations (fs ++ gs) = (violations fs || violations gs) := by simp [violations]

theorem Field.violates_iff (f : Field) :
    f.violates = true ↔ f.violation = true ∨ (f.width < 32 ∧ 2 ^ f.width ≤ f.value) := by
  unfold Field.violates
  rw [Bool.or_eq_true, Bool.and_eq_true, decide_eq_true_eq, decide_eq_true_eq]

theorem codeField_violates_iff (v w : Nat) : (codeField v w).violates = true ↔ w < 32 ∧ 2 ^ w ≤ v := by
  have := Field.violates_iff (codeField v w)
  simpa [codeField] using this

theorem vecField_violates_iff {k : Nat} (v : BitVec k) (w : Nat) :
    (vecField v w).violates = true ↔ w < 32 ∧ 2 ^ w ≤ v.toNat := by
  have := Field.violates_iff (vecField v w)
  simpa [vecField] using this

@[simp] theorem vecField_violates_full {k : Nat} (v : BitVec k) : (vecField v k).violates = false := by
  have := v.isLt
  rw [← Bool.not_eq_true, vecField_violates_iff]
  omega

@[simp] theorem flagField_violates (b : Bool) : (flagField b).violates = false := by cases b <;> rfl

@[simp] theorem Board.violations_fields (b : Board) : violations b.fields = false := by cases b <;> rfl

@[simp] theorem codeField_violates (v w : Nat) (h : v < 2 ^ w) : (codeField v w).violates = false := by
  rw [← Bool.not_eq_true, codeField_violates_iff]
  omega

@[simp] theorem Sensor.violations_fields (x : Sensor) : violations x.fields = false := by
  cases x <;> simp [Sensor.fields]

@[simp] theorem Actuator.violations_fields (x : Actuator) : violations x.fields = false := by
  cases x; simp [Actuator.fields]

theorem optionFields_violations {α : Type} {f : α → List Field} (x : Option α) :
    violations (optionFields f x) = x.any fun y => violations (f y) := by
  cases x <;> simp [optionFields]

@[simp] theorem LimbType.violations_fields (x : LimbType) : violations x.fields = false := by
  cases x with
  | sensor r d => cases d <;> simp [LimbType.fields, optionFields]
  | actuator a => simp [LimbType.fields]

theorem canonLimbId_toNat (i : Byte) : (canonLimbId i).toNat = i.toNat % 16 := by
  rw [canonLimbId, BitVec.toNat_ofNat]
  show i.toNat % 16 % 256 = i.toNat % 16
  omega

theorem canonCommandId_toNat (i : Byte) : (canonCommandId i).toNat = i.toNat % 64 := by
  rw [canonCommandId, BitVec.toNat_ofNat]
  show i.toNat % 64 % 256 = i.toNat % 64
  omega

theorem limbId_violates (i : Byte) : (vecField i 4).violates = decide (canonLimbId i ≠ i) := by
  rw [Bool.eq_iff_iff, vecField_violates_iff, decide_eq_true_eq, ne_eq, ← BitVec.toNat_inj, canonLimbId_toNat]
  omega

theorem commandId_violates (i : Byte) : (vecField i 6).violates = decide (canonCommandId i ≠ i) := by
  rw [Bool.eq_iff_iff, vecField_violates_iff, decide_eq_true_eq, ne_eq, ← BitVec.toNat_inj, canonCommandId_toNat]
  omega

theorem canonResponseId_some_iff (v : Byte) :
    canonResponseId (some v) = some v ↔ v.toNat ≠ 0 ∧ v.toNat < 64 := by
  have hv := v.isLt
  have e : canonResponseId (some v) =
      if v.toNat % 64 = 0 then none else some (BitVec.ofNat 8 (v.toNat % 64)) := rfl
  rw [e]
  by_cases h : v.toNat % 64 = 0
  · rw [if_pos h]
    refine ⟨fun h' => (Option.some_ne_none _ h'.symm).elim, fun _ => by omega⟩
  · rw [if_neg h, Option.some.injEq, ← BitVec.toNat_inj, BitVec.toNat_ofNat]
    omega

theorem responseId_violates (x : Option Byte) :
    (responseIdField x).violates = decide (canonResponseId x ≠ x) := by
  cases x with
  | none => rfl
  | some v =>
    have h0 : (v == 0) = true ↔ v.toNat = 0 := by
      rw [beq_iff_eq, ← BitVec.toNat_inj]
      rfl
    have hf : (responseIdField (some v)).violates = true ↔ (v == 0) = true ∨ (6 < 32 ∧ 2 ^ 6 ≤ v.toNat) :=
      Field.violates_iff _
    rw [Bool.eq_iff_iff, hf, h0, decide_eq_true_eq, ne_eq, canonResponseId_some_iff]
    omega

theorem Limb.violations_fields (l : Limb) : violations l.fields = decide (l.canon ≠ l) := by
  cases l with
  | mk i t => simp [Limb.fields, Limb.canon, limbId_violates]

theorem optionLimb_violations (x : Option Limb) :
    violations (optionFields Limb.fields x) = decide (x.map Limb.canon ≠ x) := by
  cases x <;> simp [optionFields, Limb.violations_fields]

theorem Command.violations_fields (c : Command) : violations c.fields = decide (c.canon ≠ c) := by
  cases c <;> simp [Command.fields, Command.canon, Limb.violations_fields, limbId_violates]

@[simp] theorem NodeInfo.violations_fields (n : NodeInfo) : violations n.fields = false := by
  simp [NodeInfo.fields]

theorem Response.violations_fields (r : Response) : violations r.fields = decide (r.canon ≠ r) := by
  cases r with
  | limbs a b c =>
    simp only [Response.fields, Response.canon, violations_cons, violations_append, optionLimb_violations]
    by_cases ha : a.map Limb.canon = a <;> by_cases hb : b.map Limb.canon = b <;>
      by_cases hc : c.map Limb.canon = c <;> simp [ha, hb, hc]
  | _ => simp [Response.fields, Response.canon]

theorem MessageData.violations_fields (d : MessageData) : violations d.fields = decide (d.canon ≠ d) := by
  cases d with
  | command i c =>
    simp only [MessageData.fields, MessageData.canon, violations_cons, commandId_violates, Command.violations_fields]
    by_cases h : canonCommandId i = i <;> by_cases h' : c.canon = c <;> simp [h, h']
  | response i r =>
    simp only [MessageData.fields, MessageData.canon, violations_cons, responseId_violates, Response.violations_fields]
    by_cases h : canonResponseId i = i <;> by_cases h' : r.canon = r <;> simp [h, h']

/-- R345, R37: encoding sets CV exactly where the Message is not canonical. -/
theorem Message.violations_fields (m : Message) : violations m.fields = decide (¬ m.Canonical) := by
  cases m with
  | message d => simp [Message.fields, Message.code, Message.bodyFields, Message.canon, MessageData.violations_fields]
  | relayMessage n d =>
    simp [Message.fields, Message.code, Message.bodyFields, Message.canon, MessageData.violations_fields]
  | searchingNetwork n => simp [Message.fields, Message.code, Message.bodyFields, Message.canon]
  | network n a => simp [Message.fields, Message.code, Message.bodyFields, Message.canon]
  | debugMessage n b =>
    have : ∀ xs : List Byte, violations (xs.map fun x => vecField x 8) = false := by
      intro xs
      induction xs with
      | nil => rfl
      | cons x xs ih => simp [ih]
    simp [Message.fields, Message.code, Message.bodyFields, Message.canon, this]

/-- The same for every wire value. -/
theorem WireValue.violations_fields (v : WireValue) : violations v.fields = decide (v.canon ≠ v) := by
  cases v with
  | limb x => simp [WireValue.fields, WireValue.canon, Limb.violations_fields]
  | optionSensor x => cases x <;> simp [WireValue.fields, WireValue.canon, optionFields]
  | optionLimb x => simp [WireValue.fields, WireValue.canon, optionLimb_violations]
  | command x => simp [WireValue.fields, WireValue.canon, Command.violations_fields]
  | response x => simp [WireValue.fields, WireValue.canon, Response.violations_fields]
  | messageData x => simp [WireValue.fields, WireValue.canon, MessageData.violations_fields]
  | message x => simp [WireValue.fields, WireValue.canon, Message.violations_fields]
  | _ => simp [WireValue.fields, WireValue.canon]

/-! ## canon of canon -/

theorem canonLimbId_idem (i : Byte) : canonLimbId (canonLimbId i) = canonLimbId i := by
  rw [← BitVec.toNat_inj]
  simp only [canonLimbId_toNat]
  omega

theorem canonCommandId_idem (i : Byte) : canonCommandId (canonCommandId i) = canonCommandId i := by
  rw [← BitVec.toNat_inj]
  simp only [canonCommandId_toNat]
  omega

theorem canonResponseId_idem (i : Option Byte) : canonResponseId (canonResponseId i) = canonResponseId i := by
  cases i with
  | none => rfl
  | some v =>
    have := v.isLt
    unfold canonResponseId
    by_cases h : v.toNat % 64 = 0
    · simp [h]
    · have hv : (BitVec.ofNat 8 (v.toNat % 64)).toNat = v.toNat % 64 := by simp; omega
      simp only [h, if_false, hv, Nat.mod_mod]

theorem Limb.canon_idem (l : Limb) : l.canon.canon = l.canon := by
  simp [Limb.canon, canonLimbId_idem]

theorem Command.canon_idem (c : Command) : c.canon.canon = c.canon := by
  cases c <;> simp [Command.canon, Limb.canon_idem, canonLimbId_idem]

theorem Response.canon_idem (r : Response) : r.canon.canon = r.canon := by
  have h : ∀ x : Option Limb, (x.map Limb.canon).map Limb.canon = x.map Limb.canon := by
    intro x; cases x <;> simp [Limb.canon_idem]
  cases r <;> simp only [Response.canon, h]

theorem MessageData.canon_idem (d : MessageData) : d.canon.canon = d.canon := by
  cases d <;>
    simp [MessageData.canon, Command.canon_idem, Response.canon_idem, canonCommandId_idem, canonResponseId_idem]

theorem Message.canon_idem (m : Message) : m.canon.canon = m.canon := by
  cases m <;> simp [Message.canon, MessageData.canon_idem]

end Sys2Proof
end

