-- ==== Sys2Proof/Laws/CommandWord.lean ====
section
/-! SUPPORT. The command word and its fields (spec/30_encoding.md R100, R102, R105). -/

namespace Sys2Proof

/-- The more significant part counts in units of the less significant one. -/
theorem BitVec_append_toNat {w v : Nat} (x : BitVec w) (y : BitVec v) : (x ++ y).toNat = x.toNat * 2 ^ v + y.toNat := by
  rw [BitVec.toNat_append, Nat.mul_comm, Nat.two_pow_add_eq_or_of_lt y.isLt, Nat.shiftLeft_eq, Nat.mul_comm]

/-- R100, R105: the word as a number. -/
theorem commandWord_toNat (opc : BitVec 8) (n : BitVec 6) (a : Bool) (pipe : Byte) :
    (commandWord opc n a pipe).toNat = opc.toNat + n.toNat * 2 ^ 8 + a.toNat * 2 ^ 14 + pipe.toNat * 2 ^ 16 := by
  have hz : ∀ k, (BitVec.toNat (0 : BitVec k)) = 0 := fun k => by simp
  simp only [commandWord, BitVec_append_toNat, BitVec.toNat_ofBool]
  rw [hz, hz]
  omega

/-- R100: each field is read back from its own bits. -/
theorem commandWord_fields (opc : BitVec 8) (n : BitVec 6) (a : Bool) (pipe : Byte) :
    Word.opc (commandWord opc n a pipe) = opc.toNat ∧ Word.n (commandWord opc n a pipe) = n ∧
    Word.a (commandWord opc n a pipe) = a ∧ Word.pipe (commandWord opc n a pipe) = pipe ∧
    Word.reservedClear (commandWord opc n a pipe) = true := by
  have h := commandWord_toNat opc n a pipe
  have h1 := opc.isLt
  have h2 := n.isLt
  have h3 := pipe.isLt
  have h4 : a.toNat < 2 := by cases a <;> decide
  have h5 : ∀ k, (commandWord opc n a pipe).getLsbD k =
      ((commandWord opc n a pipe).toNat / 2 ^ k % 2 == 1) := fun k => by
    rw [BitVec.getLsbD, Nat.testBit_eq_decide_div_mod_eq]; rfl
  refine ⟨?_, ?_, ?_, ?_, ?_⟩
  · simp only [Word.opc, BitVec.extractLsb'_toNat, h, Nat.shiftRight_eq_div_pow]; omega
  · apply BitVec.eq_of_toNat_eq
    simp only [Word.n, BitVec.extractLsb'_toNat, h, Nat.shiftRight_eq_div_pow]; omega
  · simp only [Word.a, h5, h]
    rw [show (opc.toNat + n.toNat * 2 ^ 8 + a.toNat * 2 ^ 14 + pipe.toNat * 2 ^ 16) / 2 ^ 14 % 2 = a.toNat by omega]
    cases a <;> rfl
  · apply BitVec.eq_of_toNat_eq
    simp only [Word.pipe, BitVec.extractLsb'_toNat, h, Nat.shiftRight_eq_div_pow]; omega
  · unfold Word.reservedClear
    have e : (commandWord opc n a pipe).extractLsb' 24 8 = 0 := by
      apply BitVec.eq_of_toNat_eq
      simp only [BitVec.extractLsb'_toNat, h, Nat.shiftRight_eq_div_pow]
      show _ = 0
      omega
    rw [e, h5, h, show (opc.toNat + n.toNat * 2 ^ 8 + a.toNat * 2 ^ 14 + pipe.toNat * 2 ^ 16) / 2 ^ 15 % 2 = 0 by omega]
    rfl

/-- R102: a word with clear reserved bits is the word of its fields. -/
theorem commandWord_of_fields (w : Word) (hw : Word.reservedClear w = true) :
    w = commandWord (w.extractLsb' 0 8) (Word.n w) (Word.a w) (Word.pipe w) := by
  unfold Word.reservedClear at hw
  simp only [Bool.and_eq_true, beq_iff_eq, Bool.not_eq_true'] at hw
  obtain ⟨h1, h2⟩ := hw
  apply BitVec.eq_of_toNat_eq
  rw [commandWord_toNat]
  have h3 : (w.extractLsb' 24 8).toNat = 0 := by rw [h2]; rfl
  have h4 : w.toNat / 2 ^ 15 % 2 = 0 := by
    rw [BitVec.getLsbD, Nat.testBit_eq_decide_div_mod_eq] at h1
    simp at h1; omega
  have h5 : (Word.a w).toNat = w.toNat / 2 ^ 14 % 2 := by
    unfold Word.a
    rw [BitVec.getLsbD, Nat.testBit_eq_decide_div_mod_eq]
    rcases Nat.mod_two_eq_zero_or_one (w.toNat / 2 ^ 14) with h | h <;>
      (rw [h]; rfl)
  have := w.isLt
  simp only [Word.n, Word.pipe, BitVec.extractLsb'_toNat, Nat.shiftRight_eq_div_pow, h5] at h3 ⊢
  omega

end Sys2Proof
end

