-- ==== Sys2Proof/Laws/State.lean ====
section
/-! SUPPORT. One lemma per field per update of State, each true by rfl. -/

namespace Sys2Proof.Machine

variable (s : State)

/-! ### State.setMem -/

@[simp] theorem State.setMem_mem (m : List Host.Cell) : (s.setMem m).mem = m := rfl
@[simp] theorem State.setMem_arg0 (m : List Host.Cell) : (s.setMem m).arg0 = s.arg0 := rfl
@[simp] theorem State.setMem_result (m : List Host.Cell) : (s.setMem m).result = s.result := rfl
@[simp] theorem State.setMem_filter0 (m : List Host.Cell) : (s.setMem m).filter0 = s.filter0 := rfl
@[simp] theorem State.setMem_filter1 (m : List Host.Cell) : (s.setMem m).filter1 = s.filter1 := rfl
@[simp] theorem State.setMem_filter2 (m : List Host.Cell) : (s.setMem m).filter2 = s.filter2 := rfl
@[simp] theorem State.setMem_filter3 (m : List Host.Cell) : (s.setMem m).filter3 = s.filter3 := rfl
@[simp] theorem State.setMem_err (m : List Host.Cell) : (s.setMem m).err = s.err := rfl
@[simp] theorem State.setMem_cv (m : List Host.Cell) : (s.setMem m).cv = s.cv := rfl
@[simp] theorem State.setMem_mode (m : List Host.Cell) : (s.setMem m).mode = s.mode := rfl
@[simp] theorem State.setMem_bytePos (m : List Host.Cell) : (s.setMem m).bytePos = s.bytePos := rfl
@[simp] theorem State.setMem_bitPos (m : List Host.Cell) : (s.setMem m).bitPos = s.bitPos := rfl
@[simp] theorem State.setMem_limit (m : List Host.Cell) : (s.setMem m).limit = s.limit := rfl
@[simp] theorem State.setMem_msgIn (m : List Host.Cell) : (s.setMem m).msgIn = s.msgIn := rfl
@[simp] theorem State.setMem_msgOut (m : List Host.Cell) : (s.setMem m).msgOut = s.msgOut := rfl
@[simp] theorem State.setMem_pending (m : List Host.Cell) : (s.setMem m).pending = s.pending := rfl
@[simp] theorem State.setMem_hostRead (m : List Host.Cell) : (s.setMem m).hostRead = s.hostRead := rfl
@[simp] theorem State.setMem_hostTaken (m : List Host.Cell) : (s.setMem m).hostTaken = s.hostTaken := rfl
@[simp] theorem State.setMem_busError (m : List Host.Cell) : (s.setMem m).busError = s.busError := rfl

/-! ### State.setCursor -/

@[simp] theorem State.setCursor_mem (p : Nat) : (s.setCursor p).mem = s.mem := rfl
@[simp] theorem State.setCursor_arg0 (p : Nat) : (s.setCursor p).arg0 = s.arg0 := rfl
@[simp] theorem State.setCursor_result (p : Nat) : (s.setCursor p).result = s.result := rfl
@[simp] theorem State.setCursor_filter0 (p : Nat) : (s.setCursor p).filter0 = s.filter0 := rfl
@[simp] theorem State.setCursor_filter1 (p : Nat) : (s.setCursor p).filter1 = s.filter1 := rfl
@[simp] theorem State.setCursor_filter2 (p : Nat) : (s.setCursor p).filter2 = s.filter2 := rfl
@[simp] theorem State.setCursor_filter3 (p : Nat) : (s.setCursor p).filter3 = s.filter3 := rfl
@[simp] theorem State.setCursor_err (p : Nat) : (s.setCursor p).err = s.err := rfl
@[simp] theorem State.setCursor_cv (p : Nat) : (s.setCursor p).cv = s.cv := rfl
@[simp] theorem State.setCursor_mode (p : Nat) : (s.setCursor p).mode = s.mode := rfl
@[simp] theorem State.setCursor_bytePos (p : Nat) : (s.setCursor p).bytePos = p / 8 := rfl
@[simp] theorem State.setCursor_bitPos (p : Nat) : (s.setCursor p).bitPos = p % 8 := rfl
@[simp] theorem State.setCursor_limit (p : Nat) : (s.setCursor p).limit = s.limit := rfl
@[simp] theorem State.setCursor_msgIn (p : Nat) : (s.setCursor p).msgIn = s.msgIn := rfl
@[simp] theorem State.setCursor_msgOut (p : Nat) : (s.setCursor p).msgOut = s.msgOut := rfl
@[simp] theorem State.setCursor_pending (p : Nat) : (s.setCursor p).pending = s.pending := rfl
@[simp] theorem State.setCursor_hostRead (p : Nat) : (s.setCursor p).hostRead = s.hostRead := rfl
@[simp] theorem State.setCursor_hostTaken (p : Nat) : (s.setCursor p).hostTaken = s.hostTaken := rfl
@[simp] theorem State.setCursor_busError (p : Nat) : (s.setCursor p).busError = s.busError := rfl

/-! ### State.openSlice -/

@[simp] theorem State.openSlice_mem (n : Nat) : (s.openSlice n).mem = s.mem := rfl
@[simp] theorem State.openSlice_arg0 (n : Nat) : (s.openSlice n).arg0 = s.arg0 := rfl
@[simp] theorem State.openSlice_result (n : Nat) : (s.openSlice n).result = s.result := rfl
@[simp] theorem State.openSlice_filter0 (n : Nat) : (s.openSlice n).filter0 = s.filter0 := rfl
@[simp] theorem State.openSlice_filter1 (n : Nat) : (s.openSlice n).filter1 = s.filter1 := rfl
@[simp] theorem State.openSlice_filter2 (n : Nat) : (s.openSlice n).filter2 = s.filter2 := rfl
@[simp] theorem State.openSlice_filter3 (n : Nat) : (s.openSlice n).filter3 = s.filter3 := rfl
@[simp] theorem State.openSlice_err (n : Nat) : (s.openSlice n).err = s.err := rfl
@[simp] theorem State.openSlice_cv (n : Nat) : (s.openSlice n).cv = s.cv := rfl
@[simp] theorem State.openSlice_mode (n : Nat) : (s.openSlice n).mode = s.mode := rfl
@[simp] theorem State.openSlice_bytePos (n : Nat) : (s.openSlice n).bytePos = 0 := rfl
@[simp] theorem State.openSlice_bitPos (n : Nat) : (s.openSlice n).bitPos = 0 := rfl
@[simp] theorem State.openSlice_limit (n : Nat) : (s.openSlice n).limit = n := rfl
@[simp] theorem State.openSlice_msgIn (n : Nat) : (s.openSlice n).msgIn = s.msgIn := rfl
@[simp] theorem State.openSlice_msgOut (n : Nat) : (s.openSlice n).msgOut = s.msgOut := rfl
@[simp] theorem State.openSlice_pending (n : Nat) : (s.openSlice n).pending = s.pending := rfl
@[simp] theorem State.openSlice_hostRead (n : Nat) : (s.openSlice n).hostRead = s.hostRead := rfl
@[simp] theorem State.openSlice_hostTaken (n : Nat) : (s.openSlice n).hostTaken = s.hostTaken := rfl
@[simp] theorem State.openSlice_busError (n : Nat) : (s.openSlice n).busError = s.busError := rfl

/-! ### State.setMode -/

@[simp] theorem State.setMode_mem (m : Mode) : (s.setMode m).mem = s.mem := rfl
@[simp] theorem State.setMode_arg0 (m : Mode) : (s.setMode m).arg0 = s.arg0 := rfl
@[simp] theorem State.setMode_result (m : Mode) : (s.setMode m).result = s.result := rfl
@[simp] theorem State.setMode_filter0 (m : Mode) : (s.setMode m).filter0 = s.filter0 := rfl
@[simp] theorem State.setMode_filter1 (m : Mode) : (s.setMode m).filter1 = s.filter1 := rfl
@[simp] theorem State.setMode_filter2 (m : Mode) : (s.setMode m).filter2 = s.filter2 := rfl
@[simp] theorem State.setMode_filter3 (m : Mode) : (s.setMode m).filter3 = s.filter3 := rfl
@[simp] theorem State.setMode_err (m : Mode) : (s.setMode m).err = s.err := rfl
@[simp] theorem State.setMode_cv (m : Mode) : (s.setMode m).cv = s.cv := rfl
@[simp] theorem State.setMode_mode (m : Mode) : (s.setMode m).mode = m := rfl
@[simp] theorem State.setMode_bytePos (m : Mode) : (s.setMode m).bytePos = s.bytePos := rfl
@[simp] theorem State.setMode_bitPos (m : Mode) : (s.setMode m).bitPos = s.bitPos := rfl
@[simp] theorem State.setMode_limit (m : Mode) : (s.setMode m).limit = s.limit := rfl
@[simp] theorem State.setMode_msgIn (m : Mode) : (s.setMode m).msgIn = s.msgIn := rfl
@[simp] theorem State.setMode_msgOut (m : Mode) : (s.setMode m).msgOut = s.msgOut := rfl
@[simp] theorem State.setMode_pending (m : Mode) : (s.setMode m).pending = s.pending := rfl
@[simp] theorem State.setMode_hostRead (m : Mode) : (s.setMode m).hostRead = s.hostRead := rfl
@[simp] theorem State.setMode_hostTaken (m : Mode) : (s.setMode m).hostTaken = s.hostTaken := rfl
@[simp] theorem State.setMode_busError (m : Mode) : (s.setMode m).busError = s.busError := rfl

/-! ### State.flagIf -/

@[simp] theorem State.flagIf_mem (v : Bool) : (s.flagIf v).mem = s.mem := rfl
@[simp] theorem State.flagIf_arg0 (v : Bool) : (s.flagIf v).arg0 = s.arg0 := rfl
@[simp] theorem State.flagIf_result (v : Bool) : (s.flagIf v).result = s.result := rfl
@[simp] theorem State.flagIf_filter0 (v : Bool) : (s.flagIf v).filter0 = s.filter0 := rfl
@[simp] theorem State.flagIf_filter1 (v : Bool) : (s.flagIf v).filter1 = s.filter1 := rfl
@[simp] theorem State.flagIf_filter2 (v : Bool) : (s.flagIf v).filter2 = s.filter2 := rfl
@[simp] theorem State.flagIf_filter3 (v : Bool) : (s.flagIf v).filter3 = s.filter3 := rfl
@[simp] theorem State.flagIf_err (v : Bool) : (s.flagIf v).err = s.err := rfl
@[simp] theorem State.flagIf_cv (v : Bool) : (s.flagIf v).cv = (s.cv || v) := rfl
@[simp] theorem State.flagIf_mode (v : Bool) : (s.flagIf v).mode = s.mode := rfl
@[simp] theorem State.flagIf_bytePos (v : Bool) : (s.flagIf v).bytePos = s.bytePos := rfl
@[simp] theorem State.flagIf_bitPos (v : Bool) : (s.flagIf v).bitPos = s.bitPos := rfl
@[simp] theorem State.flagIf_limit (v : Bool) : (s.flagIf v).limit = s.limit := rfl
@[simp] theorem State.flagIf_msgIn (v : Bool) : (s.flagIf v).msgIn = s.msgIn := rfl
@[simp] theorem State.flagIf_msgOut (v : Bool) : (s.flagIf v).msgOut = s.msgOut := rfl
@[simp] theorem State.flagIf_pending (v : Bool) : (s.flagIf v).pending = s.pending := rfl
@[simp] theorem State.flagIf_hostRead (v : Bool) : (s.flagIf v).hostRead = s.hostRead := rfl
@[simp] theorem State.flagIf_hostTaken (v : Bool) : (s.flagIf v).hostTaken = s.hostTaken := rfl
@[simp] theorem State.flagIf_busError (v : Bool) : (s.flagIf v).busError = s.busError := rfl

/-! ### State.setMsgOut -/

@[simp] theorem State.setMsgOut_mem (m : Option Message) : (s.setMsgOut m).mem = s.mem := rfl
@[simp] theorem State.setMsgOut_arg0 (m : Option Message) : (s.setMsgOut m).arg0 = s.arg0 := rfl
@[simp] theorem State.setMsgOut_result (m : Option Message) : (s.setMsgOut m).result = s.result := rfl
@[simp] theorem State.setMsgOut_filter0 (m : Option Message) : (s.setMsgOut m).filter0 = s.filter0 := rfl
@[simp] theorem State.setMsgOut_filter1 (m : Option Message) : (s.setMsgOut m).filter1 = s.filter1 := rfl
@[simp] theorem State.setMsgOut_filter2 (m : Option Message) : (s.setMsgOut m).filter2 = s.filter2 := rfl
@[simp] theorem State.setMsgOut_filter3 (m : Option Message) : (s.setMsgOut m).filter3 = s.filter3 := rfl
@[simp] theorem State.setMsgOut_err (m : Option Message) : (s.setMsgOut m).err = s.err := rfl
@[simp] theorem State.setMsgOut_cv (m : Option Message) : (s.setMsgOut m).cv = s.cv := rfl
@[simp] theorem State.setMsgOut_mode (m : Option Message) : (s.setMsgOut m).mode = s.mode := rfl
@[simp] theorem State.setMsgOut_bytePos (m : Option Message) : (s.setMsgOut m).bytePos = s.bytePos := rfl
@[simp] theorem State.setMsgOut_bitPos (m : Option Message) : (s.setMsgOut m).bitPos = s.bitPos := rfl
@[simp] theorem State.setMsgOut_limit (m : Option Message) : (s.setMsgOut m).limit = s.limit := rfl
@[simp] theorem State.setMsgOut_msgIn (m : Option Message) : (s.setMsgOut m).msgIn = s.msgIn := rfl
@[simp] theorem State.setMsgOut_msgOut (m : Option Message) : (s.setMsgOut m).msgOut = m := rfl
@[simp] theorem State.setMsgOut_pending (m : Option Message) : (s.setMsgOut m).pending = s.pending := rfl
@[simp] theorem State.setMsgOut_hostRead (m : Option Message) : (s.setMsgOut m).hostRead = s.hostRead := rfl
@[simp] theorem State.setMsgOut_hostTaken (m : Option Message) : (s.setMsgOut m).hostTaken = s.hostTaken := rfl
@[simp] theorem State.setMsgOut_busError (m : Option Message) : (s.setMsgOut m).busError = s.busError := rfl

/-! ### State.succeed -/

@[simp] theorem State.succeed_mem (r : Word) : (s.succeed r).mem = s.mem := rfl
@[simp] theorem State.succeed_arg0 (r : Word) : (s.succeed r).arg0 = s.arg0 := rfl
@[simp] theorem State.succeed_result (r : Word) : (s.succeed r).result = r := rfl
@[simp] theorem State.succeed_filter0 (r : Word) : (s.succeed r).filter0 = s.filter0 := rfl
@[simp] theorem State.succeed_filter1 (r : Word) : (s.succeed r).filter1 = s.filter1 := rfl
@[simp] theorem State.succeed_filter2 (r : Word) : (s.succeed r).filter2 = s.filter2 := rfl
@[simp] theorem State.succeed_filter3 (r : Word) : (s.succeed r).filter3 = s.filter3 := rfl
@[simp] theorem State.succeed_err (r : Word) : (s.succeed r).err = none := rfl
@[simp] theorem State.succeed_cv (r : Word) : (s.succeed r).cv = s.cv := rfl
@[simp] theorem State.succeed_mode (r : Word) : (s.succeed r).mode = s.mode := rfl
@[simp] theorem State.succeed_bytePos (r : Word) : (s.succeed r).bytePos = s.bytePos := rfl
@[simp] theorem State.succeed_bitPos (r : Word) : (s.succeed r).bitPos = s.bitPos := rfl
@[simp] theorem State.succeed_limit (r : Word) : (s.succeed r).limit = s.limit := rfl
@[simp] theorem State.succeed_msgIn (r : Word) : (s.succeed r).msgIn = s.msgIn := rfl
@[simp] theorem State.succeed_msgOut (r : Word) : (s.succeed r).msgOut = s.msgOut := rfl
@[simp] theorem State.succeed_pending (r : Word) : (s.succeed r).pending = s.pending := rfl
@[simp] theorem State.succeed_hostRead (r : Word) : (s.succeed r).hostRead = s.hostRead := rfl
@[simp] theorem State.succeed_hostTaken (r : Word) : (s.succeed r).hostTaken = s.hostTaken := rfl
@[simp] theorem State.succeed_busError (r : Word) : (s.succeed r).busError = s.busError := rfl

/-! ### State.raise -/

@[simp] theorem State.raise_mem (e : Error) : (s.raise e).mem = s.mem := rfl
@[simp] theorem State.raise_arg0 (e : Error) : (s.raise e).arg0 = s.arg0 := rfl
@[simp] theorem State.raise_result (e : Error) : (s.raise e).result = 0 := rfl
@[simp] theorem State.raise_filter0 (e : Error) : (s.raise e).filter0 = s.filter0 := rfl
@[simp] theorem State.raise_filter1 (e : Error) : (s.raise e).filter1 = s.filter1 := rfl
@[simp] theorem State.raise_filter2 (e : Error) : (s.raise e).filter2 = s.filter2 := rfl
@[simp] theorem State.raise_filter3 (e : Error) : (s.raise e).filter3 = s.filter3 := rfl
@[simp] theorem State.raise_err (e : Error) : (s.raise e).err = some e := rfl
@[simp] theorem State.raise_cv (e : Error) : (s.raise e).cv = s.cv := rfl
@[simp] theorem State.raise_mode (e : Error) : (s.raise e).mode = s.mode := rfl
@[simp] theorem State.raise_bytePos (e : Error) : (s.raise e).bytePos = s.bytePos := rfl
@[simp] theorem State.raise_bitPos (e : Error) : (s.raise e).bitPos = s.bitPos := rfl
@[simp] theorem State.raise_limit (e : Error) : (s.raise e).limit = s.limit := rfl
@[simp] theorem State.raise_msgIn (e : Error) : (s.raise e).msgIn = s.msgIn := rfl
@[simp] theorem State.raise_msgOut (e : Error) : (s.raise e).msgOut = s.msgOut := rfl
@[simp] theorem State.raise_pending (e : Error) : (s.raise e).pending = s.pending := rfl
@[simp] theorem State.raise_hostRead (e : Error) : (s.raise e).hostRead = s.hostRead := rfl
@[simp] theorem State.raise_hostTaken (e : Error) : (s.raise e).hostTaken = s.hostTaken := rfl
@[simp] theorem State.raise_busError (e : Error) : (s.raise e).busError = s.busError := rfl

/-! ### State.raiseDecode -/

@[simp] theorem State.raiseDecode_mem (e : Error) : (s.raiseDecode e).mem = s.mem := rfl
@[simp] theorem State.raiseDecode_arg0 (e : Error) : (s.raiseDecode e).arg0 = s.arg0 := rfl
@[simp] theorem State.raiseDecode_result (e : Error) : (s.raiseDecode e).result = 0 := rfl
@[simp] theorem State.raiseDecode_filter0 (e : Error) : (s.raiseDecode e).filter0 = s.filter0 := rfl
@[simp] theorem State.raiseDecode_filter1 (e : Error) : (s.raiseDecode e).filter1 = s.filter1 := rfl
@[simp] theorem State.raiseDecode_filter2 (e : Error) : (s.raiseDecode e).filter2 = s.filter2 := rfl
@[simp] theorem State.raiseDecode_filter3 (e : Error) : (s.raiseDecode e).filter3 = s.filter3 := rfl
@[simp] theorem State.raiseDecode_err (e : Error) : (s.raiseDecode e).err = some e := rfl
@[simp] theorem State.raiseDecode_cv (e : Error) : (s.raiseDecode e).cv = s.cv := rfl
@[simp] theorem State.raiseDecode_mode (e : Error) : (s.raiseDecode e).mode = s.mode := rfl
@[simp] theorem State.raiseDecode_bytePos (e : Error) : (s.raiseDecode e).bytePos = s.bytePos := rfl
@[simp] theorem State.raiseDecode_bitPos (e : Error) : (s.raiseDecode e).bitPos = s.bitPos := rfl
@[simp] theorem State.raiseDecode_limit (e : Error) : (s.raiseDecode e).limit = s.limit := rfl
@[simp] theorem State.raiseDecode_msgIn (e : Error) : (s.raiseDecode e).msgIn = s.msgIn := rfl
@[simp] theorem State.raiseDecode_msgOut (e : Error) : (s.raiseDecode e).msgOut = none := rfl
@[simp] theorem State.raiseDecode_pending (e : Error) : (s.raiseDecode e).pending = s.pending := rfl
@[simp] theorem State.raiseDecode_hostRead (e : Error) : (s.raiseDecode e).hostRead = s.hostRead := rfl
@[simp] theorem State.raiseDecode_hostTaken (e : Error) : (s.raiseDecode e).hostTaken = s.hostTaken := rfl
@[simp] theorem State.raiseDecode_busError (e : Error) : (s.raiseDecode e).busError = s.busError := rfl

/-! ### State.setWbuf -/

@[simp] theorem State.setWbuf_mem (i : Nat) (v : Byte) :
    (s.setWbuf i v).mem = Memory.write s.mem (Config.wbufBase + i) v := rfl
@[simp] theorem State.setWbuf_arg0 (i : Nat) (v : Byte) : (s.setWbuf i v).arg0 = s.arg0 := rfl
@[simp] theorem State.setWbuf_result (i : Nat) (v : Byte) : (s.setWbuf i v).result = s.result := rfl
@[simp] theorem State.setWbuf_filter0 (i : Nat) (v : Byte) : (s.setWbuf i v).filter0 = s.filter0 := rfl
@[simp] theorem State.setWbuf_filter1 (i : Nat) (v : Byte) : (s.setWbuf i v).filter1 = s.filter1 := rfl
@[simp] theorem State.setWbuf_filter2 (i : Nat) (v : Byte) : (s.setWbuf i v).filter2 = s.filter2 := rfl
@[simp] theorem State.setWbuf_filter3 (i : Nat) (v : Byte) : (s.setWbuf i v).filter3 = s.filter3 := rfl
@[simp] theorem State.setWbuf_err (i : Nat) (v : Byte) : (s.setWbuf i v).err = s.err := rfl
@[simp] theorem State.setWbuf_cv (i : Nat) (v : Byte) : (s.setWbuf i v).cv = s.cv := rfl
@[simp] theorem State.setWbuf_mode (i : Nat) (v : Byte) : (s.setWbuf i v).mode = s.mode := rfl
@[simp] theorem State.setWbuf_bytePos (i : Nat) (v : Byte) : (s.setWbuf i v).bytePos = s.bytePos := rfl
@[simp] theorem State.setWbuf_bitPos (i : Nat) (v : Byte) : (s.setWbuf i v).bitPos = s.bitPos := rfl
@[simp] theorem State.setWbuf_limit (i : Nat) (v : Byte) : (s.setWbuf i v).limit = s.limit := rfl
@[simp] theorem State.setWbuf_msgIn (i : Nat) (v : Byte) : (s.setWbuf i v).msgIn = s.msgIn := rfl
@[simp] theorem State.setWbuf_msgOut (i : Nat) (v : Byte) : (s.setWbuf i v).msgOut = s.msgOut := rfl
@[simp] theorem State.setWbuf_pending (i : Nat) (v : Byte) : (s.setWbuf i v).pending = s.pending := rfl
@[simp] theorem State.setWbuf_hostRead (i : Nat) (v : Byte) : (s.setWbuf i v).hostRead = s.hostRead := rfl
@[simp] theorem State.setWbuf_hostTaken (i : Nat) (v : Byte) : (s.setWbuf i v).hostTaken = s.hostTaken := rfl
@[simp] theorem State.setWbuf_busError (i : Nat) (v : Byte) : (s.setWbuf i v).busError = s.busError := rfl

/-! ### State.storeWbuf -/

@[simp] theorem State.storeWbuf_mem (bs : List Byte) :
    (s.storeWbuf bs).mem = Memory.writeBytes s.mem Config.wbufBase bs := rfl
@[simp] theorem State.storeWbuf_arg0 (bs : List Byte) : (s.storeWbuf bs).arg0 = s.arg0 := rfl
@[simp] theorem State.storeWbuf_result (bs : List Byte) : (s.storeWbuf bs).result = s.result := rfl
@[simp] theorem State.storeWbuf_filter0 (bs : List Byte) : (s.storeWbuf bs).filter0 = s.filter0 := rfl
@[simp] theorem State.storeWbuf_filter1 (bs : List Byte) : (s.storeWbuf bs).filter1 = s.filter1 := rfl
@[simp] theorem State.storeWbuf_filter2 (bs : List Byte) : (s.storeWbuf bs).filter2 = s.filter2 := rfl
@[simp] theorem State.storeWbuf_filter3 (bs : List Byte) : (s.storeWbuf bs).filter3 = s.filter3 := rfl
@[simp] theorem State.storeWbuf_err (bs : List Byte) : (s.storeWbuf bs).err = s.err := rfl
@[simp] theorem State.storeWbuf_cv (bs : List Byte) : (s.storeWbuf bs).cv = s.cv := rfl
@[simp] theorem State.storeWbuf_mode (bs : List Byte) : (s.storeWbuf bs).mode = s.mode := rfl
@[simp] theorem State.storeWbuf_bytePos (bs : List Byte) : (s.storeWbuf bs).bytePos = s.bytePos := rfl
@[simp] theorem State.storeWbuf_bitPos (bs : List Byte) : (s.storeWbuf bs).bitPos = s.bitPos := rfl
@[simp] theorem State.storeWbuf_limit (bs : List Byte) : (s.storeWbuf bs).limit = s.limit := rfl
@[simp] theorem State.storeWbuf_msgIn (bs : List Byte) : (s.storeWbuf bs).msgIn = s.msgIn := rfl
@[simp] theorem State.storeWbuf_msgOut (bs : List Byte) : (s.storeWbuf bs).msgOut = s.msgOut := rfl
@[simp] theorem State.storeWbuf_pending (bs : List Byte) : (s.storeWbuf bs).pending = s.pending := rfl
@[simp] theorem State.storeWbuf_hostRead (bs : List Byte) : (s.storeWbuf bs).hostRead = s.hostRead := rfl
@[simp] theorem State.storeWbuf_hostTaken (bs : List Byte) : (s.storeWbuf bs).hostTaken = s.hostTaken := rfl
@[simp] theorem State.storeWbuf_busError (bs : List Byte) : (s.storeWbuf bs).busError = s.busError := rfl

/-! ### State.storePayload -/

@[simp] theorem State.storePayload_mem (bs : List Byte) :
    (s.storePayload bs).mem = Memory.writeBytes s.mem Config.payloadBase bs := rfl
@[simp] theorem State.storePayload_arg0 (bs : List Byte) : (s.storePayload bs).arg0 = s.arg0 := rfl
@[simp] theorem State.storePayload_result (bs : List Byte) : (s.storePayload bs).result = s.result := rfl
@[simp] theorem State.storePayload_filter0 (bs : List Byte) : (s.storePayload bs).filter0 = s.filter0 := rfl
@[simp] theorem State.storePayload_filter1 (bs : List Byte) : (s.storePayload bs).filter1 = s.filter1 := rfl
@[simp] theorem State.storePayload_filter2 (bs : List Byte) : (s.storePayload bs).filter2 = s.filter2 := rfl
@[simp] theorem State.storePayload_filter3 (bs : List Byte) : (s.storePayload bs).filter3 = s.filter3 := rfl
@[simp] theorem State.storePayload_err (bs : List Byte) : (s.storePayload bs).err = s.err := rfl
@[simp] theorem State.storePayload_cv (bs : List Byte) : (s.storePayload bs).cv = s.cv := rfl
@[simp] theorem State.storePayload_mode (bs : List Byte) : (s.storePayload bs).mode = s.mode := rfl
@[simp] theorem State.storePayload_bytePos (bs : List Byte) : (s.storePayload bs).bytePos = s.bytePos := rfl
@[simp] theorem State.storePayload_bitPos (bs : List Byte) : (s.storePayload bs).bitPos = s.bitPos := rfl
@[simp] theorem State.storePayload_limit (bs : List Byte) : (s.storePayload bs).limit = s.limit := rfl
@[simp] theorem State.storePayload_msgIn (bs : List Byte) : (s.storePayload bs).msgIn = s.msgIn := rfl
@[simp] theorem State.storePayload_msgOut (bs : List Byte) : (s.storePayload bs).msgOut = s.msgOut := rfl
@[simp] theorem State.storePayload_pending (bs : List Byte) : (s.storePayload bs).pending = s.pending := rfl
@[simp] theorem State.storePayload_hostRead (bs : List Byte) : (s.storePayload bs).hostRead = s.hostRead := rfl
@[simp] theorem State.storePayload_hostTaken (bs : List Byte) :
    (s.storePayload bs).hostTaken = s.hostTaken := rfl
@[simp] theorem State.storePayload_busError (bs : List Byte) : (s.storePayload bs).busError = s.busError := rfl

end Sys2Proof.Machine
end

