-- ==== Sys2Proof/Laws/Memory.lean ====
section
/-! SUPPORT. The laws of the buffers: read after write, the canonical form, and that equal contents are equal lists. -/

namespace Sys2Proof.Machine

theorem Memory.wfFrom_cons {lo a : Nat} {x : Byte} {m : List Host.Cell} :
    Memory.wfFrom lo ((a, x) :: m) = true ↔
      lo ≤ a ∧ a < 0x60 ∧ x ≠ Config.unlistedByte ∧ Memory.wfFrom (a + 1) m = true := by
  simp [Memory.wfFrom, and_assoc]

theorem Memory.wfFrom_mono {lo lo' : Nat} {m : List Host.Cell} (h : Memory.wfFrom lo m = true) (hl : lo' ≤ lo) :
    Memory.wfFrom lo' m = true := by
  cases m with
  | nil => rfl
  | cons c m =>
    obtain ⟨a, x⟩ := c
    rw [Memory.wfFrom_cons] at h ⊢
    exact ⟨by omega, h.2⟩

/-- Below its first address a canonical memory lists nothing. -/
theorem Memory.read_below {lo a : Nat} {m : List Host.Cell} (h : Memory.wfFrom lo m = true) (ha : a < lo) :
    Memory.read m a = Config.unlistedByte := by
  cases m with
  | nil => rfl
  | cons c m =>
    obtain ⟨b, x⟩ := c
    rw [Memory.wfFrom_cons] at h
    simp only [Memory.read]
    rw [if_neg (by omega), if_pos (by omega)]

/-- A read after a write to the same place gives the value written. -/
theorem Memory.read_write_same {lo a : Nat} {v : Byte} {m : List Host.Cell} (h : Memory.wfFrom lo m = true) :
    Memory.read (Memory.write m a v) a = v := by
  induction m generalizing lo with
  | nil =>
    simp only [Memory.write]
    split <;> simp_all [Memory.read]
  | cons c m ih =>
    obtain ⟨b, x⟩ := c
    rw [Memory.wfFrom_cons] at h
    simp only [Memory.write]
    split
    · rename_i hab
      split
      · rename_i hv
        simp only [Memory.read]
        rw [if_neg (by omega), if_pos hab, hv]
      · simp [Memory.read]
    · split
      · rename_i hab
        split
        · rename_i hv
          rw [Memory.read_below h.2.2.2 (by omega), hv]
        · simp [Memory.read]
      · rename_i h1 h2
        simp only [Memory.read]
        rw [if_neg h2, if_neg h1, ih h.2.2.2]

/-- A write leaves every other place alone. -/
theorem Memory.read_write_other {lo a a' : Nat} {v : Byte} {m : List Host.Cell} (h : Memory.wfFrom lo m = true)
    (ha : a' ≠ a) : Memory.read (Memory.write m a v) a' = Memory.read m a' := by
  induction m generalizing lo with
  | nil =>
    simp only [Memory.write]
    split <;> simp [Memory.read, ha]
  | cons c m ih =>
    obtain ⟨b, x⟩ := c
    rw [Memory.wfFrom_cons] at h
    simp only [Memory.write]
    split
    · split
      · rfl
      · simp only [Memory.read]
        rw [if_neg ha]
        split
        · rw [if_neg (by omega), if_pos (by omega)]
        · rfl
    · split
      · rename_i hab
        subst hab
        split
        · simp only [Memory.read]
          rw [if_neg ha]
          split
          · rw [Memory.read_below h.2.2.2 (by omega)]
          · rfl
        · simp [Memory.read, ha]
      · simp only [Memory.read]
        rw [ih h.2.2.2]

theorem Memory.read_write {lo a a' : Nat} {v : Byte} {m : List Host.Cell} (h : Memory.wfFrom lo m = true) :
    Memory.read (Memory.write m a v) a' = if a' = a then v else Memory.read m a' := by
  split
  · rename_i e; rw [e, Memory.read_write_same h]
  · rename_i e; exact Memory.read_write_other h e

theorem Memory.wfFrom_write {lo a : Nat} {v : Byte} {m : List Host.Cell} (h : Memory.wfFrom lo m = true)
    (h1 : lo ≤ a) (h2 : a < 0x60) : Memory.wfFrom lo (Memory.write m a v) = true := by
  induction m generalizing lo with
  | nil =>
    simp only [Memory.write]
    split
    · rfl
    · rw [Memory.wfFrom_cons]
      exact ⟨h1, h2, ‹_›, rfl⟩
  | cons c m ih =>
    obtain ⟨b, x⟩ := c
    have h' := h
    rw [Memory.wfFrom_cons] at h
    simp only [Memory.write]
    split
    · split
      · exact h'
      · rw [Memory.wfFrom_cons, Memory.wfFrom_cons]
        exact ⟨h1, h2, ‹_›, by omega, h.2⟩
    · split
      · rename_i hab
        split
        · exact Memory.wfFrom_mono h.2.2.2 (by omega)
        · rw [Memory.wfFrom_cons]
          exact ⟨h1, h2, ‹_›, hab ▸ h.2.2.2⟩
      · rw [Memory.wfFrom_cons]
        exact ⟨h.1, h.2.1, h.2.2.1, ih h.2.2.2 (by omega)⟩

/-- A write to a buffer byte keeps the canonical form. -/
theorem Memory.wf_write {a : Nat} {v : Byte} {m : List Host.Cell} (h : Memory.wf m = true)
    (h1 : 0x20 ≤ a) (h2 : a < 0x60) : Memory.wf (Memory.write m a v) = true :=
  Memory.wfFrom_write h h1 h2

theorem Memory.wf_writeBytes {a : Nat} {bs : List Byte} {m : List Host.Cell} (h : Memory.wf m = true)
    (h1 : 0x20 ≤ a) (h2 : a + bs.length ≤ 0x60) : Memory.wf (Memory.writeBytes m a bs) = true := by
  induction bs generalizing m a with
  | nil => exact h
  | cons b bs ih =>
    simp only [List.length_cons] at h2
    exact ih (Memory.wf_write h h1 (by omega)) (by omega) (by omega)

/-- After a store of consecutive bytes, each stored place holds its byte and every other place is as before. -/
theorem Memory.read_writeBytes {a a' : Nat} {bs : List Byte} {m : List Host.Cell} (h : Memory.wf m = true)
    (h1 : 0x20 ≤ a) (h2 : a + bs.length ≤ 0x60) :
    Memory.read (Memory.writeBytes m a bs) a' =
      if a ≤ a' ∧ a' < a + bs.length then bs.getD (a' - a) 0 else Memory.read m a' := by
  induction bs generalizing m a with
  | nil => simp [Memory.writeBytes]
  | cons b bs ih =>
    simp only [List.length_cons] at h2 ⊢
    rw [Memory.writeBytes, ih (Memory.wf_write h h1 (by omega)) (by omega) (by omega), Memory.read_write h]
    by_cases e : a' = a
    · subst e
      rw [if_neg (by omega), if_pos rfl, if_pos (by omega)]
      simp
    · rw [if_neg e]
      by_cases e2 : a + 1 ≤ a' ∧ a' < a + 1 + bs.length
      · rw [if_pos e2, if_pos (by omega), show a' - a = (a' - (a + 1)) + 1 by omega]
        simp
      · rw [if_neg e2, if_neg (by omega)]

/-- Equal contents are equal memories. -/
theorem Memory.ext_of_wf {lo : Nat} {m m' : List Host.Cell} (h : Memory.wfFrom lo m = true)
    (h' : Memory.wfFrom lo m' = true) (e : ∀ a, Memory.read m a = Memory.read m' a) : m = m' := by
  induction m generalizing lo m' with
  | nil =>
    cases m' with
    | nil => rfl
    | cons c m' =>
      obtain ⟨b, x⟩ := c
      rw [Memory.wfFrom_cons] at h'
      have := e b
      simp [Memory.read] at this
      exact absurd this.symm h'.2.2.1
  | cons c m ih =>
    obtain ⟨a, x⟩ := c
    rw [Memory.wfFrom_cons] at h
    cases m' with
    | nil =>
      have := e a
      simp [Memory.read] at this
      exact absurd this h.2.2.1
    | cons c' m' =>
      obtain ⟨b, y⟩ := c'
      rw [Memory.wfFrom_cons] at h'
      have hab : a = b := by
        rcases Nat.lt_trichotomy a b with hl | he | hg
        · have := e a
          simp only [Memory.read, if_true] at this
          rw [if_neg (by omega), if_pos hl] at this
          exact absurd this h.2.2.1
        · exact he
        · have := e b
          simp only [Memory.read, if_true] at this
          rw [if_neg (by omega), if_pos hg] at this
          exact absurd this.symm h'.2.2.1
      subst hab
      have hxy : x = y := by have := e a; simpa [Memory.read] using this
      subst hxy
      congr 1
      refine ih h.2.2.2 h'.2.2.2 fun a' => ?_
      have := e a'
      simp only [Memory.read] at this
      rcases Nat.lt_or_ge a' (a + 1) with hl | hg
      · rw [Memory.read_below h.2.2.2 hl, Memory.read_below h'.2.2.2 hl]
      · rwa [if_neg (by omega), if_neg (by omega), if_neg (by omega), if_neg (by omega)] at this

theorem Memory.wf_reset : Memory.wf State.reset.mem = true := rfl

end Sys2Proof.Machine
end

