-- ==== Sys2Proof/Laws/Stream.lean ====
section
/-! SUPPORT. What the two primitives do to the stream (spec/40_bit_codec.md R152, R162): one lemma each for a bit, a
field's bits, BitWrite and an encoder, and for a run of a decoder. -/

namespace Sys2Proof.Machine

theorem putBit_getLsbD (x : Byte) (i j : Nat) (b : Bool) (hi : i < 8) :
    (putBit x i b).getLsbD j = if j = i then b else x.getLsbD j := by
  unfold putBit
  by_cases hj : j < 8
  · by_cases h : j = i
    · subst h; cases b <;> simp [hj]
    · cases b <;> simp [hj, h]
  · have h1 : (putBit x i b).getLsbD j = false := BitVec.getLsbD_of_ge _ _ (by omega)
    unfold putBit at h1
    rw [h1, if_neg (by omega), BitVec.getLsbD_of_ge _ _ (by omega)]

theorem State.streamBit_setCursor (s : State) (p q : Nat) : (s.setCursor p).streamBit q = s.streamBit q := rfl

@[simp] theorem State.bitsFrom_length (s : State) (p n : Nat) : (s.bitsFrom p n).length = n := by
  simp [State.bitsFrom]

theorem State.bitsFrom_getElem? (s : State) (p n i : Nat) (h : i < n) :
    (s.bitsFrom p n)[i]? = some (s.streamBit (p + i)) := by
  simp [State.bitsFrom, h]

theorem State.bitsFrom_add (s : State) (p n k : Nat) :
    s.bitsFrom p (n + k) = s.bitsFrom p n ++ s.bitsFrom (p + n) k := by
  simp [State.bitsFrom, List.range_add, Function.comp_def, Nat.add_assoc]

@[simp] theorem State.bitsFrom_zero (s : State) (p : Nat) : s.bitsFrom p 0 = [] := rfl

@[simp] theorem State.unread_length (s : State) : s.unread.length = 8 * s.limit - s.cursor := by
  simp [State.unread]

theorem State.unread_drop (s : State) (n : Nat) (h : s.cursor + n ≤ 8 * s.limit) :
    s.unread = s.bitsFrom s.cursor n ++ s.bitsFrom (s.cursor + n) (8 * s.limit - (s.cursor + n)) := by
  unfold State.unread
  rw [← State.bitsFrom_add]
  congr 1
  omega

@[simp] theorem State.setCursor_cursor (s : State) (p : Nat) : (s.setCursor p).cursor = p := by
  simp only [State.cursor, State.setCursor_bytePos, State.setCursor_bitPos]
  omega

@[simp] theorem State.openSlice_cursor (s : State) (n : Nat) : (s.openSlice n).cursor = 0 := rfl

@[simp] theorem State.flagIf_cursor (s : State) (v : Bool) : (s.flagIf v).cursor = s.cursor := rfl

theorem State.cursor_div (s : State) (h : s.bitPos ≤ 7) : s.cursor / 8 = s.bytePos := by
  simp only [State.cursor]; omega

theorem State.cursor_mod (s : State) (h : s.bitPos ≤ 7) : s.cursor % 8 = s.bitPos := by
  simp only [State.cursor]; omega

/-- A cursor within its byte is put back where it stands. -/
theorem State.setCursor_self (s : State) (h : s.bitPos ≤ 7) : s.setCursor s.cursor = s := by
  unfold State.setCursor
  rw [State.cursor_div s h, State.cursor_mod s h]

/-- Count() in stream positions: the position rounded up to a byte (R154). -/
theorem State.count_eq (s : State) (h : s.bitPos ≤ 7) : s.count = (s.cursor + 7) / 8 := by
  simp only [State.count, State.cursor]
  split <;> omega

/-- One bit (R152). -/
theorem State.writeBit_spec (s : State) (b : Bool) (hm : Memory.wf s.mem = true) (hb : s.bitPos ≤ 7)
    (hc : s.cursor < 256) :
    ∃ m, s.writeBit b = ({ s with mem := m } : State).setCursor (s.cursor + 1) ∧ Memory.wf m = true ∧
      ∀ p, (s.writeBit b).streamBit p = writtenBit s [b] p := by
  have hbyte : s.bytePos < 32 := by simp only [State.cursor] at hc; omega
  refine ⟨Memory.write s.mem (Config.wbufBase + s.bytePos)
    (putBit (if s.bitPos = 0 then 0 else s.wbuf s.bytePos) (7 - s.bitPos) b), ?_, ?_, ?_⟩
  · unfold State.writeBit State.setCursor
    simp only [State.cursor]
    split
    · rename_i h
      rw [show (8 * s.bytePos + s.bitPos + 1) / 8 = s.bytePos + 1 by omega,
        show (8 * s.bytePos + s.bitPos + 1) % 8 = 0 by omega]
      rfl
    · rename_i h
      rw [show (8 * s.bytePos + s.bitPos + 1) / 8 = s.bytePos by omega,
        show (8 * s.bytePos + s.bitPos + 1) % 8 = s.bitPos + 1 by omega]
      rfl
  · exact Memory.wf_write hm (by simp [Config.wbufBase]) (by simp only [Config.wbufBase]; omega)
  · intro p
    have hmem : (s.writeBit b).mem = Memory.write s.mem (Config.wbufBase + s.bytePos)
        (putBit (if s.bitPos = 0 then 0 else s.wbuf s.bytePos) (7 - s.bitPos) b) := by
      unfold State.writeBit
      by_cases h : s.bitPos + 1 = 8
      · simp only [if_pos h]; rfl
      · simp only [if_neg h]; rfl
    simp only [State.streamBit, State.wbuf, writtenBit, hmem, List.length_singleton]
    rw [Memory.read_write hm]
    by_cases hp : p / 8 = s.bytePos
    · rw [if_pos (by omega), putBit_getLsbD _ _ _ _ (by omega)]
      by_cases hq : p = s.cursor
      · subst hq
        rw [if_pos (by rw [State.cursor_mod s hb]), if_pos (by omega)]
        simp
      · have hmod : p % 8 ≠ s.bitPos := by
          intro h; apply hq; simp only [State.cursor]; omega
        rw [if_neg (show ¬ 7 - p % 8 = 7 - s.bitPos by omega),
          if_neg (show ¬ (s.cursor ≤ p ∧ p < s.cursor + 1) by omega)]
        by_cases h0 : s.bitPos = 0
        · simp only [if_pos h0]
          rw [if_pos (by simp only [State.cursor]; omega)]
          simp
        · simp only [if_neg h0]
          rw [if_neg (by simp only [State.cursor]; omega), hp]
    · rw [if_neg (by omega), if_neg (by simp only [State.cursor]; omega),
        if_neg (by simp only [State.cursor]; omega)]

theorem writtenBit_cons (s t : State) (b : Bool) (bs : Bits) (p : Nat) (hc : t.cursor = s.cursor + 1)
    (ht : ∀ q, t.streamBit q = writtenBit s [b] q) : writtenBit t bs p = writtenBit s (b :: bs) p := by
  unfold writtenBit
  rw [ht, hc]
  unfold writtenBit
  simp only [List.length_cons, List.length_nil]
  by_cases h1 : p = s.cursor
  · subst h1
    rw [if_neg (by omega)]
    by_cases h2 : s.cursor + 1 ≤ 8 * (s.cursor / 8) ∧ 8 * (s.cursor / 8) < s.cursor + 1 + bs.length
    · omega
    · rw [if_neg h2, if_pos (by omega), if_pos (by omega)]
      simp
  · by_cases h2 : s.cursor + 1 ≤ p ∧ p < s.cursor + 1 + bs.length
    · rw [if_pos h2, if_pos (by omega), show p - s.cursor = (p - (s.cursor + 1)) + 1 by omega]
      simp
    · rw [if_neg h2]
      by_cases h3 : s.cursor + 1 ≤ 8 * (p / 8) ∧ 8 * (p / 8) < s.cursor + 1 + bs.length
      · rw [if_pos h3, if_neg (by omega), if_pos (by omega)]
      · rw [if_neg h3]
        by_cases h4 : s.cursor ≤ p ∧ p < s.cursor + (0 + 1)
        · omega
        · rw [if_neg h4]
          by_cases h5 : s.cursor ≤ 8 * (p / 8) ∧ 8 * (p / 8) < s.cursor + (0 + 1)
          · rw [if_pos h5, if_neg (by omega), if_pos (by omega)]
          · rw [if_neg h5, if_neg (by omega), if_neg (by omega)]

/-- A field's bits (R152): only the buffers and the cursor change, and the stream as `writtenBit` says. -/
theorem State.writeBits_spec (bs : Bits) (s : State) (hm : Memory.wf s.mem = true) (hb : s.bitPos ≤ 7)
    (hc : s.cursor + bs.length ≤ 256) :
    ∃ m, s.writeBits bs = ({ s with mem := m } : State).setCursor (s.cursor + bs.length) ∧
      Memory.wf m = true ∧ ∀ p, (s.writeBits bs).streamBit p = writtenBit s bs p := by
  induction bs generalizing s with
  | nil =>
    refine ⟨s.mem, ?_, hm, ?_⟩
    · exact (State.setCursor_self s hb).symm
    · intro p
      simp only [State.writeBits, writtenBit, List.length_nil]
      rw [if_neg (by omega), if_neg (by omega)]
  | cons b bs ih =>
    simp only [List.length_cons] at hc
    obtain ⟨m, h1, h2, h3⟩ := State.writeBit_spec s b hm hb (by omega)
    have hcur : (s.writeBit b).cursor = s.cursor + 1 := by rw [h1, State.setCursor_cursor]
    have hbit : (s.writeBit b).bitPos ≤ 7 := by
      rw [h1, State.setCursor_bitPos]; omega
    have hmem : Memory.wf (s.writeBit b).mem = true := by rw [h1]; exact h2
    obtain ⟨m', h4, h5, h6⟩ := ih (s.writeBit b) hmem hbit (by omega)
    refine ⟨m', ?_, h5, ?_⟩
    · rw [State.writeBits, h4, hcur, h1, List.length_cons,
        show s.cursor + 1 + bs.length = s.cursor + (bs.length + 1) by omega]
      rfl
    · intro p
      rw [State.writeBits, h6]
      exact writtenBit_cons s _ b bs p hcur h3

/-- Writing one string after another is writing the two together. -/
theorem State.writeBits_append (bs cs : Bits) (s : State) :
    s.writeBits (bs ++ cs) = (s.writeBits bs).writeBits cs := by
  induction bs generalizing s with
  | nil => rfl
  | cons b bs ih => simp only [List.cons_append, State.writeBits]; exact ih _

theorem State.flagIf_flagIf (s : State) (a b : Bool) : (s.flagIf a).flagIf b = s.flagIf (a || b) := by
  simp [State.flagIf, Bool.or_assoc]

@[simp] theorem State.flagIf_false (s : State) : s.flagIf false = s := by simp [State.flagIf]

theorem State.writeBit_flagIf (s : State) (b v : Bool) : (s.flagIf v).writeBit b = (s.writeBit b).flagIf v := by
  unfold State.writeBit
  by_cases h : s.bitPos + 1 = 8
  · rw [if_pos h, if_pos (show (s.flagIf v).bitPos + 1 = 8 from h)]; rfl
  · rw [if_neg h, if_neg (show ¬ (s.flagIf v).bitPos + 1 = 8 from h)]; rfl

theorem State.writeBits_flagIf (s : State) (bs : Bits) (v : Bool) :
    (s.flagIf v).writeBits bs = (s.writeBits bs).flagIf v := by
  induction bs generalizing s with
  | nil => rfl
  | cons b bs ih => simp only [State.writeBits, State.writeBit_flagIf, ih]

/-- A field's bits that fit keep the invariant and move the cursor past them. -/
theorem State.writeBits_inv (bs : Bits) (s : State) (v : Bool) (hi : s.Inv) (h : s.cursor + bs.length ≤ 8 * s.limit) :
    ((s.writeBits bs).flagIf v).Inv ∧ ((s.writeBits bs).flagIf v).cursor = s.cursor + bs.length ∧
      ((s.writeBits bs).flagIf v).limit = s.limit := by
  obtain ⟨hm, hb, hl, hc⟩ := hi
  obtain ⟨m, h1, h2, -⟩ := State.writeBits_spec bs s hm hb (by omega)
  have hcur : ((s.writeBits bs).flagIf v).cursor = s.cursor + bs.length := by
    rw [State.flagIf_cursor, h1, State.setCursor_cursor]
  have hlim : ((s.writeBits bs).flagIf v).limit = s.limit := by rw [State.flagIf_limit, h1]; rfl
  refine ⟨⟨?_, ?_, by omega, by omega⟩, hcur, hlim⟩
  · rw [State.flagIf_mem, h1]; exact h2
  · rw [State.flagIf_bitPos, h1, State.setCursor_bitPos]; omega

/-- One field that fits. -/
theorem bitWrite_field (f : Field) (s : State) (h : s.cursor + f.width ≤ 8 * s.limit) :
    bitWrite f.value f.width (s.flagIf f.violation) = .ok ((s.writeBits f.bits).flagIf f.violates) := by
  unfold bitWrite
  rw [if_neg (by simp only [State.flagIf_cursor, State.flagIf_limit]; omega), State.flagIf_flagIf,
    State.writeBits_flagIf]
  rfl

/-- An encoder that fits (R152, R171): it goes through, its fields' bits go out one after another, and CV is set where a
field meets a contract violation. -/
theorem writeFields_ok (fs : List Field) (s : State) (hi : s.Inv)
    (h : s.cursor + fieldsWidth fs ≤ 8 * s.limit) :
    writeFields fs s = .ok ((s.writeBits (fieldsBits fs)).flagIf (fs.any Field.violates)) := by
  induction fs generalizing s with
  | nil => simp [writeFields, State.writeBits]
  | cons f fs ih =>
    simp only [fieldsWidth_cons] at h
    have hlen : f.bits.length = f.width := by simp [Field.bits]
    obtain ⟨hi', hcur, hlim⟩ := State.writeBits_inv f.bits s f.violates hi (by omega)
    simp only [writeFields, bitWrite_field f s (by omega)]
    rw [ih _ hi' (by omega), State.writeBits_flagIf, State.flagIf_flagIf, fieldsBits_cons, State.writeBits_append,
      List.any_cons]

/-- An encoder that does not fit (R152, D43): the longest run of its fields that fits goes out, and the error leaves the
state at the failing field. -/
theorem writeFields_err (fs : List Field) (s : State) (hi : s.Inv)
    (h : 8 * s.limit < s.cursor + fieldsWidth fs) :
    ∃ gs f rest, fs = gs ++ f :: rest ∧ s.cursor + fieldsWidth gs ≤ 8 * s.limit ∧
      8 * s.limit < s.cursor + fieldsWidth gs + f.width ∧
      writeFields fs s = .err .bufferOverflow
        ((s.writeBits (fieldsBits gs)).flagIf (gs.any Field.violates || f.violation)) := by
  induction fs generalizing s with
  | nil => simp only [fieldsWidth_nil] at h; have := hi.2.2.2; omega
  | cons f fs ih =>
    simp only [fieldsWidth_cons] at h
    by_cases hf : s.cursor + f.width ≤ 8 * s.limit
    · have hlen : f.bits.length = f.width := by simp [Field.bits]
      obtain ⟨hi', hcur, hlim⟩ := State.writeBits_inv f.bits s f.violates hi (by omega)
      obtain ⟨gs, g, rest, e1, e2, e3, e4⟩ := ih _ hi' (by omega)
      refine ⟨f :: gs, g, rest, by rw [e1]; rfl, ?_, ?_, ?_⟩
      · simp only [fieldsWidth_cons]; omega
      · simp only [fieldsWidth_cons]; omega
      · simp only [writeFields, bitWrite_field f s hf]
        rw [e4, State.writeBits_flagIf, State.flagIf_flagIf, fieldsBits_cons, State.writeBits_append, List.any_cons,
          Bool.or_assoc]
    · refine ⟨[], f, fs, rfl, by have := hi.2.2.2; simpa using this, ?_, ?_⟩
      · simp only [fieldsWidth_nil]; omega
      · have e : bitWrite f.value f.width (s.flagIf f.violation) =
            .err .bufferOverflow (s.flagIf f.violation) := by
          unfold bitWrite
          rw [if_pos (by simp only [State.flagIf_cursor, State.flagIf_limit]; omega)]
        simp only [writeFields, e]
        simp [State.writeBits]

/-- A run of a decoder on a session whose unread bits begin as the decoder is known to read them. -/
theorem runDec_ok {α : Type} {d : Dec α} {s : State} {v : α} {rest : Bits} (h : d s.unread = .ok v rest) :
    runDec d s = .ok v (s.setCursor (8 * s.limit - rest.length)) := by
  unfold runDec; rw [h]

theorem runDec_err {α : Type} {d : Dec α} {s : State} {e : Error} {rest : Bits} (h : d s.unread = .err e rest) :
    runDec d s = .err e (s.setCursor (8 * s.limit - rest.length)) := by
  unfold runDec; rw [h]

/-- R161, R162: a decoder moves the cursor and changes nothing else. -/
theorem runDec_frame {α : Type} (d : Dec α) (s : State) :
    (∃ v p, runDec d s = .ok v (s.setCursor p)) ∨ (∃ e p, runDec d s = .err e (s.setCursor p)) := by
  unfold runDec
  cases d s.unread with
  | ok v rest => exact .inl ⟨v, _, rfl⟩
  | err e rest => exact .inr ⟨e, _, rfl⟩

/-- What BitRead leaves (R162, R171). -/
theorem bitRead_spec (w : Nat) (s : State) (h : s.Inv) :
    bitRead w s = if 8 * s.limit < s.cursor + w then .err .bufferUnderflow s
      else .ok (natOf (s.bitsFrom s.cursor w)) (s.setCursor (s.cursor + w)) := by
  obtain ⟨hm, hb, hl, hc⟩ := h
  unfold bitRead
  split
  · rename_i hw
    rw [runDec_err (readBits_short (by simp; omega)), State.unread_length,
      show 8 * s.limit - (8 * s.limit - s.cursor) = s.cursor by omega, State.setCursor_self s hb]
  · rename_i hw
    have e := readBits_ok (w := w) (bs := s.unread) (by simp; omega)
    rw [runDec_ok e]
    congr 1
    · rw [State.unread_drop s w (by omega), List.take_append_of_le_length (by simp),
        List.take_of_length_le (by simp)]
    · congr 1
      rw [List.length_drop, State.unread_length]
      omega

end Sys2Proof.Machine
end

