-- ==== Sys2Proof/Laws/Commands.lean ====
section
/-! SUPPORT. What the pre-checks and the shared bodies of the commands answer (spec/60_exceptions.md R385), and what a step
does with each kind of action. -/

namespace Sys2Proof.Machine

/-! ## Pre-checks -/

theorem needMode_eq {m : Mode} {k : State → State} {s : State} (h : s.mode = m) : needMode m k s = k s := if_pos h

theorem needMode_ne {m : Mode} {k : State → State} {s : State} (h : s.mode ≠ m) :
    needMode m k s = failed .illegalSequence s := if_neg h

theorem needMsgIn_some {k : Message → State → State} {s : State} {m : Message} (h : s.msgIn = some m) :
    needMsgIn k s = k m s := by unfold needMsgIn; rw [h]

theorem needMsgIn_none {k : Message → State → State} {s : State} (h : s.msgIn = none) :
    needMsgIn k s = failed .illegalSequence s := by unfold needMsgIn; rw [h]; rfl

theorem needAtMost_le {n max : Nat} {e : Error} {k : State → State} {s : State} (h : n ≤ max) :
    needAtMost n max e k s = k s := if_pos h

theorem needAtMost_gt {n max : Nat} {e : Error} {k : State → State} {s : State} (h : max < n) :
    needAtMost n max e k s = failed e s := if_neg (by omega)

theorem needValid_true {k : State → State} {s : State} (h : s.plValid = true) : needValid k s = k s := if_pos h

theorem needValid_false {k : State → State} {s : State} (h : s.plValid = false) :
    needValid k s = failed .invalidLength s := if_neg (by simp [h])

/-- What a needed mode can answer. -/
theorem needMode_cases (m : Mode) (k : State → State) (s : State) :
    (s.mode = m ∧ needMode m k s = k s) ∨ (s.mode ≠ m ∧ needMode m k s = failed .illegalSequence s) := by
  by_cases h : s.mode = m
  · exact .inl ⟨h, needMode_eq h⟩
  · exact .inr ⟨h, needMode_ne h⟩

theorem needMsgIn_cases (k : Message → State → State) (s : State) :
    (∃ m, s.msgIn = some m ∧ needMsgIn k s = k m s) ∨
      (s.msgIn = none ∧ needMsgIn k s = failed .illegalSequence s) := by
  cases h : s.msgIn with
  | none => exact .inr ⟨rfl, needMsgIn_none h⟩
  | some m => exact .inl ⟨m, rfl, needMsgIn_some h⟩

theorem needAtMost_cases (n max : Nat) (e : Error) (k : State → State) (s : State) :
    (n ≤ max ∧ needAtMost n max e k s = k s) ∨ (max < n ∧ needAtMost n max e k s = failed e s) := by
  by_cases h : n ≤ max
  · exact .inl ⟨h, needAtMost_le h⟩
  · exact .inr ⟨by omega, needAtMost_gt (by omega)⟩

theorem needValid_cases (k : State → State) (s : State) :
    (s.plValid = true ∧ needValid k s = k s) ∨ (s.plValid = false ∧ needValid k s = failed .invalidLength s) := by
  cases h : s.plValid with
  | true => exact .inl ⟨rfl, needValid_true h⟩
  | false => exact .inr ⟨rfl, needValid_false h⟩

/-! ## Bytes of the buffers -/

@[simp] theorem State.wbufBytes_length (s : State) (n : Nat) : (s.wbufBytes n).length = n := by
  simp [State.wbufBytes]

@[simp] theorem State.payloadBytes_length (s : State) (i n : Nat) : (s.payloadBytes i n).length = n := by
  simp [State.payloadBytes]

theorem State.wbufBytes_getD (s : State) (n i : Nat) (h : i < n) : (s.wbufBytes n).getD i 0 = s.wbuf i := by
  simp [State.wbufBytes, List.getD, h]

theorem State.payloadBytes_getD (s : State) (k n i : Nat) (h : i < n) :
    (s.payloadBytes k n).getD i 0 = s.payload (k + i) := by
  simp [State.payloadBytes, List.getD, h]

/-- A store into the buffers that ends inside them. -/
theorem storedAt_writeBytes {m : List Host.Cell} {a : Nat} {bs : List Byte} (h : Memory.wf m = true)
    (h1 : 0x20 ≤ a) (h2 : a + bs.length ≤ 0x60) : StoredAt m (Memory.writeBytes m a bs) a bs :=
  ⟨Memory.wf_writeBytes h h1 h2, fun _ => Memory.read_writeBytes h h1 h2⟩

theorem bytesLE_length (v n : Nat) : (bytesLE v n).length = n := by
  induction n generalizing v with
  | zero => rfl
  | succ n ih => simp [bytesLE, ih]

/-- A valid frame's data fits after its header (R202). -/
theorem State.plValid_spec {s : State} (h : s.plValid = true) :
    0 < s.plLen ∧ s.plLen + s.plHeader ≤ 32 ∧ (s.plHeader = 2 ∨ s.plHeader = 4) := by
  simp only [State.plValid, Bool.and_eq_true, decide_eq_true_eq] at h
  have h2 : s.plLen ≤ 32 - s.plHeader := h.2
  have hh : s.plHeader = 2 ∨ s.plHeader = 4 := by unfold State.plHeader; split <;> simp
  omega

theorem State.plValid_iff (s : State) : s.plValid = true ↔ s.plLen ≠ 0 ∧ s.plLen ≤ 32 - s.plHeader := by
  unfold State.plValid
  rw [Bool.and_eq_true]
  exact and_congr decide_eq_true_iff decide_eq_true_iff

/-- flag() as a number: bit 7 of PAYLOAD[1]. -/
theorem State.plFlag_eq (s : State) : s.plFlag = decide (128 ≤ (s.payload 1).toNat) := by
  unfold State.plFlag
  rw [Bool.eq_iff_iff, BitVec.getLsbD, Nat.testBit_eq_decide_div_mod_eq, decide_eq_true_eq, decide_eq_true_eq]
  have := (s.payload 1).isLt
  omega

theorem headerLength_cases (a : Option Half) : headerLength a = 2 ∨ headerLength a = 4 := by
  unfold headerLength; split <;> simp

theorem frameHeader_length (p : Byte) (a : Option Half) (n : Nat) :
    (frameHeader p a n).length = headerLength a := by cases a <;> rfl

/-- A frame is 32 bytes (R110). -/
theorem frameBytes_length (p : Byte) (a : Option Half) (d : List Byte)
    (h : d.length ≤ Config.payloadSize - headerLength a) : (frameBytes p a d).length = 32 := by
  have := headerLength_cases a
  simp only [frameBytes, List.length_append, frameHeader_length, List.length_replicate, Config.payloadSize] at *
  omega

/-! ## One step, action by action -/

variable {s : State} {rest : List Action}

theorem step_cons {a : Action} (h : s.pending = a :: rest) : step s = runAction a { s with pending := rest } := by
  unfold step runNext; rw [h]

theorem step_nil (h : s.pending = []) : step s = .next s := by unfold step runNext; rw [h]

theorem hostWrite_cmd (w : Word) (s : State) : hostWrite 0 .w32 w s = issue w s := by
  have hb : isBusError 0 .w32 = false := by decide
  simp [hostWrite, hb]

theorem issue_some {w : Word} {i : Instr} (h : decodeCommand w = some i) (s : State) : issue w s = exec i s := by
  unfold issue; rw [h]

theorem issue_none {w : Word} (h : decodeCommand w = none) (s : State) :
    issue w s = .next (failed .illegalCommand s) := by unfold issue; rw [h]; rfl

/-- A legal access lies in the window and ends inside the buffers where it begins in them. -/
theorem isBusError_false {offset : Nat} {w : Width} (h : isBusError offset w = false) :
    offset % w.bytes = 0 ∧ (offset < 0x18 → w = .w32) ∧ offset < 0x80 ∧
      (isBuffer offset = true → offset + w.bytes ≤ 0x60) := by
  simp only [isBusError, Bool.or_eq_false_iff, decide_eq_false_iff_not, Bool.and_eq_false_iff,
    Decidable.not_not] at h
  obtain ⟨⟨h1, h2⟩, h3⟩ := h
  refine ⟨h1, fun hl => ?_, by simpa [Config.windowSize] using h3, ?_⟩
  · rcases h2 with h2 | h2
    · omega
    · exact h2
  · intro hb
    simp only [isBuffer, Bool.and_eq_true, decide_eq_true_eq] at hb
    cases w <;> simp only [Width.bytes] at h1 ⊢ <;> omega

/-! ## Decoders of rows -/

theorem readFields_ok (fs : List Field) (bs : Bits) (h : fieldsWidth fs ≤ bs.length) :
    readFields fs bs = .ok () (bs.drop (fieldsWidth fs)) := by
  induction fs generalizing bs with
  | nil => simp [readFields, Dec.value]
  | cons f fs ih =>
    simp only [fieldsWidth_cons] at h
    simp only [readFields, Dec.andThen, readBits_ok (show f.width ≤ bs.length by omega)]
    rw [ih _ (by rw [List.length_drop]; omega), List.drop_drop, fieldsWidth_cons]

/-- A row that does not fit: the fields before the failing one are read. -/
theorem readFields_err (fs : List Field) (bs : Bits) (h : bs.length < fieldsWidth fs) :
    ∃ gs f rest, fs = gs ++ f :: rest ∧ fieldsWidth gs ≤ bs.length ∧ bs.length < fieldsWidth gs + f.width ∧
      readFields fs bs = .err .bufferUnderflow (bs.drop (fieldsWidth gs)) := by
  induction fs generalizing bs with
  | nil => simp at h
  | cons f fs ih =>
    simp only [fieldsWidth_cons] at h
    by_cases hf : f.width ≤ bs.length
    · obtain ⟨gs, g, rest, e1, e2, e3, e4⟩ := ih (bs.drop f.width) (by rw [List.length_drop]; omega)
      rw [List.length_drop] at e2 e3
      refine ⟨f :: gs, g, rest, by rw [e1]; rfl, by simp; omega, by simp; omega, ?_⟩
      simp only [readFields, Dec.andThen, readBits_ok hf]
      rw [e4, List.drop_drop, fieldsWidth_cons]
    · refine ⟨[], f, fs, rfl, by simp, by simp; omega, ?_⟩
      simp [readFields, Dec.andThen, readBits_short (show bs.length < f.width by omega)]

end Sys2Proof.Machine
end

