-- ==== Sys2Proof/Laws/Locality.lean ====
section
/-! SUPPORT. A decoder looks at no bit past the ones it has read, and ends only in the errors of its type (spec/30_encoding.md
R130, spec/43_message_envelope.md R341, R342). Proved once for the decoder combinators, then for each type. -/

namespace Sys2Proof

open Machine

/-- What the bits read before an error look like: a reserved code comes last. -/
def ErrorShape (e : Error) (used : Bits) : Prop :=
  match e with
  | .invalidSensor => ∃ pre c, used = pre ++ bitsOf c 4 ∧ 2 < c ∧ c < 16
  | .invalidActuator => ∃ pre c, used = pre ++ bitsOf c 4 ∧ 0 < c ∧ c < 16
  | .invalidCommand => ∃ pre c, used = pre ++ bitsOf c 4 ∧ 4 < c ∧ c < 16
  | .invalidResponse => ∃ pre c, used = pre ++ bitsOf c 4 ∧ 3 < c ∧ c ≠ 8 ∧ c ≠ 9 ∧ c < 16
  | _ => True

theorem ErrorShape.prepend {e : Error} {used : Bits} (h : ErrorShape e used) (pre : Bits) :
    ErrorShape e (pre ++ used) := by
  unfold ErrorShape at h ⊢
  split at h
  · obtain ⟨q, c, rfl, h⟩ := h; exact ⟨pre ++ q, c, by simp, h⟩
  · obtain ⟨q, c, rfl, h⟩ := h; exact ⟨pre ++ q, c, by simp, h⟩
  · obtain ⟨q, c, rfl, h⟩ := h; exact ⟨pre ++ q, c, by simp, h⟩
  · obtain ⟨q, c, rfl, h⟩ := h; exact ⟨pre ++ q, c, by simp, h⟩
  · trivial

/-- d reads a prefix and answers from it alone, and from how many bits follow; its errors are among E. -/
structure Dec.Local {α : Type} (d : Dec α) (E : List Error) : Prop where
  ok : ∀ bs v rest, d bs = .ok v rest → ∃ used, bs = used ++ rest ∧
    ∀ more : Bits, more.length = rest.length → d (used ++ more) = .ok v more
  err : ∀ bs e rest, d bs = .err e rest → e ∈ E ∧ (e = .bufferUnderflow → rest.length < 32) ∧
    ∃ used, bs = used ++ rest ∧ ErrorShape e used ∧
      ∀ more : Bits, more.length = rest.length → d (used ++ more) = .err e more

theorem Dec.Local.mono {α : Type} {d : Dec α} {E F : List Error} (h : Dec.Local d E) (hf : E ⊆ F) : Dec.Local d F :=
  ⟨h.ok, fun bs e rest he => ⟨hf (h.err bs e rest he).1, (h.err bs e rest he).2⟩⟩

theorem Dec.local_value {α : Type} (v : α) (E : List Error) : Dec.Local (Dec.value v) E where
  ok := by
    intro bs w rest h
    cases h
    exact ⟨[], rfl, fun more _ => rfl⟩
  err := by intro bs e rest h; cases h

theorem local_readBits (w : Nat) (hw : w ≤ 32) : Dec.Local (readBits w) [.bufferUnderflow] where
  ok := by
    intro bs v rest h
    rcases readBits_cases (w := w) (bs := bs) with ⟨v', rest', h1, h2, h3⟩ | ⟨h1, -⟩
    · rw [h1] at h
      cases h
      exact ⟨bitsOf v w, h3, fun more _ => by rw [readBits_bitsOf, Nat.mod_eq_of_lt h2]⟩
    · rw [h1] at h; cases h
  err := by
    intro bs e rest h
    rcases readBits_cases (w := w) (bs := bs) with ⟨v', rest', h1, -, -⟩ | ⟨h1, h2⟩
    · rw [h1] at h; cases h
    · rw [h1] at h
      cases h
      refine ⟨by simp, fun _ => by omega, [], rfl, trivial, fun more hm => ?_⟩
      exact readBits_short (by simpa using (by omega : more.length < w))

theorem Dec.Local.andThen {α β : Type} {d : Dec α} {f : α → Dec β} {E : List Error} (hd : Dec.Local d E)
    (hf : ∀ v, Dec.Local (f v) E) : Dec.Local (Dec.andThen d f) E where
  ok := by
    intro bs w rest h
    obtain ⟨v, mid, h1, h2⟩ := Dec.andThen_eq_ok.mp h
    obtain ⟨u1, rfl, k1⟩ := hd.ok _ _ _ h1
    obtain ⟨u2, rfl, k2⟩ := (hf v).ok _ _ _ h2
    refine ⟨u1 ++ u2, by simp, fun more hm => ?_⟩
    rw [List.append_assoc, Dec.andThen_ok (k1 _ (by simp [hm])), k2 _ hm]
  err := by
    intro bs e rest h
    unfold Dec.andThen at h
    cases hb : d bs with
    | ok v mid =>
      rw [hb] at h
      obtain ⟨u1, rfl, k1⟩ := hd.ok _ _ _ hb
      obtain ⟨he, hu, u2, rfl, hs, k2⟩ := (hf v).err _ _ _ h
      refine ⟨he, hu, u1 ++ u2, by simp, hs.prepend _, fun more hm => ?_⟩
      rw [List.append_assoc, Dec.andThen_ok (k1 _ (by simp [hm])), k2 _ hm]
    | err e' mid =>
      rw [hb] at h
      cases h
      obtain ⟨he, hu, u1, rfl, hs, k1⟩ := hd.err _ _ _ hb
      refine ⟨he, hu, u1, rfl, hs, fun more hm => ?_⟩
      unfold Dec.andThen
      rw [k1 _ hm]

theorem Dec.Local.map {α β : Type} {d : Dec α} {E : List Error} (hd : Dec.Local d E) (f : α → β) :
    Dec.Local (Dec.map d f) E := hd.andThen fun _ => Dec.local_value _ _

/-- A code, then what it selects: either a decoder, or a failure whose error has the shape of the code. -/
theorem local_code {β : Type} {w : Nat} (hw : w ≤ 32) {f : Nat → Dec β} {E : List Error}
    (hu : Error.bufferUnderflow ∈ E)
    (hf : ∀ c, c < 2 ^ w → Dec.Local (f c) E ∨
      ∃ e, f c = Dec.fail e ∧ e ∈ E ∧ e ≠ .bufferUnderflow ∧ ErrorShape e (bitsOf c w)) :
    Dec.Local (Dec.andThen (readBits w) f) E where
  ok := by
    intro bs v rest h
    obtain ⟨c, mid, h1, h2⟩ := Dec.andThen_eq_ok.mp h
    obtain ⟨rfl, hc⟩ := readBits_exact w bs c mid h1
    rcases hf c hc with hl | ⟨e, he, -⟩
    · obtain ⟨u2, rfl, k2⟩ := hl.ok _ _ _ h2
      refine ⟨bitsOf c w ++ u2, by simp, fun more hm => ?_⟩
      rw [List.append_assoc, Dec.andThen_code, Nat.mod_eq_of_lt hc, k2 _ hm]
    · rw [he] at h2; cases h2
  err := by
    intro bs e rest h
    rcases readBits_cases (w := w) (bs := bs) with ⟨c, mid, h1, hc, rfl⟩ | ⟨h1, h2⟩
    · rw [Dec.andThen_ok h1] at h
      rcases hf c hc with hl | ⟨e', he, hE, hne, hs⟩
      · obtain ⟨hm', hu', u2, rfl, hs, k2⟩ := hl.err _ _ _ h
        refine ⟨hm', hu', bitsOf c w ++ u2, by simp, hs.prepend _, fun more hm => ?_⟩
        rw [List.append_assoc, Dec.andThen_code, Nat.mod_eq_of_lt hc, k2 _ hm]
      · rw [he] at h
        cases h
        refine ⟨hE, fun hh => absurd hh hne, bitsOf c w, rfl, hs, fun more hm => ?_⟩
        rw [Dec.andThen_code, Nat.mod_eq_of_lt hc, he]
        rfl
    · unfold Dec.andThen at h
      rw [h1] at h
      cases h
      refine ⟨hu, fun _ => by omega, [], rfl, trivial, fun more hm => ?_⟩
      unfold Dec.andThen
      rw [List.nil_append, readBits_short (by omega)]

theorem local_readBits' {w : Nat} (hw : w ≤ 32) {E : List Error} (hu : Error.bufferUnderflow ∈ E) :
    Dec.Local (readBits w) E := (local_readBits w hw).mono (by simpa using hu)

theorem local_readVec {w : Nat} (k : Nat) (hw : w ≤ 32) {E : List Error} (hu : Error.bufferUnderflow ∈ E) :
    Dec.Local (readVec w k) E := (local_readBits' hw hu).map _

theorem local_readFlag {E : List Error} (hu : Error.bufferUnderflow ∈ E) : Dec.Local readFlag E :=
  (local_readBits' (by decide) hu).map _

theorem local_readBytes (n : Nat) {E : List Error} (hu : Error.bufferUnderflow ∈ E) : Dec.Local (readBytes n) E := by
  induction n with
  | zero => exact Dec.local_value _ _
  | succ n ih => exact ih.andThen fun _ => (local_readVec 8 (by decide) hu).map _

/-- The errors of the decoders below Message. -/
def fieldErrors : List Error :=
  [.bufferUnderflow, .invalidCommand, .invalidResponse, .invalidSensor, .invalidActuator]

theorem local_decBoard : Dec.Local decBoard fieldErrors := (local_readBits' (by decide) (by decide)).map _

theorem local_decSensor : Dec.Local decSensor fieldErrors := by
  refine local_code (by decide) (by decide) fun c hc => ?_
  match c, hc with
  | 0, _ => exact .inl ((local_readVec 8 (by decide) (by decide)).map _)
  | 1, _ =>
    exact .inl ((local_readVec 16 (by decide) (by decide)).andThen fun _ =>
      (local_readVec 8 (by decide) (by decide)).map _)
  | 2, _ => exact .inl ((local_readVec 16 (by decide) (by decide)).map _)
  | n + 3, h =>
    exact .inr ⟨.invalidSensor, rfl, by decide, by decide, ⟨[], n + 3, by simp, by omega, by omega⟩⟩

theorem local_decActuator : Dec.Local decActuator fieldErrors := by
  refine local_code (by decide) (by decide) fun c hc => ?_
  match c, hc with
  | 0, _ => exact .inl ((local_readFlag (by decide)).map _)
  | n + 1, h =>
    exact .inr ⟨.invalidActuator, rfl, by decide, by decide, ⟨[], n + 1, by simp, by omega, by omega⟩⟩

theorem local_decOption {α : Type} {d : Dec α} (h : Dec.Local d fieldErrors) :
    Dec.Local (decOption d) fieldErrors :=
  (local_readFlag (by decide)).andThen fun p => by
    cases p with
    | true => exact h.map _
    | false => exact Dec.local_value _ _

theorem local_decLimbType : Dec.Local decLimbType fieldErrors :=
  (local_readFlag (by decide)).andThen fun p => by
    cases p with
    | true => exact local_decActuator.map _
    | false =>
      exact (local_readVec 16 (by decide) (by decide)).andThen fun _ => (local_decOption local_decSensor).map _

theorem local_decLimb : Dec.Local decLimb fieldErrors :=
  (local_readVec 8 (by decide) (by decide)).andThen fun _ => local_decLimbType.map _

theorem local_decNodeInfo : Dec.Local decNodeInfo fieldErrors :=
  local_decBoard.andThen fun _ => (local_readVec 16 (by decide) (by decide)).map _

theorem local_decCommand : Dec.Local decCommand fieldErrors := by
  refine local_code (by decide) (by decide) fun c hc => ?_
  match c, hc with
  | 0, _ => exact .inl (Dec.local_value _ _)
  | 1, _ => exact .inl (Dec.local_value _ _)
  | 2, _ => exact .inl (local_decLimb.map _)
  | 3, _ => exact .inl ((local_readVec 8 (by decide) (by decide)).map _)
  | 4, _ => exact .inl (local_decLimbType.map _)
  | n + 5, h =>
    exact .inr ⟨.invalidCommand, rfl, by decide, by decide, ⟨[], n + 5, by simp, by omega, by omega⟩⟩

theorem local_decResponse : Dec.Local decResponse fieldErrors := by
  have bad : ∀ c, 3 < c → c ≠ 8 → c ≠ 9 → c < 16 → ErrorShape .invalidResponse (bitsOf c 4) :=
    fun c h1 h2 h3 h4 => ⟨[], c, by simp, h1, h2, h3, h4⟩
  refine local_code (by decide) (by decide) fun c hc => ?_
  match c, hc with
  | 0, _ => exact .inl (Dec.local_value _ _)
  | 1, _ => exact .inl (local_decNodeInfo.map _)
  | 2, _ =>
    exact .inl ((local_decOption local_decLimb).andThen fun _ =>
      (local_decOption local_decLimb).andThen fun _ => (local_decOption local_decLimb).map _)
  | 3, _ => exact .inl ((local_readVec 32 (by decide) (by decide)).map _)
  | 4, _ => exact .inr ⟨.invalidResponse, rfl, by decide, by decide, bad 4 (by decide) (by decide) (by decide) (by decide)⟩
  | 5, _ => exact .inr ⟨.invalidResponse, rfl, by decide, by decide, bad 5 (by decide) (by decide) (by decide) (by decide)⟩
  | 6, _ => exact .inr ⟨.invalidResponse, rfl, by decide, by decide, bad 6 (by decide) (by decide) (by decide) (by decide)⟩
  | 7, _ => exact .inr ⟨.invalidResponse, rfl, by decide, by decide, bad 7 (by decide) (by decide) (by decide) (by decide)⟩
  | 8, _ => exact .inl (Dec.local_value _ _)
  | 9, _ => exact .inl (Dec.local_value _ _)
  | n + 10, h =>
    exact .inr ⟨.invalidResponse, rfl, by decide, by decide, bad (n + 10) (by omega) (by omega) (by omega) (by omega)⟩

theorem local_decMessageData : Dec.Local decMessageData fieldErrors :=
  (local_readFlag (by decide)).andThen fun p => by
    cases p with
    | true =>
      exact ((local_readBits' (w := 6) (by decide) (by decide)).map _).andThen fun _ => local_decResponse.map _
    | false => exact (local_readVec 8 (by decide) (by decide)).andThen fun _ => local_decCommand.map _

theorem fieldErrors_sub : fieldErrors ⊆ decodeErrors := by decide

/-- The body of each Message variant, by its code. -/
theorem decMessageBody_code (c : Nat) (rest : Bits) (hc : c < 16) :
    (4 < c ∧ decMessageBody (bitsOf c 4 ++ rest) = .err .invalidMessage rest) ∨
      (c ≤ 4 ∧ ∃ d : Dec Message, Dec.Local d fieldErrors ∧ ∀ more, decMessageBody (bitsOf c 4 ++ more) = d more) := by
  have e : ∀ more, decMessageBody (bitsOf c 4 ++ more) = _ := fun more =>
    (Dec.andThen_code c 4 _ more).trans (by rw [Nat.mod_eq_of_lt (show c < 2 ^ 4 from hc)])
  match c, hc with
  | 0, _ => exact .inr ⟨by decide, _, local_decMessageData.map _, e⟩
  | 1, _ =>
    exact .inr ⟨by decide, _,
      (local_readVec 32 (by decide) (by decide)).andThen fun _ => local_decMessageData.map _, e⟩
  | 2, _ => exact .inr ⟨by decide, _, (local_readVec 32 (by decide) (by decide)).map _, e⟩
  | 3, _ =>
    exact .inr ⟨by decide, _,
      (local_readVec 32 (by decide) (by decide)).andThen fun _ => (local_readVec 16 (by decide) (by decide)).map _, e⟩
  | 4, _ =>
    exact .inr ⟨by decide, _,
      (local_readVec 32 (by decide) (by decide)).andThen fun _ => (local_readBytes 20 (by decide)).map _, e⟩
  | n + 5, h => exact .inl ⟨by omega, e rest⟩

theorem local_decMessageBody : Dec.Local decMessageBody decodeErrors := by
  refine local_code (by decide) (by decide) fun c hc => ?_
  match c, hc with
  | 0, _ => exact .inl ((local_decMessageData.mono fieldErrors_sub).map _)
  | 1, _ =>
    exact .inl ((local_readVec 32 (by decide) (by decide)).andThen fun _ =>
      (local_decMessageData.mono fieldErrors_sub).map _)
  | 2, _ => exact .inl ((local_readVec 32 (by decide) (by decide)).map _)
  | 3, _ =>
    exact .inl ((local_readVec 32 (by decide) (by decide)).andThen fun _ =>
      (local_readVec 16 (by decide) (by decide)).map _)
  | 4, _ =>
    exact .inl ((local_readVec 32 (by decide) (by decide)).andThen fun _ => (local_readBytes 20 (by decide)).map _)
  | n + 5, h => exact .inr ⟨.invalidMessage, rfl, by decide, by decide, trivial⟩

/-- dec_Message reads a prefix and answers from it alone (R341, R342), with the errors of R341. -/
theorem local_decMessage : Dec.Local decMessage decodeErrors := by
  refine local_code (by decide) (by decide) fun c hc => ?_
  by_cases h : c = Config.protocolVersion
  · subst h; exact .inl local_decMessageBody
  · exact .inr ⟨.versionMismatch, if_neg h, by decide, by decide, trivial⟩

/-- The version gate (R336): two bits that are not the version end the decode right after them. -/
theorem decMessage_version (v : Nat) (rest : Bits) (hv : v < 4) (h : v ≠ Config.protocolVersion) :
    decMessage (bitsOf v 2 ++ rest) = .err .versionMismatch rest := by
  unfold decMessage
  rw [Dec.andThen_code, Nat.mod_eq_of_lt (show v < 2 ^ 2 from hv), if_neg h]
  rfl

/-- After the version, the body. -/
theorem decMessage_body (rest : Bits) : decMessage (bitsOf 1 2 ++ rest) = decMessageBody rest := by
  unfold decMessage
  rw [Dec.andThen_code]
  rfl

/-- Where the version error and the code error of a Message come from (R335, R336). -/
theorem decMessage_head {bs rest : Bits} {e : Error} (h : decMessage bs = .err e rest) :
    (e = .versionMismatch → ∃ v, v < 4 ∧ v ≠ 1 ∧ bs = bitsOf v 2 ++ rest) ∧
      (e = .invalidMessage → ∃ c, c < 16 ∧ 4 < c ∧ bs = bitsOf 1 2 ++ (bitsOf c 4 ++ rest)) := by
  have hin : ∀ x ∈ fieldErrors, x ≠ .versionMismatch ∧ x ≠ .invalidMessage := by decide
  rcases readBits_cases (w := 2) (bs := bs) with ⟨v, mid, -, hv, rfl⟩ | ⟨h1, -⟩
  · by_cases hv1 : v = 1
    · subst hv1
      rw [decMessage_body] at h
      rcases readBits_cases (w := 4) (bs := mid) with ⟨c, rest', -, hc, rfl⟩ | ⟨h2, -⟩
      · rcases decMessageBody_code c rest' hc with ⟨h4, e1⟩ | ⟨-, d, hd, e1⟩
        · rw [e1] at h
          cases h
          exact ⟨fun hh => by simp at hh, fun _ => ⟨c, hc, h4, rfl⟩⟩
        · rw [e1] at h
          have := hin _ (hd.err _ _ _ h).1
          exact ⟨fun hh => absurd hh this.1, fun hh => absurd hh this.2⟩
      · unfold decMessageBody Dec.andThen at h
        rw [h2] at h
        cases h
        exact ⟨fun hh => by simp at hh, fun hh => by simp at hh⟩
    · rw [decMessage_version v mid hv hv1] at h
      cases h
      exact ⟨fun _ => ⟨v, hv, hv1, rfl⟩, fun hh => by simp at hh⟩
  · unfold decMessage Dec.andThen at h
    rw [h1] at h
    cases h
    exact ⟨fun hh => by simp at hh, fun hh => by simp at hh⟩

end Sys2Proof
end

