-- ==== Sys2Proof/Laws/Failing.lean ====
section
/-! SUPPORT. Where a decode fails: always in one field of a value of its type, the fields before it read in full
(spec/60_exceptions.md R381, the column "recorded besides ERR"). Proved once for the decoder combinators, then for each
type. -/

namespace Sys2Proof

open Machine

/-- The decode of fs over bs ends with e in a field of fs, the fields before it read: either the slice ends inside that
field and none of it is read, or it is a code that stands for nothing and all of it is read. -/
def FailsIn (fs : List Field) (bs : Bits) (e : Error) (rest : Bits) : Prop :=
  ∃ gs f more, fs = gs ++ f :: more ∧
    ((e = .bufferUnderflow ∧ bs = fieldsBits gs ++ rest ∧ rest.length < f.width) ∨
      (e ≠ .bufferUnderflow ∧ (e ≠ .versionMismatch → f.width = 4) ∧
        ∃ k, bs = fieldsBits gs ++ (bitsOf k f.width ++ rest)))

/-- d fails only in a field of a value that S allows. -/
def Dec.FailsWithin {α : Type} (d : Dec α) (S : List Field → Prop) : Prop :=
  ∀ bs e rest, d bs = .err e rest → ∃ fs, S fs ∧ FailsIn fs bs e rest

theorem FailsIn.after {fs : List Field} {bs rest : Bits} {e : Error} (pre : List Field) (h : FailsIn fs bs e rest) :
    FailsIn (pre ++ fs) (fieldsBits pre ++ bs) e rest := by
  obtain ⟨gs, f, more, rfl, h⟩ := h
  refine ⟨pre ++ gs, f, more, by simp, ?_⟩
  rcases h with ⟨he, rfl, hl⟩ | ⟨he, hw, k, rfl⟩
  · exact .inl ⟨he, by simp, hl⟩
  · exact .inr ⟨he, hw, k, by simp⟩

theorem FailsIn.before {fs : List Field} {bs rest : Bits} {e : Error} (post : List Field) (h : FailsIn fs bs e rest) :
    FailsIn (fs ++ post) bs e rest := by
  obtain ⟨gs, f, more, rfl, h⟩ := h
  exact ⟨gs, f, more ++ post, by simp, h⟩

theorem Dec.FailsWithin.mono {α : Type} {d : Dec α} {S T : List Field → Prop} (h : Dec.FailsWithin d S)
    (hst : ∀ fs, S fs → T fs) : Dec.FailsWithin d T := fun bs e rest he =>
  (h bs e rest he).imp fun _ h => ⟨hst _ h.1, h.2⟩

/-- A sequence fails in the first part, whatever may follow it, or in the second, after a value of the first. -/
theorem Dec.FailsWithin.andThen {α β : Type} {d : Dec α} {f : α → Dec β} {F : α → List Field} {P : α → Prop}
    {S : List Field → Prop} (hd : Dec.FailsWithin d fun fs => ∃ post, S (fs ++ post))
    (hx : Exact d (fun v => fieldsBits (F v)) P) (hf : ∀ v, Dec.FailsWithin (f v) fun fs => S (F v ++ fs)) :
    Dec.FailsWithin (Dec.andThen d f) S := by
  intro bs e rest h
  unfold Dec.andThen at h
  cases hb : d bs with
  | ok v mid =>
    rw [hb] at h
    obtain ⟨rfl, -⟩ := hx _ _ _ hb
    obtain ⟨fs, hs, hi⟩ := hf v _ _ _ h
    exact ⟨_, hs, hi.after _⟩
  | err e' mid =>
    rw [hb] at h
    cases h
    obtain ⟨fs, ⟨post, hs⟩, hi⟩ := hd _ _ _ hb
    exact ⟨_, hs, hi.before post⟩

theorem Dec.failsWithin_value {α : Type} (v : α) (S : List Field → Prop) : Dec.FailsWithin (Dec.value v) S := by
  intro bs e rest h; cases h

theorem Dec.FailsWithin.map {α β : Type} {d : Dec α} {S : List Field → Prop} (h : Dec.FailsWithin d S) (f : α → β) :
    Dec.FailsWithin (Dec.map d f) S := by
  intro bs e rest he
  refine h bs e rest ?_
  unfold Dec.map Dec.andThen at he
  cases hb : d bs with
  | ok v mid => rw [hb] at he; cases he
  | err e' mid => rw [hb] at he; cases he; rfl

theorem readBits_failsWithin {w : Nat} {S : List Field → Prop} (h : ∃ v b, S [⟨v, w, b⟩]) :
    Dec.FailsWithin (readBits w) S := by
  intro bs e rest he
  obtain ⟨v, b, hs⟩ := h
  rcases readBits_cases (w := w) (bs := bs) with ⟨v', rest', h1, -, -⟩ | ⟨h1, h2⟩
  · rw [h1] at he; cases he
  · rw [h1] at he
    cases he
    exact ⟨_, hs, [], _, [], rfl, .inl ⟨rfl, rfl, h2⟩⟩

theorem readVec_failsWithin {w k : Nat} {S : List Field → Prop} (h : ∃ v : BitVec k, S [vecField v w]) :
    Dec.FailsWithin (readVec w k) S :=
  (readBits_failsWithin (let ⟨v, hv⟩ := h; ⟨v.toNat, false, hv⟩)).map _

theorem readFlag_failsWithin {S : List Field → Prop} (h : ∃ b, S [flagField b]) : Dec.FailsWithin readFlag S :=
  (readBits_failsWithin (let ⟨b, hb⟩ := h; ⟨b.toNat, false, hb⟩)).map _

/-- A code, then what it selects: fields after the code, or an error of the code itself. -/
theorem failsWithin_code {β : Type} {w : Nat} {f : Nat → Dec β} {S : List Field → Prop}
    (h0 : ∃ v post, S (codeField v w :: post))
    (hf : ∀ c, c < 2 ^ w → Dec.FailsWithin (f c) (fun fs => S (codeField c w :: fs)) ∨
      ∃ e, f c = Dec.fail e ∧ e ≠ .bufferUnderflow ∧ (e ≠ .versionMismatch → w = 4)) :
    Dec.FailsWithin (Dec.andThen (readBits w) f) S := by
  intro bs e rest h
  obtain ⟨v, post, hs⟩ := h0
  unfold Dec.andThen at h
  rcases readBits_cases (w := w) (bs := bs) with ⟨c, mid, h1, hc, rfl⟩ | ⟨h1, h2⟩
  · rw [h1] at h
    rcases hf c hc with hl | ⟨e', he, hne, hw⟩
    · obtain ⟨fs, hs', hi⟩ := hl _ _ _ h
      exact ⟨_, hs', by simpa using hi.after [codeField c w]⟩
    · simp only [he] at h
      cases h
      exact ⟨_, hs, [], _, post, rfl, .inr ⟨hne, hw, c, rfl⟩⟩
  · rw [h1] at h
    cases h
    exact ⟨_, hs, [], _, post, rfl, .inl ⟨rfl, rfl, h2⟩⟩

/-! ## The parts already read, as fields -/

theorem readVec_exact_field {w k : Nat} (hw : w ≤ k) :
    Exact (readVec w k) (fun v : BitVec k => fieldsBits [vecField v w]) (fun _ => True) := by
  intro bs v rest h
  exact ⟨by simpa using (readVec_exact hw bs v rest h).1, trivial⟩

theorem readFlag_exact_field : Exact readFlag (fun b => fieldsBits [flagField b]) (fun _ => True) := by
  intro bs v rest h
  exact ⟨by simpa using (readFlag_exact bs v rest h).1, trivial⟩

theorem decResponseId_exact_field :
    Exact decResponseId (fun x => fieldsBits [responseIdField x]) (fun _ => True) := by
  intro bs v rest h
  exact ⟨by simpa using (decResponseId_exact bs v rest h).1, trivial⟩

/-! ## Each type -/

theorem decBoard_failsWithin : Dec.FailsWithin decBoard (fun fs => ∃ x : Board, fs = x.fields) :=
  (readBits_failsWithin ⟨0, false, .b0, rfl⟩).map _

theorem decSensor_failsWithin : Dec.FailsWithin decSensor (fun fs => ∃ x : Sensor, fs = x.fields) := by
  refine failsWithin_code ⟨0, _, .battery 0, rfl⟩ fun c _ => ?_
  match c with
  | 0 => exact .inl ((readVec_failsWithin ⟨0, .battery 0, rfl⟩).map _)
  | 1 =>
    refine .inl (Dec.FailsWithin.andThen (readVec_failsWithin ⟨0, _, .tempHum 0 0, rfl⟩)
      (readVec_exact_field (by decide)) fun t => (readVec_failsWithin ⟨0, .tempHum t 0, rfl⟩).map _)
  | 2 => exact .inl ((readVec_failsWithin ⟨0, .current 0, rfl⟩).map _)
  | n + 3 => exact .inr ⟨.invalidSensor, rfl, by decide, fun _ => rfl⟩

theorem decActuator_failsWithin : Dec.FailsWithin decActuator (fun fs => ∃ x : Actuator, fs = x.fields) := by
  refine failsWithin_code ⟨0, _, .light false, rfl⟩ fun c _ => ?_
  match c with
  | 0 => exact .inl ((readFlag_failsWithin ⟨false, .light false, rfl⟩).map _)
  | n + 1 => exact .inr ⟨.invalidActuator, rfl, by decide, fun _ => rfl⟩

theorem decOption_failsWithin {α : Type} {d : Dec α} {f : α → List Field}
    (h : Dec.FailsWithin d (fun fs => ∃ x, fs = f x)) :
    Dec.FailsWithin (decOption d) (fun fs => ∃ x, fs = optionFields f x) := by
  refine Dec.FailsWithin.andThen (readFlag_failsWithin ⟨false, [], none, rfl⟩) readFlag_exact_field fun p => ?_
  cases p with
  | true => exact (h.mono fun fs ⟨x, hx⟩ => ⟨some x, by rw [hx]; rfl⟩).map _
  | false => exact Dec.failsWithin_value _ _

theorem decLimbType_failsWithin : Dec.FailsWithin decLimbType (fun fs => ∃ x : LimbType, fs = x.fields) := by
  refine Dec.FailsWithin.andThen (readFlag_failsWithin ⟨false, _, .sensor 0 none, rfl⟩) readFlag_exact_field fun p => ?_
  cases p with
  | true => exact (decActuator_failsWithin.mono fun fs ⟨x, hx⟩ => ⟨.actuator x, by rw [hx]; rfl⟩).map _
  | false =>
    refine Dec.FailsWithin.andThen (readVec_failsWithin ⟨0, _, .sensor 0 none, rfl⟩)
      (readVec_exact_field (by decide)) fun r => ?_
    exact ((decOption_failsWithin decSensor_failsWithin).mono fun fs ⟨x, hx⟩ => ⟨.sensor r x, by rw [hx]; rfl⟩).map _

theorem decLimb_failsWithin : Dec.FailsWithin decLimb (fun fs => ∃ x : Limb, fs = x.fields) := by
  refine Dec.FailsWithin.andThen (readVec_failsWithin ⟨0, _, ⟨0, .actuator (.light false)⟩, rfl⟩)
    (readVec_exact_field (by decide)) fun i => ?_
  exact (decLimbType_failsWithin.mono fun fs ⟨x, hx⟩ => ⟨⟨i, x⟩, by rw [hx]; rfl⟩).map _

theorem decNodeInfo_failsWithin : Dec.FailsWithin decNodeInfo (fun fs => ∃ x : NodeInfo, fs = x.fields) := by
  refine Dec.FailsWithin.andThen
    (decBoard_failsWithin.mono fun fs ⟨x, hx⟩ => ⟨[vecField (0 : Half) 16], ⟨x, 0⟩, by rw [hx]; rfl⟩)
    decBoard_exact fun b => ?_
  exact (readVec_failsWithin ⟨0, ⟨b, 0⟩, rfl⟩).map _

theorem decCommand_failsWithin : Dec.FailsWithin decCommand (fun fs => ∃ x : Command, fs = x.fields) := by
  refine failsWithin_code ⟨0, [], .info, rfl⟩ fun c _ => ?_
  match c with
  | 0 => exact .inl (Dec.failsWithin_value _ _)
  | 1 => exact .inl (Dec.failsWithin_value _ _)
  | 2 => exact .inl ((decLimb_failsWithin.mono fun fs ⟨x, hx⟩ => ⟨.setLimb x, by rw [hx]; rfl⟩).map _)
  | 3 => exact .inl (readVec_failsWithin ⟨0, .toggleLimb 0, rfl⟩ |>.map _)
  | 4 => exact .inl ((decLimbType_failsWithin.mono fun fs ⟨x, hx⟩ => ⟨.setLimbType x, by rw [hx]; rfl⟩).map _)
  | n + 5 => exact .inr ⟨.invalidCommand, rfl, by decide, fun _ => rfl⟩

theorem decResponse_failsWithin : Dec.FailsWithin decResponse (fun fs => ∃ x : Response, fs = x.fields) := by
  refine failsWithin_code ⟨0, [], .ok, rfl⟩ fun c _ => ?_
  match c with
  | 0 => exact .inl (Dec.failsWithin_value _ _)
  | 1 => exact .inl ((decNodeInfo_failsWithin.mono fun fs ⟨x, hx⟩ => ⟨.info x, by rw [hx]; rfl⟩).map _)
  | 2 =>
    have ho := decOption_failsWithin decLimb_failsWithin
    have hx := decOption_exact decLimb_exact
    refine .inl (Dec.FailsWithin.andThen
      (ho.mono fun fs ⟨x, hx⟩ => ⟨optionFields Limb.fields none ++ optionFields Limb.fields none, .limbs x none none, by
        rw [hx]; simp only [Response.fields, List.append_assoc]⟩)
      hx fun x => ?_)
    refine Dec.FailsWithin.andThen
      (ho.mono fun fs ⟨y, hy⟩ => ⟨optionFields Limb.fields none, .limbs x y none, by
        rw [hy]; simp only [Response.fields, List.append_assoc]⟩)
      hx fun y => ?_
    exact (ho.mono fun fs ⟨z, hz⟩ => ⟨.limbs x y z, by rw [hz]; simp only [Response.fields, List.append_assoc]⟩).map _
  | 3 => exact .inl ((readVec_failsWithin ⟨0, .heartbeat 0, rfl⟩).map _)
  | 4 => exact .inr ⟨.invalidResponse, rfl, by decide, fun _ => rfl⟩
  | 5 => exact .inr ⟨.invalidResponse, rfl, by decide, fun _ => rfl⟩
  | 6 => exact .inr ⟨.invalidResponse, rfl, by decide, fun _ => rfl⟩
  | 7 => exact .inr ⟨.invalidResponse, rfl, by decide, fun _ => rfl⟩
  | 8 => exact .inl (Dec.failsWithin_value _ _)
  | 9 => exact .inl (Dec.failsWithin_value _ _)
  | n + 10 => exact .inr ⟨.invalidResponse, rfl, by decide, fun _ => rfl⟩

theorem decMessageData_failsWithin :
    Dec.FailsWithin decMessageData (fun fs => ∃ x : MessageData, fs = x.fields) := by
  refine Dec.FailsWithin.andThen (readFlag_failsWithin ⟨false, _, .command 0 .info, rfl⟩) readFlag_exact_field fun p => ?_
  cases p with
  | true =>
    refine Dec.FailsWithin.andThen ((readBits_failsWithin (w := 6) ⟨0, false, _, .response none .ok, rfl⟩).map _)
      decResponseId_exact_field fun i => ?_
    exact (decResponse_failsWithin.mono fun fs ⟨x, hx⟩ => ⟨.response i x, by rw [hx]; rfl⟩).map _
  | false =>
    refine Dec.FailsWithin.andThen (readVec_failsWithin ⟨0, _, .command 0 .info, rfl⟩)
      (readVec_exact_field (by decide)) fun i => ?_
    exact (decCommand_failsWithin.mono fun fs ⟨x, hx⟩ => ⟨.command i x, by rw [hx]; rfl⟩).map _

theorem readBytes_failsWithin (n : Nat) :
    Dec.FailsWithin (readBytes n) (fun fs => ∃ v : Vector Byte n, fs = v.toList.map fun x => vecField x 8) := by
  induction n with
  | zero => exact Dec.failsWithin_value _ _
  | succ n ih =>
    refine Dec.FailsWithin.andThen
      (ih.mono fun fs ⟨v, hv⟩ => ⟨[vecField (0 : Byte) 8], v.push 0, by rw [hv]; simp [toList_push]⟩)
      (readBytes_exact n) fun v => ?_
    exact (readVec_failsWithin ⟨0, v.push 0, by simp [toList_push]⟩).map _

theorem decMessageBody_failsWithin :
    Dec.FailsWithin decMessageBody (fun fs => ∃ m : Message, fs = codeField m.code 4 :: m.bodyFields) := by
  have node : ∀ {S : List Field → Prop} {β : Type} {f : Word → Dec β},
      (∃ post, S ([vecField (0 : Word) 32] ++ post)) → (∀ n, Dec.FailsWithin (f n) fun fs => S ([vecField n 32] ++ fs)) →
      Dec.FailsWithin (Dec.andThen (readVec 32 32) f) S := fun h hf =>
    Dec.FailsWithin.andThen (readVec_failsWithin ⟨0, h⟩) (readVec_exact_field (by decide)) hf
  refine failsWithin_code ⟨2, _, .searchingNetwork 0, rfl⟩ fun c _ => ?_
  match c with
  | 0 => exact .inl ((decMessageData_failsWithin.mono fun fs ⟨x, hx⟩ => ⟨.message x, by rw [hx]; rfl⟩).map _)
  | 1 =>
    exact .inl (node ⟨_, .relayMessage 0 (.command 0 .info), rfl⟩ fun n =>
      (decMessageData_failsWithin.mono fun fs ⟨x, hx⟩ => ⟨.relayMessage n x, by rw [hx]; rfl⟩).map _)
  | 2 => exact .inl ((readVec_failsWithin ⟨0, .searchingNetwork 0, rfl⟩).map _)
  | 3 => exact .inl (node ⟨_, .network 0 0, rfl⟩ fun n => (readVec_failsWithin ⟨0, .network n 0, rfl⟩).map _)
  | 4 =>
    exact .inl (node ⟨_, .debugMessage 0 (Vector.replicate 20 0), rfl⟩ fun n =>
      ((readBytes_failsWithin 20).mono fun fs ⟨x, hx⟩ => ⟨.debugMessage n x, by rw [hx]; rfl⟩).map _)
  | n + 5 => exact .inr ⟨.invalidMessage, rfl, by decide, fun _ => rfl⟩

/-- A decode of a Message fails in a field of some Message (R342, R381). -/
theorem decMessage_failsWithin : Dec.FailsWithin decMessage (fun fs => ∃ m : Message, fs = m.fields) := by
  refine failsWithin_code ⟨1, _, .searchingNetwork 0, rfl⟩ fun c _ => ?_
  by_cases h : c = Config.protocolVersion
  · subst h
    exact .inl (decMessageBody_failsWithin.mono fun fs ⟨m, hm⟩ => ⟨m, by rw [hm]; rfl⟩)
  · exact .inr ⟨.versionMismatch, if_neg h, by decide, fun hh => absurd rfl hh⟩

end Sys2Proof
end

