-- ==== Sys2Proof/Laws/Packing.lean ====
section
/-! SUPPORT. The bytes a writer session leaves for a bit string (spec/00_scope.md R9, spec/20_memory.md R87), and what an
encode and a decode over a slice of WBUF answer, in terms of the bit string. -/

namespace Sys2Proof.Machine

@[simp] theorem packBits_length (bs : Bits) : (packBits bs).length = bytesFor bs.length := by
  simp [packBits, bytesFor]

/-- Count() at stream position k (R154). -/
theorem State.count_of {s : State} {k : Nat} (h1 : s.bytePos = k / 8) (h2 : s.bitPos = k % 8) :
    s.count = bytesFor k := by
  rw [State.count_eq s (by omega)]
  simp only [State.cursor, bytesFor]
  omega

/-- Bit k (from the top) of a byte that a bit string was packed into. -/
theorem natOf_testBit (bs : Bits) (k : Nat) (h : k < bs.length) :
    (natOf bs).testBit (bs.length - 1 - k) = bs[k] := by
  induction bs generalizing k with
  | nil => simp at h
  | cons b bs ih =>
    rw [natOf_cons, Nat.mul_comm]
    simp only [List.length_cons] at h ⊢
    cases k with
    | zero =>
      rw [Nat.testBit_two_pow_mul_add _ (natOf_lt bs), if_neg (by omega)]
      cases b <;> simp
    | succ k =>
      rw [Nat.testBit_two_pow_mul_add _ (natOf_lt bs), if_pos (by omega), List.getElem_cons_succ, ← ih k (by omega)]
      congr 1; omega

/-- The stream of packed bytes: the bits, then zeros. -/
theorem packBits_stream (bs : Bits) (p : Nat) (h : p / 8 < bytesFor bs.length) :
    ((packBits bs).getD (p / 8) 0).getLsbD (7 - p % 8) = bs.getD p false := by
  unfold bytesFor at h
  have hlen : (((bs ++ List.replicate 7 false).drop (8 * (p / 8))).take 8).length = 8 := by
    simp; omega
  have hget : (packBits bs).getD (p / 8) 0 =
      BitVec.ofNat 8 (natOf (((bs ++ List.replicate 7 false).drop (8 * (p / 8))).take 8)) := by
    simp [packBits, List.getD, h]
  rw [hget, BitVec.getLsbD_ofNat]
  have := natOf_testBit (((bs ++ List.replicate 7 false).drop (8 * (p / 8))).take 8) (p % 8) (by omega)
  simp only [show (((bs ++ List.replicate 7 false).drop (8 * (p / 8))).take 8).length - 1 - p % 8 = 7 - p % 8 by omega]
    at this
  rw [this, List.getElem_take, List.getElem_drop]
  simp only [show 7 - p % 8 < 8 by omega, decide_true, Bool.true_and, show 8 * (p / 8) + p % 8 = p by omega]
  rw [List.getElem_append]
  split
  · rename_i h'; simp [List.getD, h']
  · rename_i h'
    rw [List.getElem_replicate, List.getD, List.getElem?_eq_none (by omega)]
    rfl

/-- Two bytes with the same eight bits are the same. -/
theorem byte_ext {x y : Byte} (h : ∀ k, k < 8 → x.getLsbD (7 - k) = y.getLsbD (7 - k)) : x = y := by
  apply BitVec.eq_of_getLsbD_eq
  intro i hi
  have := h (7 - i) (by omega)
  rwa [show 7 - (7 - i) = i by omega] at this

/-- A window byte from its stream bits: WBUF[0] is at 0x20, and PAYLOAD follows WBUF. Below the buffers nothing is
listed. -/
theorem Memory.read_ext {s t : State} (hs : Memory.wf s.mem = true) (ht : Memory.wf t.mem = true) {a : Nat}
    (h : ∀ p, p / 8 + 0x20 = a → s.streamBit p = t.streamBit p) : Memory.read s.mem a = Memory.read t.mem a := by
  by_cases ha : a < 0x20
  · rw [Memory.read_below hs ha, Memory.read_below ht ha]
  · apply byte_ext
    intro k hk
    have := h (8 * (a - 0x20) + k) (by omega)
    simp only [State.streamBit, State.wbuf] at this
    rwa [show (8 * (a - 0x20) + k) / 8 = a - 0x20 by omega, show (8 * (a - 0x20) + k) % 8 = k by omega,
      show Config.wbufBase + (a - 0x20) = a from (by show 0x20 + _ = _; omega)] at this

/-- What a field's bits leave of the bytes outside the ones they enter or continue (R152). -/
theorem State.writeBits_outside {s : State} {bs : Bits} (hm : Memory.wf s.mem = true) (hb : s.bitPos ≤ 7)
    (hc : s.cursor + bs.length ≤ 256) {a : Nat}
    (ha : ¬ (0x20 + s.cursor / 8 ≤ a ∧ a < 0x20 + bytesFor (s.cursor + bs.length))) :
    Memory.read (s.writeBits bs).mem a = Memory.read s.mem a := by
  obtain ⟨m, h1, h2, h3⟩ := State.writeBits_spec bs s hm hb hc
  apply Memory.read_ext (by rw [h1]; exact h2) hm
  intro p hp
  rw [h3]
  unfold bytesFor at ha
  unfold writtenBit
  rw [if_neg (by omega), if_neg (by omega)]

/-- A write from the start of a slice packs the bits: R152 from position 0 on. -/
theorem State.writeBits_pack {s : State} {bs : Bits} (hm : Memory.wf s.mem = true) (h0 : s.cursor = 0)
    (hl : bs.length ≤ 256) : StoredAt s.mem (s.writeBits bs).mem 0x20 (packBits bs) := by
  have hb : s.bitPos ≤ 7 := by simp only [State.cursor] at h0; omega
  obtain ⟨m, h1, h2, h3⟩ := State.writeBits_spec bs s hm hb (by omega)
  refine ⟨by rw [h1]; exact h2, fun a => ?_⟩
  rw [packBits_length]
  split
  · rename_i ha
    apply byte_ext
    intro k hk
    have hs := h3 (8 * (a - 0x20) + k)
    have hp := packBits_stream bs (8 * (a - 0x20) + k) (by omega)
    simp only [State.streamBit, State.wbuf, writtenBit, h0] at hs
    rw [show (8 * (a - 0x20) + k) / 8 = a - 0x20 by omega, show (8 * (a - 0x20) + k) % 8 = k by omega] at hs hp
    rw [show Config.wbufBase + (a - 0x20) = a from (by show 0x20 + _ = _; omega)] at hs
    rw [hs, hp]
    unfold bytesFor at ha
    split
    · simp
    · rw [if_pos (by omega), List.getD, List.getElem?_eq_none (by omega)]; rfl
  · rename_i ha
    exact State.writeBits_outside hm hb (by omega) (by rw [h0]; simpa using ha)

end Sys2Proof.Machine
end

