-- ==== Sys2Proof/Laws/Sessions.lean ====
section
/-! SUPPORT. What the internal sessions of the message commands answer (spec/43_message_envelope.md R340, R341): one lemma per
outcome, in terms of the Message's bits. -/

namespace Sys2Proof.Machine

theorem State.openSlice_inv {s : State} {n : Nat} (hm : Memory.wf s.mem = true) (hn : n ≤ 32) : (s.openSlice n).Inv :=
  ⟨hm, by simp, by simpa using hn, by simp⟩

/-- Writing only touches the buffers and the cursor. -/
theorem State.writeBits_frame {s : State} {bs : Bits} (hm : Memory.wf s.mem = true) (hb : s.bitPos ≤ 7)
    (hc : s.cursor + bs.length ≤ 256) :
    s.writeBits bs = ({ s with mem := (s.writeBits bs).mem } : State).setCursor (s.cursor + bs.length) := by
  obtain ⟨m, h1, -, -⟩ := State.writeBits_spec bs s hm hb hc
  have : (s.writeBits bs).mem = m := by rw [h1]; rfl
  rw [this]
  exact h1

/-- An encode that fits. -/
theorem encodeInto_ok {s : State} {m : Message} {n : Nat} (hm : Memory.wf s.mem = true) (hn : n ≤ 32)
    (h : m.bits.length ≤ 8 * n) : ∃ mem, StoredAt s.mem mem 0x20 (packBits m.bits) ∧
      encodeInto n m s = .ok
        { s with mem := mem, limit := n, bytePos := m.bits.length / 8, bitPos := m.bits.length % 8,
                 cv := s.cv || decide (¬ m.Canonical) } := by
  have hi := State.openSlice_inv hm hn
  have hw : fieldsWidth m.fields = m.bits.length := by simp [Message.bits]
  refine ⟨_, State.writeBits_pack (s := s.openSlice n) hm rfl (by omega), ?_⟩
  unfold encodeInto
  rw [writeFields_ok m.fields _ hi (by simp [hw]; omega)]
  congr 1
  have hf := State.writeBits_frame (s := s.openSlice n) (bs := m.bits) hm (by simp) (by simp; omega)
  have hv : m.fields.any Field.violates = decide (¬ m.Canonical) := Message.violations_fields m
  rw [hv, show fieldsBits m.fields = m.bits from rfl]
  conv_lhs => rw [hf]
  simp only [State.openSlice_cursor, Nat.zero_add]
  rfl

/-- An encode that does not fit. -/
theorem encodeInto_err {s : State} {m : Message} {n : Nat} (hm : Memory.wf s.mem = true) (hn : n ≤ 32)
    (h : 8 * n < m.bits.length) : ∃ gs f rest mem, m.fields = gs ++ f :: rest ∧
      fieldsWidth gs ≤ 8 * n ∧ 8 * n < fieldsWidth gs + f.width ∧
      StoredAt s.mem mem 0x20 (packBits (fieldsBits gs)) ∧
      encodeInto n m s = .err .bufferOverflow
        { s with mem := mem, limit := n, bytePos := fieldsWidth gs / 8, bitPos := fieldsWidth gs % 8,
                 cv := s.cv || (gs.any Field.violates || f.violation) } := by
  have hi := State.openSlice_inv hm hn
  have hw : fieldsWidth m.fields = m.bits.length := by simp [Message.bits]
  obtain ⟨gs, f, rest, e1, e2, e3, e4⟩ := writeFields_err m.fields (s.openSlice n) hi (by simp [hw]; omega)
  simp only [State.openSlice_cursor, Nat.zero_add, State.openSlice_limit] at e2 e3
  refine ⟨gs, f, rest, _, e1, e2, e3,
    State.writeBits_pack (s := s.openSlice n) hm rfl (by simp; omega), ?_⟩
  unfold encodeInto
  rw [e4]
  congr 1
  have hf := State.writeBits_frame (s := s.openSlice n) (bs := fieldsBits gs) hm (by simp) (by simp; omega)
  conv_lhs => rw [hf]
  simp only [State.openSlice_cursor, Nat.zero_add, fieldsBits_length]
  rfl

/-- The unread bits of a fresh slice are its stream. -/
theorem State.openSlice_unread (s : State) (n : Nat) : (s.openSlice n).unread = s.bitsFrom 0 (8 * n) := by
  simp only [State.unread, State.openSlice_cursor, State.openSlice_limit, Nat.sub_zero]
  rfl

/-- A decode that goes through. -/
theorem decodeFrom_ok {s : State} {n : Nat} {m : Message} {rest : Bits}
    (h : decMessage (s.bitsFrom 0 (8 * n)) = .ok m rest) :
    ∃ k, k + rest.length = 8 * n ∧ k = m.bits.length ∧ m.Canonical ∧ s.bitsFrom 0 k = m.bits ∧
      decodeFrom n s =
        { s with limit := n, bytePos := k / 8, bitPos := k % 8, msgOut := some m,
                 result := BitVec.ofNat 32 (bytesFor k), err := none } := by
  obtain ⟨h1, h2⟩ := decMessage_exact _ _ _ h
  have hl : m.bits.length + rest.length = 8 * n := by
    have := congrArg List.length h1
    simp at this
    omega
  refine ⟨m.bits.length, hl, rfl, h2, ?_, ?_⟩
  · rw [← hl, State.bitsFrom_add] at h1
    exact (List.append_inj h1 (by simp)).1
  · unfold decodeFrom
    rw [runDec_ok (by rw [State.openSlice_unread]; exact h)]
    have e : 8 * n - rest.length = m.bits.length := by omega
    simp only [State.openSlice_limit, e]
    have hc : ((s.openSlice n).setCursor m.bits.length).count = bytesFor m.bits.length := by
      rw [State.count_eq _ (by rw [State.setCursor_bitPos]; omega), State.setCursor_cursor]
      rfl
    show State.succeed _ (BitVec.ofNat 32 ((s.openSlice n).setCursor m.bits.length).count) = _
    rw [hc]
    rfl

/-- A decode that fails. -/
theorem decodeFrom_err {s : State} {n : Nat} {e : Error} {rest : Bits}
    (h : decMessage (s.bitsFrom 0 (8 * n)) = .err e rest) :
    e ∈ decodeErrors ∧ ∃ k, k + rest.length = 8 * n ∧
      decodeFrom n s =
        { s with limit := n, bytePos := k / 8, bitPos := k % 8, msgOut := none, result := 0, err := some e } := by
  obtain ⟨he, -, used, hu, -⟩ := local_decMessage.err _ _ _ h
  have hl : used.length + rest.length = 8 * n := by
    have := congrArg List.length hu
    simp at this
    omega
  refine ⟨he, used.length, hl, ?_⟩
  unfold decodeFrom
  rw [runDec_err (by rw [State.openSlice_unread]; exact h)]
  simp only [State.openSlice_limit, show 8 * n - rest.length = used.length by omega]
  rfl

/-- A decode goes through or fails. -/
theorem decMessage_total (bs : Bits) : (∃ m rest, decMessage bs = .ok m rest) ∨ (∃ e rest, decMessage bs = .err e rest) := by
  cases decMessage bs with
  | ok m rest => exact .inl ⟨m, rest, rfl⟩
  | err e rest => exact .inr ⟨e, rest, rfl⟩

end Sys2Proof.Machine
end

