-- ==== Sys2Proof/Laws/Frames.lean ====
section
/-! SUPPORT. Frames: what an encode, a decode and a command can change, in every state, well formed or not. -/

namespace Sys2Proof.Machine

/-- t is s after some writing: only the buffers, the cursor and CV may differ, and CV does not fall. -/
def Wrote (s t : State) : Prop :=
  t = { s with mem := t.mem, bytePos := t.bytePos, bitPos := t.bitPos, cv := t.cv } ∧ (s.cv = true → t.cv = true)

theorem Wrote.refl (s : State) : Wrote s s := ⟨rfl, id⟩

theorem Wrote.trans {s t u : State} (h : Wrote s t) (k : Wrote t u) : Wrote s u :=
  ⟨by rw [k.1, h.1], fun hc => k.2 (h.2 hc)⟩

theorem wrote_writeBit (s : State) (b : Bool) : Wrote s (s.writeBit b) := by
  unfold State.writeBit
  by_cases h : s.bitPos + 1 = 8
  · rw [if_pos h]; exact ⟨rfl, id⟩
  · rw [if_neg h]; exact ⟨rfl, id⟩

theorem wrote_writeBits (s : State) (bs : Bits) : Wrote s (s.writeBits bs) := by
  induction bs generalizing s with
  | nil => exact Wrote.refl s
  | cons b bs ih => exact (wrote_writeBit s b).trans (ih _)

theorem wrote_flagIf (s : State) (v : Bool) : Wrote s (s.flagIf v) :=
  ⟨rfl, fun h => by simp [h]⟩

/-- BitWrite goes through or overflows; an overflow leaves the state (R152). -/
theorem bitWrite_cases (v w : Nat) (s : State) :
    (∃ t, bitWrite v w s = .ok t ∧ Wrote s t) ∨ bitWrite v w s = .err .bufferOverflow s := by
  unfold bitWrite
  split
  · exact .inr rfl
  · exact .inl ⟨_, rfl, (wrote_flagIf s _).trans (wrote_writeBits _ _)⟩

/-- An encoder goes through or overflows (R340: it raises no other error). -/
theorem writeFields_cases (fs : List Field) (s : State) :
    (∃ t, writeFields fs s = .ok t ∧ Wrote s t) ∨ ∃ t, writeFields fs s = .err .bufferOverflow t ∧ Wrote s t := by
  induction fs generalizing s with
  | nil => exact .inl ⟨s, rfl, Wrote.refl s⟩
  | cons f fs ih =>
    simp only [writeFields]
    rcases bitWrite_cases f.value f.width (s.flagIf f.violation) with ⟨t, h1, h2⟩ | h1
    · have hw := (wrote_flagIf s f.violation).trans h2
      rw [h1]
      rcases ih t with ⟨u, k1, k2⟩ | ⟨u, k1, k2⟩
      · exact .inl ⟨u, k1, hw.trans k2⟩
      · exact .inr ⟨u, k1, hw.trans k2⟩
    · rw [h1]
      exact .inr ⟨_, rfl, wrote_flagIf s f.violation⟩

theorem encodeInto_cases (n : Nat) (m : Message) (s : State) :
    (∃ t, encodeInto n m s = .ok t ∧ Wrote (s.openSlice n) t) ∨
      ∃ t, encodeInto n m s = .err .bufferOverflow t ∧ Wrote (s.openSlice n) t := writeFields_cases _ _

/-- BitRead goes through or underflows (R162); either way only the cursor moves. -/
theorem bitRead_cases (w : Nat) (s : State) :
    (∃ v p, bitRead w s = .ok v (s.setCursor p)) ∨ ∃ p, bitRead w s = .err .bufferUnderflow (s.setCursor p) := by
  unfold bitRead
  rcases readBits_cases (w := w) (bs := s.unread) with ⟨v, rest, h, -, -⟩ | ⟨h, -⟩
  · exact .inl ⟨v, _, runDec_ok h⟩
  · exact .inr ⟨_, runDec_err h⟩

/-- A decode ends in a canonical Message or in one of the decode errors, and changes only what R341 names. -/
theorem decodeFrom_cases (n : Nat) (s : State) :
    (∃ m k, m.Canonical ∧ k ≤ 8 * n ∧ decodeFrom n s =
        { s with limit := n, bytePos := k / 8, bitPos := k % 8, msgOut := some m,
                 result := BitVec.ofNat 32 (bytesFor k), err := none }) ∨
      ∃ e k, e ∈ decodeErrors ∧ k ≤ 8 * n ∧ decodeFrom n s =
        { s with limit := n, bytePos := k / 8, bitPos := k % 8, msgOut := none, result := 0, err := some e } := by
  rcases decMessage_total (s.bitsFrom 0 (8 * n)) with ⟨m, rest, hd⟩ | ⟨e, rest, hd⟩
  · obtain ⟨k, h1, -, h3, -, h5⟩ := decodeFrom_ok hd
    exact .inl ⟨m, k, h3, by omega, h5⟩
  · obtain ⟨he, k, h1, h2⟩ := decodeFrom_err hd
    exact .inr ⟨e, k, he, by omega, h2⟩

/-- Every instruction ends in a next state (spec/60_exceptions.md R380). -/
theorem exec_total (i : Instr) (s : State) : ∃ t, exec i s = .next t := by
  cases i <;> exact ⟨_, rfl⟩

end Sys2Proof.Machine
end

