-- ==== Sys2Proof/Laws/Leaves.lean ====
section
/-! SUPPORT. What a command leaves, said once over all of them: the fields it may write, the errors it may end in, what it
does to the two ports (spec/10_state.md R35 to R42, spec/60_exceptions.md R381). -/

namespace Sys2Proof.Machine

/-- What a command may leave, over all commands: which fields it may write, and how (R35, R37 to R42). -/
structure CommandLeaves (i : Instr) (s t : State) : Prop where
  rest : t = { s with mem := t.mem, result := t.result, err := t.err, cv := t.cv, mode := t.mode, bytePos := t.bytePos,
                      bitPos := t.bitPos, limit := t.limit, msgIn := t.msgIn, msgOut := t.msgOut }
  errors : ∀ e ∈ t.err, e ∈ mayRaise i
  zero : t.err ≠ none → t.result = 0
  msgIn : t.msgIn = if i = .clearStatus then none else s.msgIn
  msgOut : i ≠ .clearStatus → (decodes i = false → t.msgOut = s.msgOut) ∧
    (decodes i = true → (t.err = none → ∃ m, t.msgOut = some m ∧ m.Canonical) ∧ (t.err ≠ none → t.msgOut = none))

theorem leaves_failed {i : Instr} {s : State} {e : Error} (h : e ∈ mayRaise i) (hc : i ≠ .clearStatus)
    (hd : decodes i = false) : CommandLeaves i s (failed e s) where
  rest := rfl
  errors := by intro x hx; simp at hx; rw [← hx]; exact h
  zero := fun _ => rfl
  msgIn := by rw [if_neg hc]
  msgOut := fun _ => ⟨fun _ => rfl, fun h' => by rw [hd] at h'; cases h'⟩

theorem leaves_failed_decode {i : Instr} {s : State} {e : Error} (h : e ∈ mayRaise i) (hc : i ≠ .clearStatus)
    (hd : decodes i = true) : CommandLeaves i s (failed e (s.setMsgOut none)) where
  rest := rfl
  errors := by intro x hx; simp at hx; rw [← hx]; exact h
  zero := fun _ => rfl
  msgIn := by rw [if_neg hc]; rfl
  msgOut := fun _ => ⟨fun h' => (by rw [hd] at h'; cases h'), fun _ => ⟨fun h' => (by simp at h'), fun _ => rfl⟩⟩

theorem leaves_ok {i : Instr} {s t : State} {r : Word} (hc : i ≠ .clearStatus) (hd : decodes i = false)
    (h : t = { s with mem := t.mem, cv := t.cv, mode := t.mode, bytePos := t.bytePos, bitPos := t.bitPos,
                      limit := t.limit }) :
    CommandLeaves i s (t.succeed r) where
  rest := by rw [h]; rfl
  errors := by intro x hx; simp at hx
  zero := fun h => absurd rfl h
  msgIn := by rw [if_neg hc, h]; rfl
  msgOut := fun _ => ⟨fun _ => by rw [h]; rfl, fun h' => by rw [hd] at h'; cases h'⟩

theorem leaves_raise {i : Instr} {s t : State} {e : Error} (he : e ∈ mayRaise i) (hc : i ≠ .clearStatus)
    (hd : decodes i = false)
    (h : t = { s with mem := t.mem, cv := t.cv, mode := t.mode, bytePos := t.bytePos, bitPos := t.bitPos,
                      limit := t.limit }) :
    CommandLeaves i s (t.raise e) where
  rest := by rw [h]; rfl
  errors := by intro x hx; simp at hx; rw [← hx]; exact he
  zero := fun _ => rfl
  msgIn := by rw [if_neg hc, h]; rfl
  msgOut := fun _ => ⟨fun _ => by rw [h]; rfl, fun h' => by rw [hd] at h'; cases h'⟩

theorem leaves_decodeFrom {i : Instr} {s s' : State} {n : Nat} (hsub : decodeErrors ⊆ mayRaise i) (hc : i ≠ .clearStatus)
    (hd : decodes i = true)     (h : s' = { s with mem := s'.mem, msgOut := s'.msgOut, result := s'.result, err := s'.err}) :
    CommandLeaves i s (decodeFrom n s') := by
  rcases decodeFrom_cases n s' with ⟨m, k, h1, h2, h3⟩ | ⟨e, k, h1, h2, h3⟩ <;> rw [h3]
  · refine ⟨?_, ?_, ?_, ?_, ?_⟩
    · rw [h]
    · intro x hx; simp at hx
    · intro h; simp at h
    · rw [if_neg hc, h]
    · exact fun _ => ⟨fun h' => (by rw [hd] at h'; cases h'), fun _ => ⟨fun _ => ⟨m, rfl, h1⟩, fun h' => by simp at h'⟩⟩
  · refine ⟨?_, ?_, ?_, ?_, ?_⟩
    · rw [h]
    · intro x hx; simp at hx; rw [← hx]; exact hsub h1
    · intro h; rfl
    · rw [if_neg hc, h]
    · exact fun _ => ⟨fun h' => (by rw [hd] at h'; cases h'), fun _ => ⟨fun h' => (by simp at h'), fun _ => rfl⟩⟩

theorem wrote_shape {s t : State} {n : Nat} (h : Wrote (s.openSlice n) t) :
    t = { s with mem := t.mem, cv := t.cv, mode := t.mode, bytePos := t.bytePos, bitPos := t.bitPos,
                 limit := t.limit } := by
  have := h.1
  rw [this]; rfl

/-- What every command leaves, in every state. -/
theorem command_leaves {i : Instr} {s t : State} (hi : isCommand i = true) (h : exec i s = .next t) :
    CommandLeaves i s t := by
  cases i with
  | nop => cases h; exact leaves_ok (by simp) rfl rfl
  | clearStatus =>
    cases h
    exact ⟨rfl, by intro x hx; simp [State.succeed] at hx, fun h => absurd rfl h, rfl, fun h => absurd rfl h⟩
  | bwBegin n =>
    cases h
    unfold beginSession
    rcases needMode_cases .idle _ s with ⟨-, e⟩ | ⟨-, e⟩ <;> rw [e]
    · rcases needAtMost_cases n.toNat Config.wbufSize .illegalLimit _ s with ⟨-, e⟩ | ⟨-, e⟩ <;> rw [e]
      · exact leaves_ok (by simp) rfl rfl
      · exact leaves_failed (List.elem_iff.mp rfl) (by simp) rfl
    · exact leaves_failed (List.elem_iff.mp rfl) (by simp) rfl
  | brBegin n =>
    cases h
    unfold beginSession
    rcases needMode_cases .idle _ s with ⟨-, e⟩ | ⟨-, e⟩ <;> rw [e]
    · rcases needAtMost_cases n.toNat Config.wbufSize .illegalLimit _ s with ⟨-, e⟩ | ⟨-, e⟩ <;> rw [e]
      · exact leaves_ok (by simp) rfl rfl
      · exact leaves_failed (List.elem_iff.mp rfl) (by simp) rfl
    · exact leaves_failed (List.elem_iff.mp rfl) (by simp) rfl
  | bwFinalize =>
    cases h
    unfold endSession
    rcases needMode_cases .write _ s with ⟨-, e⟩ | ⟨-, e⟩ <;> rw [e]
    · exact leaves_ok (by simp) rfl rfl
    · exact leaves_failed (List.elem_iff.mp rfl) (by simp) rfl
  | brEnd =>
    cases h
    unfold endSession
    rcases needMode_cases .read _ s with ⟨-, e⟩ | ⟨-, e⟩ <;> rw [e]
    · exact leaves_ok (by simp) rfl rfl
    · exact leaves_failed (List.elem_iff.mp rfl) (by simp) rfl
  | bwWrite n =>
    cases h
    rcases needMode_cases .write _ s with ⟨-, e⟩ | ⟨-, e⟩ <;> rw [e]
    · rcases needAtMost_cases n.toNat Config.maxFieldWidth .illegalWidth _ s with ⟨-, e⟩ | ⟨-, e⟩ <;> rw [e]
      · rcases bitWrite_cases s.arg0.toNat n.toNat s with ⟨t, h1, h2⟩ | h1 <;> simp only [h1]
        · exact leaves_ok (by simp) rfl (by have := h2.1; rw [this])
        · exact leaves_failed (List.elem_iff.mp rfl) (by simp) rfl
      · exact leaves_failed (List.elem_iff.mp rfl) (by simp) rfl
    · exact leaves_failed (List.elem_iff.mp rfl) (by simp) rfl
  | brRead n =>
    cases h
    rcases needMode_cases .read _ s with ⟨-, e⟩ | ⟨-, e⟩ <;> rw [e]
    · rcases needAtMost_cases n.toNat Config.maxFieldWidth .illegalWidth _ s with ⟨-, e⟩ | ⟨-, e⟩ <;> rw [e]
      · rcases bitRead_cases n.toNat s with ⟨v, p, h1⟩ | ⟨p, h1⟩ <;> simp only [h1]
        · exact leaves_ok (by simp) rfl rfl
        · exact leaves_raise (List.elem_iff.mp rfl) (by simp) rfl rfl
      · exact leaves_failed (List.elem_iff.mp rfl) (by simp) rfl
    · exact leaves_failed (List.elem_iff.mp rfl) (by simp) rfl
  | msgEncode n =>
    cases h
    rcases needMode_cases .idle _ s with ⟨-, e⟩ | ⟨-, e⟩ <;> rw [e]
    · rcases needMsgIn_cases _ s with ⟨m, -, e⟩ | ⟨-, e⟩ <;> rw [e]
      · rcases needAtMost_cases n.toNat Config.wbufSize .illegalLimit _ s with ⟨-, e⟩ | ⟨-, e⟩ <;> rw [e]
        · rcases encodeInto_cases n.toNat m s with ⟨t, h1, h2⟩ | ⟨t, h1, h2⟩ <;> simp only [h1]
          · exact leaves_ok (by simp) rfl (wrote_shape h2)
          · exact leaves_raise (List.elem_iff.mp rfl) (by simp) rfl (wrote_shape h2)
        · exact leaves_failed (List.elem_iff.mp rfl) (by simp) rfl
      · exact leaves_failed (List.elem_iff.mp rfl) (by simp) rfl
    · exact leaves_failed (List.elem_iff.mp rfl) (by simp) rfl
  | frameMsg a pipe =>
    cases h
    rcases needMode_cases .idle _ s with ⟨-, e⟩ | ⟨-, e⟩ <;> rw [e]
    · rcases needMsgIn_cases _ s with ⟨m, -, e⟩ | ⟨-, e⟩ <;> rw [e]
      · rcases encodeInto_cases (Config.payloadSize - headerLength (if a then some s.argAddress else none)) m s with ⟨t, h1, h2⟩ | ⟨t, h1, h2⟩ <;> simp only [h1]
        · refine leaves_ok (by simp) rfl ?_
          have := wrote_shape h2
          rw [this]; rfl
        · exact leaves_raise (List.elem_iff.mp rfl) (by simp) rfl (wrote_shape h2)
      · exact leaves_failed (List.elem_iff.mp rfl) (by simp) rfl
    · exact leaves_failed (List.elem_iff.mp rfl) (by simp) rfl
  | msgDecode n =>
    cases h
    rcases needMode_cases .idle _ (s.setMsgOut none) with ⟨-, e⟩ | ⟨-, e⟩ <;> rw [e]
    · rcases needAtMost_cases n.toNat Config.wbufSize .illegalLimit _ (s.setMsgOut none) with
        ⟨-, e⟩ | ⟨-, e⟩ <;> rw [e]
      · exact leaves_decodeFrom (fun x hx => List.mem_cons_of_mem _ (List.mem_cons_of_mem _ hx)) (by simp) rfl rfl
      · exact leaves_failed_decode (List.elem_iff.mp rfl) (by simp) rfl
    · exact leaves_failed_decode (List.elem_iff.mp rfl) (by simp) rfl
  | unframeMsg =>
    cases h
    rcases needMode_cases .idle _ (s.setMsgOut none) with ⟨-, e⟩ | ⟨-, e⟩ <;> rw [e]
    · rcases needValid_cases _ (s.setMsgOut none) with ⟨-, e⟩ | ⟨-, e⟩ <;> rw [e]
      · exact leaves_decodeFrom (fun x hx => List.mem_cons_of_mem _ (List.mem_cons_of_mem _ hx)) (by simp) rfl rfl
      · exact leaves_failed_decode (List.elem_iff.mp rfl) (by simp) rfl
    · exact leaves_failed_decode (List.elem_iff.mp rfl) (by simp) rfl
  | plNew n pipe =>
    cases h
    rcases needAtMost_cases n.toNat 30 .payloadTooLong _ s with ⟨-, e⟩ | ⟨-, e⟩ <;> rw [e]
    · exact leaves_ok (by simp) rfl rfl
    · exact leaves_failed (List.elem_iff.mp rfl) (by simp) rfl
  | plNewWithAddr n pipe =>
    cases h
    rcases needAtMost_cases n.toNat 28 .payloadTooLong _ s with ⟨-, e⟩ | ⟨-, e⟩ <;> rw [e]
    · exact leaves_ok (by simp) rfl rfl
    · exact leaves_failed (List.elem_iff.mp rfl) (by simp) rfl
  | plPipe => cases h; exact leaves_ok (by simp) rfl rfl
  | plLen => cases h; exact leaves_ok (by simp) rfl rfl
  | plAddress => cases h; exact leaves_ok (by simp) rfl rfl
  | plHeaderLength => cases h; exact leaves_ok (by simp) rfl rfl
  | plLenIsValid => cases h; exact leaves_ok (by simp) rfl rfl
  | pipeForAddr => cases h; exact leaves_ok (by simp) rfl rfl
  | plAddrFilter n a =>
    cases h
    rcases needAtMost_cases (if a then n.toNat else 0) Config.filterSlots .illegalLimit _ s with
      ⟨-, e⟩ | ⟨-, e⟩ <;> rw [e]
    · exact leaves_ok (by simp) rfl rfl
    · exact leaves_failed (List.elem_iff.mp rfl) (by simp) rfl
  | plData =>
    cases h
    rcases needMode_cases .idle _ s with ⟨-, e⟩ | ⟨-, e⟩ <;> rw [e]
    · rcases needValid_cases _ s with ⟨-, e⟩ | ⟨-, e⟩ <;> rw [e]
      · exact leaves_ok (by simp) rfl rfl
      · exact leaves_failed (List.elem_iff.mp rfl) (by simp) rfl
    · exact leaves_failed (List.elem_iff.mp rfl) (by simp) rfl
  | plPacket =>
    cases h
    rcases needValid_cases _ s with ⟨-, e⟩ | ⟨-, e⟩ <;> rw [e]
    · exact leaves_ok (by simp) rfl rfl
    · exact leaves_failed (List.elem_iff.mp rfl) (by simp) rfl
  | optionSome c x => cases x <;> cases hi
  | _ => cases hi
end Sys2Proof.Machine
end

