-- ==== Sys2Proof/Laws/Invariant.lean ====
section
/-! SUPPORT. Each operation, and each instruction, keeps the invariant (spec/10_state.md R43, and the canonical form of the
buffers). -/

namespace Sys2Proof.Machine

theorem inv_of {s t : State} (h : s.Inv) (h1 : Memory.wf t.mem = true) (h2 : t.bitPos = s.bitPos) (h3 : t.bytePos = s.bytePos) (h4 : t.limit = s.limit) : t.Inv := by
  obtain ⟨a, b, c, d⟩ := h
  refine ⟨h1, by omega, by omega, ?_⟩
  simp only [State.cursor] at *; omega

theorem inv_cursor {s : State} (h : s.Inv) {p : Nat} (hp : p ≤ 8 * s.limit) : (s.setCursor p).Inv :=
  ⟨h.1, by rw [State.setCursor_bitPos]; omega, h.2.2.1, by rw [State.setCursor_cursor]; exact hp⟩

theorem inv_bitWrite {s t : State} (v w : Nat) (h : s.Inv) (ht : bitWrite v w s = .ok t) : t.Inv := by
  unfold bitWrite at ht
  split at ht
  · cases ht
  · rename_i hn
    cases ht
    rw [State.writeBits_flagIf]
    exact (State.writeBits_inv _ s _ h (by simp; omega)).1

theorem inv_writeFields (fs : List Field) {s : State} (h : s.Inv) :
   (∃ t, writeFields fs s = .ok t ∧ t.Inv) ∨ ∃ t, writeFields fs s = .err .bufferOverflow t ∧ t.Inv := by
  by_cases hf : s.cursor + fieldsWidth fs ≤ 8 * s.limit
  · exact .inl ⟨_, writeFields_ok fs s h hf, (State.writeBits_inv _ s _ h (by simpa using hf)).1⟩
  · obtain ⟨gs, f, rest, e1, e2, e3, e4⟩ := writeFields_err fs s h (by omega)
    exact .inr ⟨_, e4, (State.writeBits_inv _ s _ h (by simpa using e2)).1⟩

theorem inv_runDec {α : Type} (d : Dec α) {s : State} (h : s.Inv) :
   (∃ v t, runDec d s = .ok v t ∧ t.Inv) ∨ ∃ e t, runDec d s = .err e t ∧ t.Inv := by
  unfold runDec
  cases d s.unread with
  | ok v rest => exact .inl ⟨v, _, rfl, inv_cursor h (by omega)⟩
  | err v rest => exact .inr ⟨v, _, rfl, inv_cursor h (by omega)⟩

theorem inv_wireRow (c : Codec) (fs : List Field) {s : State} (h : s.Inv) : (wireRow c fs s).Inv := by
  unfold wireRow
  cases c with
  | enc => rcases inv_writeFields fs h with ⟨t, e, hi⟩ | ⟨t, e, hi⟩ <;> simp only [e] <;> exact hi
  | dec => rcases inv_runDec (readFields fs) h with ⟨v, t, e, hi⟩ | ⟨v, t, e, hi⟩ <;> simp only [e] <;> exact hi

theorem inv_reservedRow (fs : List Field) (e : Error) {s : State} (h : s.Inv) : (reservedRow fs e s).Inv := by
  unfold reservedRow
  rcases inv_runDec (readFields fs) h with ⟨v, t, e, hi⟩ | ⟨v, t, e, hi⟩ <;> simp only [e] <;> exact hi

theorem inv_store {s : State} (h : s.Inv) (a : Nat) (bs : List Byte) (h1 : 0x20 ≤ a) (h2 : a + bs.length ≤ 0x60) :
   (s.setMem (Memory.writeBytes s.mem a bs)).Inv := inv_of h (Memory.wf_writeBytes h.1 h1 h2) rfl rfl rfl

theorem inv_frameRow (c : Codec) (p : Byte) (a : Option Half) (d : List Byte) {s : State} (h : s.Inv) : (frameRow c p a d s).Inv := by
  have ha := headerLength_cases a
  have e1 : Config.payloadBase = 0x40 := rfl
  have e2 : Config.wbufBase = 0x20 := rfl
  have e3 : Config.payloadSize = 32 := rfl
  unfold frameRow
  by_cases hf : d.length ≤ Config.payloadSize - headerLength a
  · cases c with
    | enc => simp only [hf, decide_true, if_true]; exact inv_store h _ _ (by omega) (by rw [frameBytes_length _ _ _ hf])
    | dec =>
      simp only [hf, decide_true, Bool.true_and]
      split
      · exact inv_store h _ _ (by omega) (by simp; omega)
      · exact h
  · cases c <;> simp only [hf, decide_false, Bool.false_and] <;> exact h

theorem inv_open {s : State} (h : s.Inv) {n : Nat} (hn : n ≤ 32) : (s.openSlice n).Inv := State.openSlice_inv h.1 hn

theorem inv_decodeFrom {s : State} (h : s.Inv) {n : Nat} (hn : n ≤ 32) : (decodeFrom n s).Inv := by
  rcases decodeFrom_cases n s with ⟨m, k, h1, h2, h3⟩ | ⟨e, k, h1, h2, h3⟩ <;> rw [h3] <;>
    refine ⟨h.1, ?_, hn, ?_⟩ <;> simp only [State.cursor] <;> omega
/-- Every instruction keeps the invariant. -/
theorem inv_exec (i : Instr) {s : State} (h : s.Inv) : ∃ t, exec i s = .next t ∧ t.Inv := by
  cases i with
  | nop => exact ⟨_, rfl, h⟩
  | plPipe => exact ⟨_, rfl, h⟩
  | plLen => exact ⟨_, rfl, h⟩
  | plAddress => exact ⟨_, rfl, h⟩
  | plHeaderLength => exact ⟨_, rfl, h⟩
  | plLenIsValid => exact ⟨_, rfl, h⟩
  | pipeForAddr => exact ⟨_, rfl, h⟩
  | clearStatus => exact ⟨_, rfl, inv_open (n := 0) h (by omega)⟩
  | bwBegin n =>
    refine ⟨_, rfl, ?_⟩; unfold beginSession
    rcases needMode_cases .idle _ s with ⟨-, e⟩ | ⟨-, e⟩ <;> rw [e]
    · rcases needAtMost_cases n.toNat Config.wbufSize .illegalLimit _ s with ⟨hn, e⟩ | ⟨-, e⟩ <;> rw [e]
      · exact inv_open h hn
      · exact h
    · exact h
  | brBegin n =>
    refine ⟨_, rfl, ?_⟩; unfold beginSession
    rcases needMode_cases .idle _ s with ⟨-, e⟩ | ⟨-, e⟩ <;> rw [e]
    · rcases needAtMost_cases n.toNat Config.wbufSize .illegalLimit _ s with ⟨hn, e⟩ | ⟨-, e⟩ <;> rw [e]
      · exact inv_open h hn
      · exact h
    · exact h
  | bwFinalize =>
    refine ⟨_, rfl, ?_⟩; unfold endSession
    rcases needMode_cases .write _ s with ⟨-, e⟩ | ⟨-, e⟩ <;> rw [e] <;> exact h
  | brEnd =>
    refine ⟨_, rfl, ?_⟩; unfold endSession
    rcases needMode_cases .read _ s with ⟨-, e⟩ | ⟨-, e⟩ <;> rw [e] <;> exact h
  | bwWrite n =>
    refine ⟨_, rfl, ?_⟩
    rcases needMode_cases .write _ s with ⟨-, e⟩ | ⟨-, e⟩ <;> rw [e]
    · rcases needAtMost_cases n.toNat Config.maxFieldWidth .illegalWidth _ s with ⟨-, e⟩ | ⟨-, e⟩ <;> rw [e]
      · rcases bitWrite_cases s.arg0.toNat n.toNat s with ⟨t, h1, h2⟩ | h1 <;> simp only [h1]
        · have ht := inv_bitWrite _ _ h h1
          exact ht
        · exact h
      · exact h
    · exact h
  | brRead n =>
    refine ⟨_, rfl, ?_⟩
    rcases needMode_cases .read _ s with ⟨-, e⟩ | ⟨-, e⟩ <;> rw [e]
    · rcases needAtMost_cases n.toNat Config.maxFieldWidth .illegalWidth _ s with ⟨-, e⟩ | ⟨-, e⟩ <;> rw [e]
      · unfold bitRead
        rcases inv_runDec (readBits n.toNat) h with ⟨v, t, e, hi⟩ | ⟨v, t, e, hi⟩ <;> simp only [e] <;> exact hi
      · exact h
    · exact h
  | msgEncode n =>
    refine ⟨_, rfl, ?_⟩
    rcases needMode_cases .idle _ s with ⟨-, e⟩ | ⟨-, e⟩ <;> rw [e]
    · rcases needMsgIn_cases _ s with ⟨m, -, e⟩ | ⟨-, e⟩ <;> rw [e]
      · rcases needAtMost_cases n.toNat Config.wbufSize .illegalLimit _ s with ⟨hn, e⟩ | ⟨-, e⟩ <;> rw [e]
        · unfold encodeInto
          rcases inv_writeFields m.fields (inv_open h hn) with ⟨t, h1, h2⟩ | ⟨t, h1, h2⟩ <;> simp only [h1] <;> exact h2
        · exact h
      · exact h
    · exact h
  | frameMsg a pipe =>
    refine ⟨_, rfl, ?_⟩
    rcases needMode_cases .idle _ s with ⟨-, e⟩ | ⟨-, e⟩ <;> rw [e]
    · rcases needMsgIn_cases _ s with ⟨m, -, e⟩ | ⟨-, e⟩ <;> rw [e]
      · have ha := headerLength_cases (if a then some s.argAddress else none)
        have e3 : Config.payloadSize = 32 := rfl
        have e1 : Config.payloadBase = 0x40 := rfl
        unfold encodeInto
        rcases inv_writeFields m.fields (inv_open h (n := Config.payloadSize - headerLength (if a then some s.argAddress else none)) (by omega)) with ⟨t, h1, h2⟩ | ⟨t, h1, h2⟩ <;> simp only [h1] 
        · have hw : t.limit = Config.payloadSize - headerLength (if a then some s.argAddress else none) := by
            have := writeFields_cases m.fields (s.openSlice (Config.payloadSize - headerLength (if a then some s.argAddress else none)))
            rw [h1] at this
            rcases this with ⟨u, k1, k2⟩ | ⟨u, k1, k2⟩
            · cases k1; rw [k2.1]; rfl
            · cases k1
          have hc : t.count ≤ t.limit := by
            rw [State.count_eq t h2.2.1]; have := h2.2.2.2; omega
          exact inv_store h2 _ _ (by omega) (by rw [frameBytes_length _ _ _ (by simp; omega)])
        · exact h2
      · exact h
    · exact h
  | msgDecode n =>
    refine ⟨_, rfl, ?_⟩
    rcases needMode_cases .idle _ (s.setMsgOut none) with ⟨-, e⟩ | ⟨-, e⟩ <;> rw [e]
    · rcases needAtMost_cases n.toNat Config.wbufSize .illegalLimit _ (s.setMsgOut none) with ⟨hn, e⟩ | ⟨-, e⟩ <;> rw [e]
      · exact inv_decodeFrom (s := s.setMsgOut none) h hn
      · exact h
    · exact h
  | unframeMsg =>
    refine ⟨_, rfl, ?_⟩
    rcases needMode_cases .idle _ (s.setMsgOut none) with ⟨-, e⟩ | ⟨-, e⟩ <;> rw [e]
    · rcases needValid_cases _ (s.setMsgOut none) with ⟨hv, e⟩ | ⟨-, e⟩ <;> rw [e]
      · have := State.plValid_spec hv
        have e2 : Config.wbufBase = 0x20 := rfl
        exact inv_decodeFrom (inv_store (s := s.setMsgOut none) h _ _ (by omega) (by simp; omega)) (by omega)
      · exact h
    · exact h
  | plNew n pipe =>
    refine ⟨_, rfl, ?_⟩
    have e3 : Config.payloadSize = 32 := rfl
    have e1 : Config.payloadBase = 0x40 := rfl
    rcases needAtMost_cases n.toNat 30 .payloadTooLong _ s with ⟨hn, e⟩ | ⟨-, e⟩ <;> rw [e]
    · exact inv_store h _ _ (by omega) (by rw [frameBytes_length _ _ _ (by simp [headerLength]; omega)])
    · exact h
  | plNewWithAddr n pipe =>
    refine ⟨_, rfl, ?_⟩
    have e3 : Config.payloadSize = 32 := rfl
    have e1 : Config.payloadBase = 0x40 := rfl
    rcases needAtMost_cases n.toNat 28 .payloadTooLong _ s with ⟨hn, e⟩ | ⟨-, e⟩ <;> rw [e]
    · exact inv_store h _ _ (by omega) (by rw [frameBytes_length _ _ _ (by simp [headerLength]; omega)])
    · exact h
  | plAddrFilter n a =>
    refine ⟨_, rfl, ?_⟩
    rcases needAtMost_cases (if a then n.toNat else 0) Config.filterSlots .illegalLimit _ s with ⟨-, e⟩ | ⟨-, e⟩ <;> rw [e] <;> exact h
  | plData =>
    refine ⟨_, rfl, ?_⟩
    rcases needMode_cases .idle _ s with ⟨-, e⟩ | ⟨-, e⟩ <;> rw [e]
    · rcases needValid_cases _ s with ⟨hv, e⟩ | ⟨-, e⟩ <;> rw [e]
      · have := State.plValid_spec hv
        have e2 : Config.wbufBase = 0x20 := rfl
        exact inv_store h _ _ (by omega) (by simp; omega)
      · exact h
    · exact h
  | plPacket =>
    refine ⟨_, rfl, ?_⟩
    rcases needValid_cases _ s with ⟨-, e⟩ | ⟨-, e⟩ <;> rw [e] <;> exact h
  | messageReserved _ => exact ⟨_, rfl, inv_reservedRow _ _ h⟩
  | commandReserved _ => exact ⟨_, rfl, inv_reservedRow _ _ h⟩
  | responseReserved _ => exact ⟨_, rfl, inv_reservedRow _ _ h⟩
  | sensorReserved _ => exact ⟨_, rfl, inv_reservedRow _ _ h⟩
  | actuatorReserved _ => exact ⟨_, rfl, inv_reservedRow _ _ h⟩
  | frameWithAddress c p a d => exact ⟨_, rfl, inv_frameRow _ _ _ _ h⟩
  | frameWithoutAddress c p d => exact ⟨_, rfl, inv_frameRow _ _ _ _ h⟩
  | _ => exact ⟨_, rfl, inv_wireRow _ _ h⟩

end Sys2Proof.Machine
end

