-- ==== Sys2Proof/Laws/Widths.lean ====
section
/-! SUPPORT. How many bits each value of the wire format takes (spec/42_message_types.md R270, spec/43_message_envelope.md
R347): one lemma per type, the shortest and the longest. -/

namespace Sys2Proof

@[simp] theorem codeField_width (v w : Nat) : (codeField v w).width = w := rfl

@[simp] theorem vecField_width {k : Nat} (v : BitVec k) (w : Nat) : (vecField v w).width = w := rfl

@[simp] theorem flagField_width (b : Bool) : (flagField b).width = 1 := rfl

@[simp] theorem responseIdField_width (i : Option Byte) : (responseIdField i).width = 6 := by cases i <;> rfl

theorem Board.width (b : Board) : fieldsWidth b.fields = 2 := rfl

theorem Sensor.width_bounds (x : Sensor) : 12 ≤ fieldsWidth x.fields ∧ fieldsWidth x.fields ≤ 28 := by
  cases x <;> simp [Sensor.fields]

theorem Actuator.width (a : Actuator) : fieldsWidth a.fields = 5 := by cases a; simp [Actuator.fields]

theorem optionFields_width_none {α : Type} (f : α → List Field) : fieldsWidth (optionFields f none) = 1 := by
  simp [optionFields]

theorem optionFields_width_some {α : Type} (f : α → List Field) (x : α) :
    fieldsWidth (optionFields f (some x)) = 1 + fieldsWidth (f x) := by
  simp [optionFields]

theorem optionSensor_width_bounds (x : Option Sensor) :
    1 ≤ fieldsWidth (optionFields Sensor.fields x) ∧ fieldsWidth (optionFields Sensor.fields x) ≤ 29 := by
  cases x with
  | none => rw [optionFields_width_none]; omega
  | some x => rw [optionFields_width_some]; have := x.width_bounds; omega

theorem LimbType.width_bounds (t : LimbType) : 6 ≤ fieldsWidth t.fields ∧ fieldsWidth t.fields ≤ 46 := by
  cases t with
  | sensor r d =>
    have := optionSensor_width_bounds d
    simp only [LimbType.fields, fieldsWidth_cons, codeField_width, vecField_width]; omega
  | actuator a =>
    have := a.width
    simp only [LimbType.fields, fieldsWidth_cons, codeField_width]; omega

theorem Limb.width_bounds (l : Limb) : 10 ≤ fieldsWidth l.fields ∧ fieldsWidth l.fields ≤ 50 := by
  have := l.kind.width_bounds
  simp only [Limb.fields, fieldsWidth_cons, vecField_width]; omega

theorem optionLimb_width_bounds (x : Option Limb) :
    1 ≤ fieldsWidth (optionFields Limb.fields x) ∧ fieldsWidth (optionFields Limb.fields x) ≤ 51 := by
  cases x with
  | none => rw [optionFields_width_none]; omega
  | some x => rw [optionFields_width_some]; have := x.width_bounds; omega

theorem NodeInfo.width (n : NodeInfo) : fieldsWidth n.fields = 18 := by
  simp [NodeInfo.fields, Board.width]

theorem Command.width_bounds (c : Command) : 4 ≤ fieldsWidth c.fields ∧ fieldsWidth c.fields ≤ 54 := by
  cases c with
  | setLimb l => have := l.width_bounds; simp only [Command.fields, fieldsWidth_cons, codeField_width]; omega
  | setLimbType t => have := t.width_bounds; simp only [Command.fields, fieldsWidth_cons, codeField_width]; omega
  | _ => simp [Command.fields]

theorem Response.width_bounds (r : Response) : 4 ≤ fieldsWidth r.fields ∧ fieldsWidth r.fields ≤ 157 := by
  cases r with
  | info n => have := n.width; simp only [Response.fields, fieldsWidth_cons, codeField_width]; omega
  | limbs x y z =>
    have := optionLimb_width_bounds x; have := optionLimb_width_bounds y; have := optionLimb_width_bounds z
    simp only [Response.fields, fieldsWidth_cons, fieldsWidth_append, codeField_width]; omega
  | _ => simp [Response.fields]

theorem MessageData.width_bounds (d : MessageData) :
    11 ≤ fieldsWidth d.fields ∧ fieldsWidth d.fields ≤ 164 := by
  cases d with
  | command i c =>
    have := c.width_bounds
    simp only [MessageData.fields, fieldsWidth_cons, codeField_width, vecField_width]; omega
  | response i r =>
    have := r.width_bounds
    simp only [MessageData.fields, fieldsWidth_cons, codeField_width, responseIdField_width]; omega

theorem byteFields_width (bs : List Byte) :
    fieldsWidth (bs.map (fun x => vecField x 8)) = 8 * bs.length := by
  induction bs with
  | nil => rfl
  | cons b bs ih => simp only [List.map_cons, fieldsWidth_cons, vecField_width, ih, List.length_cons]; omega

theorem Message.width_bounds (m : Message) : 17 ≤ fieldsWidth m.fields ∧ fieldsWidth m.fields ≤ 202 := by
  cases m with
  | message d =>
    have := d.width_bounds
    simp only [Message.fields, Message.bodyFields, fieldsWidth_cons, codeField_width]; omega
  | relayMessage n d =>
    have := d.width_bounds
    simp only [Message.fields, Message.bodyFields, fieldsWidth_cons, codeField_width, vecField_width]; omega
  | debugMessage n b =>
    simp [Message.fields, Message.bodyFields, byteFields_width]
  | _ => simp [Message.fields, Message.bodyFields]

/-- No Message takes more than 202 bits (R347). -/
theorem Message.bits_length_le (m : Message) : m.bits.length ≤ 202 := by
  have := m.width_bounds
  simpa [Message.bits] using this.2

end Sys2Proof
end

