-- ==== Sys2Proof/Laws/PerInstr.lean ====
section
/-! SUPPORT. A law for every instruction, stated of its syntax and its encoding: one lemma per constructor of Instr. -/

namespace Sys2Proof.Laws.RowShape

/-- The fewest and the most bits a row of a wire type takes (spec/42_message_types.md R270, spec/43_message_envelope.md R347);
a reserved row stops after its code, and an unreadable head after two or six bits (spec/30_encoding.md R130). -/
def bitRange : WireType → Nat × Nat
  | .board => (2, 2)
  | .sensor => (4, 28)
  | .actuator => (4, 5)
  | .limbType => (6, 46)
  | .limb => (10, 50)
  | .nodeInfo => (18, 18)
  | .option .sensor => (1, 29)
  | .option .limb => (1, 51)
  | .command => (4, 54)
  | .response => (4, 157)
  | .messageData => (11, 164)
  | .message => (2, 202)

/-- The shape of an encoding. A command: its reserved bits are clear and its opcode is one of the opcode map's
(spec/30_encoding.md R100, R101). A wire row: its bits are as many as its type allows, whether its values fit their fields or
not. A frame row that is well formed: 32 bytes (R110). -/
def Statement (i : Instr) : Prop :=
  match encode i with
  | .command w => Word.reservedClear w = true ∧ Word.opc w ∈ Machine.opcodes
  | .wire _ t bits => (bitRange t).1 ≤ bits.length ∧ bits.length ≤ (bitRange t).2
  | .frame _ bytes => i.wf = true → bytes.length = 32

theorem command_shape (opc : BitVec 8) (n : BitVec 6) (a : Bool) (pipe : Byte) (h : opc.toNat ∈ Machine.opcodes) :
    Word.reservedClear (commandWord opc n a pipe) = true ∧ Word.opc (commandWord opc n a pipe) ∈ Machine.opcodes := by
  obtain ⟨h1, -, -, -, h2⟩ := commandWord_fields opc n a pipe
  exact ⟨h2, h1 ▸ h⟩

/-- A row whose fields' widths are in the range. -/
theorem wire_shape (t : WireType) (fs : List Field) (h : (bitRange t).1 ≤ fieldsWidth fs ∧ fieldsWidth fs ≤ (bitRange t).2) :
    (bitRange t).1 ≤ (fieldsBits fs).length ∧ (fieldsBits fs).length ≤ (bitRange t).2 := by
  rwa [fieldsBits_length]

theorem nop : Statement .nop := command_shape _ _ _ _ (by decide)

theorem bwBegin (n : BitVec 6) : Statement (.bwBegin n) := command_shape _ _ _ _ (by decide)

theorem bwWrite (n : BitVec 6) : Statement (.bwWrite n) := command_shape _ _ _ _ (by decide)

theorem bwFinalize : Statement .bwFinalize := command_shape _ _ _ _ (by decide)

theorem brBegin (n : BitVec 6) : Statement (.brBegin n) := command_shape _ _ _ _ (by decide)

theorem brRead (n : BitVec 6) : Statement (.brRead n) := command_shape _ _ _ _ (by decide)

theorem brEnd : Statement .brEnd := command_shape _ _ _ _ (by decide)

theorem msgEncode (n : BitVec 6) : Statement (.msgEncode n) := command_shape _ _ _ _ (by decide)

theorem msgDecode (n : BitVec 6) : Statement (.msgDecode n) := command_shape _ _ _ _ (by decide)

theorem plNew (n : BitVec 6) (pipe : Byte) : Statement (.plNew n pipe) := command_shape _ _ _ _ (by decide)

theorem plNewWithAddr (n : BitVec 6) (pipe : Byte) :
    Statement (.plNewWithAddr n pipe) := command_shape _ _ _ _ (by decide)

theorem plPipe : Statement .plPipe := command_shape _ _ _ _ (by decide)

theorem plLen : Statement .plLen := command_shape _ _ _ _ (by decide)

theorem plAddress : Statement .plAddress := command_shape _ _ _ _ (by decide)

theorem plHeaderLength : Statement .plHeaderLength := command_shape _ _ _ _ (by decide)

theorem plLenIsValid : Statement .plLenIsValid := command_shape _ _ _ _ (by decide)

theorem plData : Statement .plData := command_shape _ _ _ _ (by decide)

theorem plPacket : Statement .plPacket := command_shape _ _ _ _ (by decide)

theorem plAddrFilter (n : BitVec 6) (a : Bool) :
    Statement (.plAddrFilter n a) := command_shape _ _ _ _ (by decide)

theorem pipeForAddr : Statement .pipeForAddr := command_shape _ _ _ _ (by decide)

theorem frameMsg (a : Bool) (pipe : Byte) : Statement (.frameMsg a pipe) := command_shape _ _ _ _ (by decide)

theorem unframeMsg : Statement .unframeMsg := command_shape _ _ _ _ (by decide)

theorem clearStatus : Statement .clearStatus := command_shape _ _ _ _ (by decide)

theorem messageMessage (c : Codec) (data : MessageData) :
    Statement (.messageMessage c data) := by
  have := Message.width_bounds (Message.message data)
  exact wire_shape .message _ ⟨Nat.le_trans (by decide) this.1, this.2⟩

theorem messageRelayMessage (c : Codec) (nodeId : Word) (data : MessageData) :
    Statement (.messageRelayMessage c nodeId data) := by
  have := Message.width_bounds (Message.relayMessage nodeId data)
  exact wire_shape .message _ ⟨Nat.le_trans (by decide) this.1, this.2⟩

theorem messageSearchingNetwork (c : Codec) (nodeId : Word) :
    Statement (.messageSearchingNetwork c nodeId) := by
  have := Message.width_bounds (Message.searchingNetwork nodeId)
  exact wire_shape .message _ ⟨Nat.le_trans (by decide) this.1, this.2⟩

theorem messageNetwork (c : Codec) (nodeId : Word) (address : Half) :
    Statement (.messageNetwork c nodeId address) := by
  have := Message.width_bounds (Message.network nodeId address)
  exact wire_shape .message _ ⟨Nat.le_trans (by decide) this.1, this.2⟩

theorem messageDebugMessage (c : Codec) (nodeId : Word) (bytes : Vector Byte 20) :
    Statement (.messageDebugMessage c nodeId bytes) := by
  have := Message.width_bounds (Message.debugMessage nodeId bytes)
  exact wire_shape .message _ ⟨Nat.le_trans (by decide) this.1, this.2⟩

theorem messageReserved (head : BadHead) :
    Statement (.messageReserved head) := by
  cases head with
  | version v => exact wire_shape .message [vecField v 2] ⟨Nat.le_refl _, by show 2 ≤ 202; decide⟩
  | code k => exact wire_shape .message [codeField 1 2, vecField k 4] ⟨by show 2 ≤ 6; decide, by show 6 ≤ 202; decide⟩

theorem dataCommand (c : Codec) (id : Byte) (command : Command) :
    Statement (.dataCommand c id command) := wire_shape .messageData _ (MessageData.width_bounds (MessageData.command id command))

theorem dataResponse (c : Codec) (id : Option Byte) (response : Response) :
    Statement (.dataResponse c id response) := wire_shape .messageData _ (MessageData.width_bounds (MessageData.response id response))

theorem commandInfo (c : Codec) : Statement (.commandInfo c) := wire_shape .command _ (Command.width_bounds Command.info)

theorem commandLimbs (c : Codec) : Statement (.commandLimbs c) := wire_shape .command _ (Command.width_bounds Command.limbs)

theorem commandSetLimb (c : Codec) (limb : Limb) :
    Statement (.commandSetLimb c limb) := wire_shape .command _ (Command.width_bounds (Command.setLimb limb))

theorem commandToggleLimb (c : Codec) (id : Byte) :
    Statement (.commandToggleLimb c id) := wire_shape .command _ (Command.width_bounds (Command.toggleLimb id))

theorem commandSetLimbType (c : Codec) (kind : LimbType) :
    Statement (.commandSetLimbType c kind) := wire_shape .command _ (Command.width_bounds (Command.setLimbType kind))

theorem commandReserved (code : BitVec 4) :
    Statement (.commandReserved code) :=
  wire_shape .command [vecField code 4] ⟨Nat.le_refl _, by show 4 ≤ 54; decide⟩

theorem responseOk (c : Codec) : Statement (.responseOk c) := wire_shape .response _ (Response.width_bounds Response.ok)

theorem responseInfo (c : Codec) (info : NodeInfo) :
    Statement (.responseInfo c info) := wire_shape .response _ (Response.width_bounds (Response.info info))

theorem responseLimbs (c : Codec) (slot0 slot1 slot2 : Option Limb) :
    Statement (.responseLimbs c slot0 slot1 slot2) := wire_shape .response _ (Response.width_bounds (Response.limbs slot0 slot1 slot2))

theorem responseHeartbeat (c : Codec) (value : Word) :
    Statement (.responseHeartbeat c value) := wire_shape .response _ (Response.width_bounds (Response.heartbeat value))

theorem responseErrLimbNotFound (c : Codec) :
    Statement (.responseErrLimbNotFound c) := wire_shape .response _ (Response.width_bounds Response.errLimbNotFound)

theorem responseErrLimbTypeDoesntMatch (c : Codec) :
    Statement (.responseErrLimbTypeDoesntMatch c) := wire_shape .response _ (Response.width_bounds Response.errLimbTypeDoesntMatch)

theorem responseReserved (code : BitVec 4) :
    Statement (.responseReserved code) :=
  wire_shape .response [vecField code 4] ⟨Nat.le_refl _, by show 4 ≤ 157; decide⟩

theorem limb (c : Codec) (id : Byte) (kind : LimbType) :
    Statement (.limb c id kind) := wire_shape .limb _ (Limb.width_bounds (Limb.mk id kind))

theorem limbTypeSensor (c : Codec) (reportInterval : Half) (data : Option Sensor) :
    Statement (.limbTypeSensor c reportInterval data) := wire_shape .limbType _ (LimbType.width_bounds (LimbType.sensor reportInterval data))

theorem limbTypeActuator (c : Codec) (a : Actuator) :
    Statement (.limbTypeActuator c a) := wire_shape .limbType _ (LimbType.width_bounds (LimbType.actuator a))

theorem sensorBattery (c : Codec) (percentage : Byte) :
    Statement (.sensorBattery c percentage) := by
  have := Sensor.width_bounds (Sensor.battery percentage)
  exact wire_shape .sensor _ ⟨Nat.le_trans (by decide) this.1, this.2⟩

theorem sensorTempHum (c : Codec) (temperature : Half) (humidity : Byte) :
    Statement (.sensorTempHum c temperature humidity) := by
  have := Sensor.width_bounds (Sensor.tempHum temperature humidity)
  exact wire_shape .sensor _ ⟨Nat.le_trans (by decide) this.1, this.2⟩

theorem sensorCurrent (c : Codec) (milliamps : Half) :
    Statement (.sensorCurrent c milliamps) := by
  have := Sensor.width_bounds (Sensor.current milliamps)
  exact wire_shape .sensor _ ⟨Nat.le_trans (by decide) this.1, this.2⟩

theorem sensorReserved (code : BitVec 4) :
    Statement (.sensorReserved code) :=
  wire_shape .sensor [vecField code 4] ⟨Nat.le_refl _, by show 4 ≤ 28; decide⟩

theorem actuatorLight (c : Codec) (on : Bool) :
    Statement (.actuatorLight c on) := by
  have := Actuator.width (Actuator.light on)
  exact wire_shape .actuator _ ⟨by rw [this]; decide, by rw [this]; decide⟩

theorem actuatorReserved (code : BitVec 4) :
    Statement (.actuatorReserved code) :=
  wire_shape .actuator [vecField code 4] ⟨Nat.le_refl _, by show 4 ≤ 5; decide⟩

theorem nodeInfo (c : Codec) (board : Board) (heartbeatInterval : Half) :
    Statement (.nodeInfo c board heartbeatInterval) := by
  have := NodeInfo.width (NodeInfo.mk board heartbeatInterval)
  exact wire_shape .nodeInfo _ ⟨by rw [this]; decide, by rw [this]; decide⟩

theorem boardB0 (c : Codec) : Statement (.boardB0 c) := wire_shape .board _ (by rw [Board.width]; decide)

theorem boardB1 (c : Codec) : Statement (.boardB1 c) := wire_shape .board _ (by rw [Board.width]; decide)

theorem boardB2 (c : Codec) : Statement (.boardB2 c) := wire_shape .board _ (by rw [Board.width]; decide)

theorem boardB3 (c : Codec) : Statement (.boardB3 c) := wire_shape .board _ (by rw [Board.width]; decide)

theorem optionNone (c : Codec) (t : OptionOf) :
    Statement (.optionNone c t) := by
  cases t <;> exact wire_shape (.option _) [codeField 0 1] (by decide)

theorem optionSome (c : Codec) (x : Present) :
    Statement (.optionSome c x) := by
  cases x with
  | sensor x => exact wire_shape (.option .sensor) _ (optionSensor_width_bounds (some x))
  | limb x => exact wire_shape (.option .limb) _ (optionLimb_width_bounds (some x))

theorem frameWithAddress (c : Codec) (pipe : Byte) (address : Half) (data : List Byte) :
    Statement (.frameWithAddress c pipe address data) := by
  intro h
  have : data.length ≤ 28 := by simpa [Instr.wf] using h
  simp only [frameBytes, frameHeader, headerLength, List.length_append, List.length_replicate, List.length_cons,
    List.length_nil, Option.isSome_some, if_true, Config.payloadSize]
  omega

theorem frameWithoutAddress (c : Codec) (pipe : Byte) (data : List Byte) :
    Statement (.frameWithoutAddress c pipe data) := by
  intro h
  have : data.length ≤ 30 := by simpa [Instr.wf] using h
  simp only [frameBytes, frameHeader, headerLength, List.length_append, List.length_replicate, List.length_cons,
    List.length_nil, Option.isSome_none, Bool.false_eq_true, if_false, Config.payloadSize]
  omega

end Sys2Proof.Laws.RowShape
end

