-- ==== Sys2Proof/Tests/Slice0.lean ====
section
/-! SUPPORT. The model's own tests. Every expected value is read from the spec: the words and bit strings from its encoding
tables and its examples, the results from its rules and from spec/95_test_vectors.md. Last come the witnesses: for each
statement with hypotheses, concrete states and operands that meet them, clause by clause, at the ends of their ranges. -/

namespace Sys2Proof.Tests

open Sys2Proof Sys2Proof.Machine

/-- A bit string written out, first bit first. -/
def bin (l : List Nat) : Bits := l.map fun b => b == 1

/-- Bytes as a bit string. -/
def bytes (l : List Nat) : Bits := l.flatMap fun n => byteBits (BitVec.ofNat 8 n)

/-- The next state, if there is one. -/
def out (o : Host.Outcome State Fault Refusal) : Option State :=
  match o with
  | .next s => some s
  | _ => none

/-- The reset state with bytes of WBUF and of PAYLOAD. -/
def bufs (w p : List Byte) : State := (State.reset.storeWbuf w).storePayload p

/-- The same with a slice of n bytes and the cursor at stream position c. -/
def slice (n c : Nat) (w : List Byte) : State := ((bufs w []).openSlice n).setCursor c

/-- RESULT, ERR and the STATUS word after an instruction. -/
def report (i : Instr) (s : State) : Option (Word × Option Error × Word) :=
  (out (exec i s)).map fun t => (t.result, t.err, t.status)

/-- The stream up to the cursor after an instruction. -/
def stream (i : Instr) (s : State) : Option Bits := (out (exec i s)).map fun t => t.bitsFrom 0 t.cursor

/-- Cursor, ERR and whether MSG_OUT is empty after an instruction. -/
def ended (i : Instr) (s : State) : Option (Nat × Option Error × Bool) :=
  (out (exec i s)).map fun t => (t.cursor, t.err, t.msgOut.isNone)

/-! ## Ill-formed instructions: one for each check of Instr.wf -/

theorem test_ill_formed_message_data : Instr.wf (.messageMessage .enc (.command 64 .info)) = false := by decide

theorem test_ill_formed_relay_data : Instr.wf (.messageRelayMessage .enc 0 (.response (some 0) .ok)) = false := by decide

theorem test_ill_formed_head_version : Instr.wf (.messageReserved (.version 1)) = false := by decide

theorem test_ill_formed_head_code : Instr.wf (.messageReserved (.code 4)) = false := by decide

theorem test_ill_formed_command_id : Instr.wf (.dataCommand .enc 64 .info) = false := by decide

theorem test_ill_formed_command_inner : Instr.wf (.dataCommand .enc 0 (.toggleLimb 16)) = false := by decide

theorem test_ill_formed_response_id_zero : Instr.wf (.dataResponse .enc (some 0) .ok) = false := by decide

theorem test_ill_formed_response_id : Instr.wf (.dataResponse .enc (some 64) .ok) = false := by decide

theorem test_ill_formed_response_inner : Instr.wf (.dataResponse .enc none (.limbs none none (some ⟨16, .actuator (.light true)⟩))) = false := by decide

theorem test_ill_formed_set_limb : Instr.wf (.commandSetLimb .enc ⟨16, .actuator (.light true)⟩) = false := by decide

theorem test_ill_formed_toggle_limb : Instr.wf (.commandToggleLimb .enc 16) = false := by decide

theorem test_ill_formed_command_code : Instr.wf (.commandReserved 4) = false := by decide

theorem test_ill_formed_limbs_slot : Instr.wf (.responseLimbs .enc none (some ⟨16, .actuator (.light true)⟩) none) = false := by decide

theorem test_ill_formed_response_code_3 : Instr.wf (.responseReserved 3) = false := by decide

theorem test_ill_formed_response_code_8 : Instr.wf (.responseReserved 8) = false := by decide

theorem test_ill_formed_response_code_9 : Instr.wf (.responseReserved 9) = false := by decide

theorem test_ill_formed_limb_id : Instr.wf (.limb .enc 16 (.actuator (.light true))) = false := by decide

theorem test_ill_formed_sensor_code : Instr.wf (.sensorReserved 2) = false := by decide

theorem test_ill_formed_actuator_code : Instr.wf (.actuatorReserved 0) = false := by decide

theorem test_ill_formed_some_limb : Instr.wf (.optionSome .enc (.limb ⟨16, .actuator (.light true)⟩)) = false := by decide

theorem test_ill_formed_frame_with_address : Instr.wf (.frameWithAddress .enc 0 0 (List.replicate 29 0)) = false := by decide

theorem test_ill_formed_frame_without_address : Instr.wf (.frameWithoutAddress .enc 0 (List.replicate 31 0)) = false := by decide

/-! ## Decoding: a word of every constructor, from the tables of spec/30_encoding.md -/

/-- R101, the words of spec/95_test_vectors.md T-L2-B: OPC [7:0], N [13:8]. -/
theorem test_decode_control_and_bit_codec :
    decodeCommand 0x00000000 = some .nop ∧ decodeCommand 0x00002001 = some (.bwBegin 32) ∧
    decodeCommand 0x00000602 = some (.bwWrite 6) ∧ decodeCommand 0x00000003 = some .bwFinalize ∧
    decodeCommand 0x00000304 = some (.brBegin 3) ∧ decodeCommand 0x00000805 = some (.brRead 8) ∧
    decodeCommand 0x00000006 = some .brEnd ∧ decodeCommand 0x0000003F = some .clearStatus := by decide

/-- R101: N, A in bit 14 and PIPE in [23:16]. -/
theorem test_decode_messages_and_framer :
    decodeCommand 0x00000210 = some (.msgEncode 2) ∧ decodeCommand 0x00000311 = some (.msgDecode 3) ∧
    decodeCommand 0x00221E20 = some (.plNew 30 0x22) ∧ decodeCommand 0x00220321 = some (.plNewWithAddr 3 0x22) ∧
    decodeCommand 0x00000022 = some .plPipe ∧ decodeCommand 0x00000023 = some .plLen ∧
    decodeCommand 0x00000024 = some .plAddress ∧ decodeCommand 0x00000025 = some .plHeaderLength ∧
    decodeCommand 0x00000026 = some .plLenIsValid ∧ decodeCommand 0x00000027 = some .plData ∧
    decodeCommand 0x00000028 = some .plPacket ∧ decodeCommand 0x00004229 = some (.plAddrFilter 2 true) ∧
    decodeCommand 0x0000002A = some .pipeForAddr ∧ decodeCommand 0x00D54030 = some (.frameMsg true 0xD5) ∧
    decodeCommand 0x00000031 = some .unframeMsg := by decide

/-- R102: reserved opcodes and reserved bits; ignored fields are not checked. -/
theorem test_decode_illegal_words :
    decodeCommand 0x00000007 = none ∧ decodeCommand 0x00000012 = none ∧ decodeCommand 0x0000003E = none ∧
    decodeCommand 0x000000FF = none ∧ decodeCommand 0x00008000 = none ∧ decodeCommand 0x01000000 = none ∧
    decodeCommand 0x00FF7F00 = some .nop := by decide

/-- R120: the examples of the rules, read by the decoder and written by the encoder. -/
theorem test_decode_board :
    decode (.wire .dec .board (bin [0, 0])) =
      some (.boardB0 .dec) ∧
    decode (.wire .dec .board (bin [0, 1])) =
      some (.boardB1 .dec) ∧
    decode (.wire .dec .board (bin [1, 0])) =
      some (.boardB2 .dec) ∧
    decode (.wire .dec .board (bin [1, 1])) =
      some (.boardB3 .dec) := by decide

theorem test_encode_board :
    stream (.boardB0 .enc) (slice 8 0 []) =
      some (bin [0, 0]) ∧
    stream (.boardB1 .enc) (slice 8 0 []) =
      some (bin [0, 1]) ∧
    stream (.boardB2 .enc) (slice 8 0 []) =
      some (bin [1, 0]) ∧
    stream (.boardB3 .enc) (slice 8 0 []) =
      some (bin [1, 1]) := by decide

/-- R121, R252 to R254: the examples of the rules, read by the decoder and written by the encoder. -/
theorem test_decode_sensor :
    decode (.wire .dec .sensor (bin [0, 0, 0, 0, 0, 1, 1, 0, 0, 1, 0, 0])) =
      some (.sensorBattery .dec 100) ∧
    decode (.wire .dec .sensor (bin [0, 0, 0, 1, 0, 0, 0, 0, 0, 0, 1, 1, 1, 1, 1, 0, 1, 0, 0, 0, 0, 0, 1, 1, 0, 0, 1, 0])) =
      some (.sensorTempHum .dec 1000 50) ∧
    decode (.wire .dec .sensor (bin [0, 0, 0, 1, 1, 0, 0, 0, 0, 0, 0, 0, 0, 0, 0, 0, 0, 0, 0, 0, 0, 1, 1, 0, 0, 1, 0, 0])) =
      some (.sensorTempHum .dec 0x8000 100) ∧
    decode (.wire .dec .sensor (bin [0, 0, 1, 0, 0, 0, 0, 0, 0, 1, 0, 1, 1, 1, 0, 1, 1, 1, 0, 0])) =
      some (.sensorCurrent .dec 1500) := by decide

theorem test_encode_sensor :
    stream (.sensorBattery .enc 100) (slice 8 0 []) =
      some (bin [0, 0, 0, 0, 0, 1, 1, 0, 0, 1, 0, 0]) ∧
    stream (.sensorTempHum .enc 1000 50) (slice 8 0 []) =
      some (bin [0, 0, 0, 1, 0, 0, 0, 0, 0, 0, 1, 1, 1, 1, 1, 0, 1, 0, 0, 0, 0, 0, 1, 1, 0, 0, 1, 0]) ∧
    stream (.sensorTempHum .enc 0x8000 100) (slice 8 0 []) =
      some (bin [0, 0, 0, 1, 1, 0, 0, 0, 0, 0, 0, 0, 0, 0, 0, 0, 0, 0, 0, 0, 0, 1, 1, 0, 0, 1, 0, 0]) ∧
    stream (.sensorCurrent .enc 1500) (slice 8 0 []) =
      some (bin [0, 0, 1, 0, 0, 0, 0, 0, 0, 1, 0, 1, 1, 1, 0, 1, 1, 1, 0, 0]) := by decide

/-- R122, R257: the examples of the rules, read by the decoder and written by the encoder. -/
theorem test_decode_actuator :
    decode (.wire .dec .actuator (bin [0, 0, 0, 0, 1])) =
      some (.actuatorLight .dec true) ∧
    decode (.wire .dec .actuator (bin [0, 0, 0, 0, 0])) =
      some (.actuatorLight .dec false) := by decide

theorem test_encode_actuator :
    stream (.actuatorLight .enc true) (slice 8 0 []) =
      some (bin [0, 0, 0, 0, 1]) ∧
    stream (.actuatorLight .enc false) (slice 8 0 []) =
      some (bin [0, 0, 0, 0, 0]) := by decide

/-- R123, R261, R262, R266, R267: the examples of the rules, read by the decoder and written by the encoder. -/
theorem test_decode_limb :
    decode (.wire .dec .limbType (bin [0, 0, 0, 0, 0, 0, 0, 0, 1, 0, 0, 1, 0, 1, 1, 0, 0, 0])) =
      some (.limbTypeSensor .dec 300 none) ∧
    decode (.wire .dec .limbType (bin [0, 0, 0, 0, 0, 0, 0, 0, 0, 0, 0, 1, 1, 1, 1, 0, 0, 1, 0, 0, 0, 0, 0, 1, 1, 0, 0, 1, 0, 0])) =
      some (.limbTypeSensor .dec 60 (some (.battery 100))) ∧
    decode (.wire .dec .limbType (bin [1, 0, 0, 0, 0, 0])) =
      some (.limbTypeActuator .dec (.light false)) ∧
    decode (.wire .dec .limb (bin [0, 0, 1, 0, 1, 0, 0, 0, 0, 1])) =
      some (.limb .dec 2 (.actuator (.light true))) ∧
    decode (.wire .dec .nodeInfo (bin [1, 0, 0, 0, 0, 0, 1, 1, 1, 0, 0, 0, 0, 1, 0, 0, 0, 0])) =
      some (.nodeInfo .dec .b2 3600) := by decide

theorem test_encode_limb :
    stream (.limbTypeSensor .enc 300 none) (slice 8 0 []) =
      some (bin [0, 0, 0, 0, 0, 0, 0, 0, 1, 0, 0, 1, 0, 1, 1, 0, 0, 0]) ∧
    stream (.limbTypeSensor .enc 60 (some (.battery 100))) (slice 8 0 []) =
      some (bin [0, 0, 0, 0, 0, 0, 0, 0, 0, 0, 0, 1, 1, 1, 1, 0, 0, 1, 0, 0, 0, 0, 0, 1, 1, 0, 0, 1, 0, 0]) ∧
    stream (.limbTypeActuator .enc (.light false)) (slice 8 0 []) =
      some (bin [1, 0, 0, 0, 0, 0]) ∧
    stream (.limb .enc 2 (.actuator (.light true))) (slice 8 0 []) =
      some (bin [0, 0, 1, 0, 1, 0, 0, 0, 0, 1]) ∧
    stream (.nodeInfo .enc .b2 3600) (slice 8 0 []) =
      some (bin [1, 0, 0, 0, 0, 0, 1, 1, 1, 0, 0, 0, 0, 1, 0, 0, 0, 0]) := by decide

/-- R124, R264: the examples of the rules, read by the decoder and written by the encoder. -/
theorem test_decode_option :
    decode (.wire .dec (.option .sensor) (bin [0])) =
      some (.optionNone .dec .sensor) ∧
    decode (.wire .dec (.option .limb) (bin [0])) =
      some (.optionNone .dec .limb) ∧
    decode (.wire .dec (.option .sensor) (bin [1, 0, 0, 0, 0, 0, 1, 1, 0, 0, 1, 0, 0])) =
      some (.optionSome .dec (.sensor (.battery 100))) ∧
    decode (.wire .dec (.option .limb) (bin [1, 0, 0, 1, 0, 1, 0, 0, 0, 0, 1])) =
      some (.optionSome .dec (.limb ⟨2, .actuator (.light true)⟩)) := by decide

theorem test_encode_option :
    stream (.optionNone .enc .sensor) (slice 8 0 []) =
      some (bin [0]) ∧
    stream (.optionNone .enc .limb) (slice 8 0 []) =
      some (bin [0]) ∧
    stream (.optionSome .enc (.sensor (.battery 100))) (slice 8 0 []) =
      some (bin [1, 0, 0, 0, 0, 0, 1, 1, 0, 0, 1, 0, 0]) ∧
    stream (.optionSome .enc (.limb ⟨2, .actuator (.light true)⟩)) (slice 8 0 []) =
      some (bin [1, 0, 0, 1, 0, 1, 0, 0, 0, 0, 1]) := by decide

/-- R125, R302 to R306: the examples of the rules, read by the decoder and written by the encoder. -/
theorem test_decode_command :
    decode (.wire .dec .command (bin [0, 0, 0, 0])) =
      some (.commandInfo .dec) ∧
    decode (.wire .dec .command (bin [0, 0, 0, 1])) =
      some (.commandLimbs .dec) ∧
    decode (.wire .dec .command (bin [0, 0, 1, 0, 0, 1, 0, 1, 1, 0, 0, 0, 0, 1])) =
      some (.commandSetLimb .dec ⟨5, .actuator (.light true)⟩) ∧
    decode (.wire .dec .command (bin [0, 0, 1, 1, 1, 1, 1, 1])) =
      some (.commandToggleLimb .dec 15) ∧
    decode (.wire .dec .command (bin [0, 1, 0, 0, 0, 0, 0, 0, 0, 0, 0, 0, 0, 0, 0, 1, 1, 1, 1, 0, 0, 1, 0, 0, 0, 0, 0, 1, 1, 0, 0, 1, 0, 0])) =
      some (.commandSetLimbType .dec (.sensor 60 (some (.battery 100)))) := by decide

theorem test_encode_command :
    stream (.commandInfo .enc) (slice 8 0 []) =
      some (bin [0, 0, 0, 0]) ∧
    stream (.commandLimbs .enc) (slice 8 0 []) =
      some (bin [0, 0, 0, 1]) ∧
    stream (.commandSetLimb .enc ⟨5, .actuator (.light true)⟩) (slice 8 0 []) =
      some (bin [0, 0, 1, 0, 0, 1, 0, 1, 1, 0, 0, 0, 0, 1]) ∧
    stream (.commandToggleLimb .enc 15) (slice 8 0 []) =
      some (bin [0, 0, 1, 1, 1, 1, 1, 1]) ∧
    stream (.commandSetLimbType .enc (.sensor 60 (some (.battery 100)))) (slice 8 0 []) =
      some (bin [0, 1, 0, 0, 0, 0, 0, 0, 0, 0, 0, 0, 0, 0, 0, 1, 1, 1, 1, 0, 0, 1, 0, 0, 0, 0, 0, 1, 1, 0, 0, 1, 0, 0]) := by decide

/-- R126, R311 to R316: the examples of the rules, read by the decoder and written by the encoder. -/
theorem test_decode_response :
    decode (.wire .dec .response (bin [0, 0, 0, 0])) =
      some (.responseOk .dec) ∧
    decode (.wire .dec .response (bin [0, 0, 0, 1, 1, 0, 0, 0, 0, 0, 1, 1, 1, 0, 0, 0, 0, 1, 0, 0, 0, 0])) =
      some (.responseInfo .dec ⟨.b2, 3600⟩) ∧
    decode (.wire .dec .response (bin [0, 0, 1, 0, 0, 1, 0, 0, 1, 1, 1, 0, 0, 0, 0, 1, 0])) =
      some (.responseLimbs .dec none (some ⟨3, .actuator (.light true)⟩) none) ∧
    decode (.wire .dec .response (bin [0, 0, 1, 1, 1, 1, 0, 1, 1, 1, 1, 0, 1, 0, 1, 0, 1, 1, 0, 1, 1, 0, 1, 1, 1, 1, 1, 0, 1, 1, 1, 0, 1, 1, 1, 1])) =
      some (.responseHeartbeat .dec 0xDEADBEEF) ∧
    decode (.wire .dec .response (bin [1, 0, 0, 0])) =
      some (.responseErrLimbNotFound .dec) ∧
    decode (.wire .dec .response (bin [1, 0, 0, 1])) =
      some (.responseErrLimbTypeDoesntMatch .dec) := by decide

theorem test_encode_response :
    stream (.responseOk .enc) (slice 8 0 []) =
      some (bin [0, 0, 0, 0]) ∧
    stream (.responseInfo .enc ⟨.b2, 3600⟩) (slice 8 0 []) =
      some (bin [0, 0, 0, 1, 1, 0, 0, 0, 0, 0, 1, 1, 1, 0, 0, 0, 0, 1, 0, 0, 0, 0]) ∧
    stream (.responseLimbs .enc none (some ⟨3, .actuator (.light true)⟩) none) (slice 8 0 []) =
      some (bin [0, 0, 1, 0, 0, 1, 0, 0, 1, 1, 1, 0, 0, 0, 0, 1, 0]) ∧
    stream (.responseHeartbeat .enc 0xDEADBEEF) (slice 8 0 []) =
      some (bin [0, 0, 1, 1, 1, 1, 0, 1, 1, 1, 1, 0, 1, 0, 1, 0, 1, 1, 0, 1, 1, 0, 1, 1, 1, 1, 1, 0, 1, 1, 1, 0, 1, 1, 1, 1]) ∧
    stream (.responseErrLimbNotFound .enc) (slice 8 0 []) =
      some (bin [1, 0, 0, 0]) ∧
    stream (.responseErrLimbTypeDoesntMatch .enc) (slice 8 0 []) =
      some (bin [1, 0, 0, 1]) := by decide

/-- R127, R320, R322, R323: the examples of the rules, read by the decoder and written by the encoder. -/
theorem test_decode_message_data :
    decode (.wire .dec .messageData (bin [0, 1, 1, 0, 1, 1, 1, 0, 0, 0, 0])) =
      some (.dataCommand .dec 55 .info) ∧
    decode (.wire .dec .messageData (bin [1, 0, 0, 0, 0, 0, 0, 0, 0, 0, 0])) =
      some (.dataResponse .dec none .ok) ∧
    decode (.wire .dec .messageData (bin [1, 1, 1, 0, 1, 1, 1, 0, 0, 0, 0])) =
      some (.dataResponse .dec (some 55) .ok) := by decide

theorem test_encode_message_data :
    stream (.dataCommand .enc 55 .info) (slice 8 0 []) =
      some (bin [0, 1, 1, 0, 1, 1, 1, 0, 0, 0, 0]) ∧
    stream (.dataResponse .enc none .ok) (slice 8 0 []) =
      some (bin [1, 0, 0, 0, 0, 0, 0, 0, 0, 0, 0]) ∧
    stream (.dataResponse .enc (some 55) .ok) (slice 8 0 []) =
      some (bin [1, 1, 1, 0, 1, 1, 1, 0, 0, 0, 0]) := by decide

/-- R128, R330 to R333: the byte examples of the rules, without the padding. -/
theorem test_decode_message :
    decode (.wire .dec .message ((bytes [0x41, 0xB8, 0x00]).take 17)) =
      some (.messageMessage .dec (.command 55 .info)) ∧
    decode (.wire .dec .message ((bytes [0x44, 0x48, 0xD1, 0x59, 0xE1, 0xB8, 0x00]).take 49)) =
      some (.messageRelayMessage .dec 0x12345678 (.command 55 .info)) ∧
    decode (.wire .dec .message ((bytes [0x4B, 0x2B, 0xFA, 0xEA, 0xF8]).take 38)) =
      some (.messageSearchingNetwork .dec 0xCAFEBABE) ∧
    decode (.wire .dec .message ((bytes [0x4C, 0x00, 0x00, 0x00, 0x05, 0x55, 0x54]).take 54)) =
      some (.messageNetwork .dec 1 0x5555) := by decide

set_option maxRecDepth 2000 in
theorem test_encode_message :
    stream (.messageMessage .enc (.command 55 .info)) (slice 8 0 []) = some ((bytes [0x41, 0xB8, 0x00]).take 17) ∧
    stream (.messageRelayMessage .enc 0x12345678 (.command 55 .info)) (slice 8 0 []) = some ((bytes [0x44, 0x48, 0xD1, 0x59, 0xE1, 0xB8, 0x00]).take 49) ∧
    stream (.messageSearchingNetwork .enc 0xCAFEBABE) (slice 8 0 []) = some ((bytes [0x4B, 0x2B, 0xFA, 0xEA, 0xF8]).take 38) ∧
    stream (.messageNetwork .enc 1 0x5555) (slice 8 0 []) = some ((bytes [0x4C, 0x00, 0x00, 0x00, 0x05, 0x55, 0x54]).take 54) := by decide

set_option maxRecDepth 4000 in
/-- R334: the byte example of the rule, without the padding. -/
theorem test_decode_debug_message :
    decode (.wire .dec .message ((bytes [0x50, 0x04, 0x08, 0x0C, 0x10, 0x00, 0x04, 0x08, 0x0C, 0x10, 0x14, 0x18, 0x1C, 0x20, 0x24, 0x28, 0x2C, 0x30, 0x34, 0x38,
      0x3C, 0x40, 0x44, 0x48, 0x4C]).take 198)) =
      some (.messageDebugMessage .dec 0x01020304 (Vector.ofFn fun k => BitVec.ofNat 8 k.val)) := by decide

set_option maxRecDepth 4000 in
theorem test_encode_debug_message :
    stream (.messageDebugMessage .enc 0x01020304 (Vector.ofFn fun k => BitVec.ofNat 8 k.val)) (slice 32 0 []) = some ((bytes [0x50, 0x04, 0x08, 0x0C, 0x10, 0x00, 0x04, 0x08, 0x0C, 0x10, 0x14, 0x18, 0x1C, 0x20, 0x24, 0x28, 0x2C, 0x30, 0x34, 0x38,
      0x3C, 0x40, 0x44, 0x48, 0x4C]).take 198) := by decide

/-- R255, R258, R307, R317, R335 and R336: the reserved codes at the ends of their ranges, and codes that are not reserved. -/
theorem test_decode_reserved :
    decode (.wire .dec .sensor (bin [0, 0, 1, 1])) = some (.sensorReserved 3) ∧
    decode (.wire .dec .actuator (bin [0, 0, 0, 1])) = some (.actuatorReserved 1) ∧
    decode (.wire .dec .command (bin [0, 1, 0, 1])) = some (.commandReserved 5) ∧
    decode (.wire .dec .response (bin [0, 1, 1, 1])) = some (.responseReserved 7) ∧
    decode (.wire .dec .response (bin [1, 0, 1, 0])) = some (.responseReserved 10) ∧
    decode (.wire .dec .message (bin [0, 1, 0, 1, 0, 1])) = some (.messageReserved (.code 5)) ∧
    decode (.wire .dec .message (bin [1, 0])) = some (.messageReserved (.version 2)) ∧
    decode (.wire .enc .sensor (bin [0, 0, 1, 1])) = none ∧ decode (.wire .dec .sensor (bin [0, 0, 0, 0])) = none := by decide

/-- R110: the frame of R201's example, the frame of R200's, an empty one, and a length that does not fit (R111). -/
theorem test_decode_frames :
    decode (.frame .dec ([0x22, 0x83, 0x55, 0x55, 1, 2, 3] ++ List.replicate 25 0)) =
      some (.frameWithAddress .dec 0x22 0x5555 [1, 2, 3]) ∧
    decode (.frame .enc ([0x22, 0x03, 1, 2, 3] ++ List.replicate 27 0xEE)) =
      some (.frameWithoutAddress .enc 0x22 [1, 2, 3]) ∧
    decode (.frame .dec ([5, 0] ++ List.replicate 30 0)) = some (.frameWithoutAddress .dec 5 []) ∧
    decode (.frame .dec ([1, 0x9D] ++ List.replicate 30 0)) = none := by decide

/-- The table's numbering: a 32-bit row, an 8-bit row (Command.ToggleLimb, `0011 llll`), and an illegal word. -/
theorem test_decode_table_word :
    decodeTableWord 32 0x00220321 = some (.plNewWithAddr 3 0x22) ∧
    decodeTableWord 8 0x3F = some (.commandToggleLimb .dec 15) ∧ decodeTableWord 32 0x00008000 = none := by decide

/-- A placed word is what the next step runs. -/
theorem test_step_runs_placed_words :
    (out (step ((bufs [] [0x22]).withFetchWord 32 0x22))).map (fun t => (t.result, t.err)) = some (0x22, none) ∧
    (out (step (State.reset.withFetchWord 8 0x3F))).map (fun t => (t.cursor, t.err)) = some (8, none) := by decide

/-! ## One step of each command -/

/-- R370. -/
theorem test_nop : report .nop (State.reset.raise .bufferOverflow) = some (0, none, 0) := by decide

/-- R371, spec/95_test_vectors.md T-L2-C. -/
theorem test_clear_status :
    report .clearStatus (((slice 32 2 [0x40]).setMode .write).flagIf true) = some (0, none, 0) ∧
    (out (exec .clearStatus ((slice 32 2 [0x40]).setMode .write))).map (·.wbuf 0) = some 0x40 := by decide

/-- R102: an illegal word leaves the open session. -/
theorem test_illegal_command :
    (out (step { (slice 32 2 []).setMode .write with pending := [.write 0 .w32 0x01000000] })).map
      (fun t => (t.err, t.result, t.mode, t.cursor)) = some (some .illegalCommand, 0, .write, 2) := by decide

/-- T-L2-B-1. -/
theorem test_bw_begin : report (.bwBegin 32) (bufs [0xAA] []) = some (0, none, 0x04000200) := by decide

theorem test_bw_begin_limit : report (.bwBegin 33) State.reset = some (0, some .illegalLimit, 0x0000000F) := by decide

/-- T-L2-B-1: the byte that is entered is cleared first. -/
theorem test_bw_write :
    (out (exec (.bwWrite 2) { (slice 32 0 [0xAA]).setMode .write with arg0 := 1 })).map
      (fun t => (t.result, t.wbuf 0, t.status)) = some (2, 0x40, 0x04080200) := by decide

/-- T-L2-B-2: a value that does not fit is masked and flagged; one bit too many changes nothing. -/
theorem test_bw_write_masks :
    (out (exec (.bwWrite 8) { (slice 1 0 []).setMode .write with arg0 := 0x1FF })).map
      (fun t => (t.result, t.wbuf 0, t.status)) = some (8, 0xFF, 0x00201300) ∧
    report (.bwWrite 9) { (slice 1 0 []).setMode .write with arg0 := 0x1FF } =
      some (0, some .bufferOverflow, 0x00200201) := by decide

/-- T-L1-10: 17 bits are 3 bytes. -/
theorem test_bw_finalize : report .bwFinalize ((slice 32 17 []).setMode .write) = some (3, none, 0x04042000) := by decide

/-- T-L2-B-4. -/
theorem test_br_begin : report (.brBegin 3) State.reset = some (0, none, 0x00600400) := by decide

/-- T-L2-B-4: six bits across a byte boundary. -/
theorem test_br_read :
    report (.brRead 6) ((slice 3 7 [0x41, 0xB8]).setMode .read) = some (0x37, none, 0x00741400) := by decide

/-- T-L2-B-5: a read past the end leaves the cursor. -/
theorem test_br_read_underflow :
    report (.brRead 32) ((slice 4 3 [0xDE]).setMode .read) = some (0, some .bufferUnderflow, 0x008C0402) := by decide

/-- T-L2-B-4. -/
theorem test_br_end : report .brEnd ((slice 3 24 []).setMode .read) = some (3, none, 0x00603000) := by decide

/-- The wrong kind of session (T-L2-B-3). -/
theorem test_wrong_session :
    report .brEnd ((slice 4 0 []).setMode .write) = some (0, some .illegalSequence, 0x0080020E) := by decide

/-- R340, T-L1-4. -/
theorem test_msg_encode :
    (out (exec (.msgEncode 32) { bufs [0xAA, 0xAA, 0xAA, 0xAA] [] with msgIn := some (.message (.command 55 .info)) })).map
      (fun t => (t.wbufBytes 4, t.result, t.status)) = some ([0x41, 0xB8, 0x00, 0xAA], 3, 0x14042000) := by decide

/-- T-L3-4: an overflow keeps the fields before the failing one. -/
theorem test_msg_encode_overflow :
    (out (exec (.msgEncode 2) { State.reset with msgIn := some (.message (.command 55 .info)) })).map
      (fun t => (t.wbufBytes 2, t.result, t.status)) = some ([0x41, 0xB8], 0, 0x10541001) := by decide

/-- R341: bytes after the message are ignored. -/
theorem test_msg_decode :
    (out (exec (.msgDecode 5) (bufs [0x41, 0xB8, 0x00, 0xFF, 0xFF] []))).map (fun t => (t.msgOut, t.result, t.cursor)) =
      some (some (.message (.command 55 .info)), 3, 17) := by decide

/-- T-L2-M-D: an inner error empties MSG_OUT. -/
theorem test_msg_decode_error :
    (out (exec (.msgDecode 5) { bufs [0x40, 0x2A, 0x00, 0x00, 0x66] [] with msgOut := some (.searchingNetwork 0) })).map
      (fun t => (t.msgOut, t.err, t.cursor)) = some (none, some .invalidSensor, 39) := by decide

/-- R200. -/
theorem test_pl_new :
    (out (exec (.plNew 3 0x22) (bufs [1, 2, 3] (List.replicate 32 0xEE)))).map (fun t => (t.payloadBytes 0 32, t.result)) =
      some ([0x22, 3, 1, 2, 3] ++ List.replicate 27 0, 5) := by decide

theorem test_pl_new_too_long : report (.plNew 31 0xFF) State.reset = some (0, some .payloadTooLong, 0x0000000A) := by decide

/-- R201. -/
theorem test_pl_new_with_addr :
    (out (exec (.plNewWithAddr 3 0x22) { bufs [1, 2, 3] [] with arg0 := 0x12345556 })).map
      (fun t => (t.payloadBytes 0 8, t.result)) = some ([0x22, 0x83, 0x56, 0x55, 1, 2, 3, 0], 7) := by decide

theorem test_pl_new_with_addr_too_long :
    report (.plNewWithAddr 29 9) State.reset = some (0, some .payloadTooLong, 0x0000000A) := by decide

/-- T-L2-F-2. -/
theorem test_pl_pipe : report .plPipe (bufs [] [0xAB, 0]) = some (0xAB, none, 0) := by decide

theorem test_pl_len : report .plLen (bufs [] [0, 0xFF]) = some (127, none, 0) := by decide

theorem test_pl_address : report .plAddress (bufs [] [0, 0xFF, 0x12, 0x34]) = some (0x00013412, none, 0) := by decide

theorem test_pl_address_none : report .plAddress (bufs [] [0xAB, 0, 0x12, 0x34]) = some (0, none, 0) := by decide

theorem test_pl_header_length : report .plHeaderLength (bufs [] [1, 0x80]) = some (4, none, 0) := by decide

/-- R214: 28 is valid with an address, 29 is not. -/
theorem test_pl_len_is_valid : report .plLenIsValid (bufs [] [0, 0x9C]) = some (1, none, 0) := by decide

theorem test_pl_len_is_valid_not : report .plLenIsValid (bufs [] [0, 0x9D]) = some (0, none, 0) := by decide

/-- T-L2-F-3. -/
theorem test_pl_data :
    (out (exec .plData (bufs [0xEE, 0xEE, 0xEE, 0xEE] [0x22, 0x83, 0x55, 0x55, 1, 2, 3]))).map
      (fun t => (t.wbufBytes 4, t.result)) = some ([1, 2, 3, 0xEE], 3) := by decide

theorem test_pl_data_invalid : report .plData (bufs [] [0x22, 0x9D]) = some (0, some .invalidLength, 0x0000000B) := by decide

/-- T-L2-F-2. -/
theorem test_pl_packet : report .plPacket (bufs [] [7, 5]) = some (7, none, 0) := by decide

theorem test_pl_packet_invalid : report .plPacket (bufs [] [1, 0x80]) = some (0, some .invalidLength, 0x0000000B) := by decide

/-- T-L2-F-4. -/
theorem test_pl_addr_filter :
    report (.plAddrFilter 2 true) { bufs [] [0, 0x83, 0x55, 0x55] with filter0 := 0x1234, filter1 := 0x5555 } =
      some (1, none, 0) := by decide

theorem test_pl_addr_filter_discards :
    report (.plAddrFilter 1 true) { bufs [] [0, 0x83, 0x55, 0x55] with filter0 := 0x1234, filter1 := 0x5555 } =
      some (0, none, 0) := by decide

/-- T-L2-F-5. -/
theorem test_pipe_for_addr : report .pipeForAddr { State.reset with arg0 := 0x12345555 } = some (0xD5, none, 0) := by decide

theorem test_pipe_for_addr_wraps : report .pipeForAddr { State.reset with arg0 := 0x7F } = some (0xFF, none, 0) := by decide

/-- R343. -/
theorem test_frame_msg :
    (out (exec (.frameMsg true 0x22) { State.reset with msgIn := some (.message (.command 55 .info)), arg0 := 0x5555 })).map
      (fun t => (t.payloadBytes 0 8, t.result, t.limit)) = some ([0x22, 0x83, 0x55, 0x55, 0x41, 0xB8, 0, 0], 7, 28) := by decide

/-- R344, T-L2-M-S. -/
theorem test_unframe_msg :
    (out (exec .unframeMsg (bufs [] [0x10, 3, 0x41, 0xB8, 0]))).map (fun t => (t.msgOut, t.result, t.limit)) =
      some (some (.message (.command 55 .info)), 3, 3) := by decide

theorem test_unframe_msg_version :
    (out (exec .unframeMsg (bufs [] [7, 0x83, 0x42, 0, 0x81, 0xB8, 0]))).map
      (fun t => (t.msgOut, t.err, t.cursor, t.wbufBytes 2)) =
      some (none, some .versionMismatch, 2, [0x81, 0xB8]) := by decide

/-! ## One step of the rows run by their decoder, the reserved rows and the frames -/

/-- R162, R381: the cursor passes the row, or stays at the field that does not fit. -/
theorem test_row_decoder :
    ended (.sensorTempHum .dec 1000 50) (slice 4 3 []) = some (31, none, true) ∧
    ended (.sensorTempHum .dec 1000 50) (slice 3 1 []) = some (21, some .bufferUnderflow, true) := by decide

/-- R37, R265, R320: the encoder flags what does not fit its field. -/
theorem test_row_encoder_flags :
    (out (exec (.commandToggleLimb .enc 16) (slice 4 0 []))).map (fun t => (t.cv, t.wbuf 0)) = some (true, 0x30) ∧
    (out (exec (.dataResponse .enc (some 0) .ok) (slice 4 0 []))).map (fun t => (t.cv, t.wbuf 0)) = some (true, 0x80) ∧
    (out (exec (.dataCommand .enc 63 .info) (slice 4 0 []))).map (·.cv) = some false := by decide

/-- R130: the error comes right after the code. -/
theorem test_reserved_rows :
    ended (.sensorReserved 3) (slice 1 4 []) = some (8, some .invalidSensor, true) ∧
    ended (.actuatorReserved 1) (slice 1 4 []) = some (8, some .invalidActuator, true) ∧
    ended (.commandReserved 5) (slice 1 4 []) = some (8, some .invalidCommand, true) ∧
    ended (.responseReserved 4) (slice 1 4 []) = some (8, some .invalidResponse, true) := by decide

/-- R335, R336, R385: the unreadable heads, and a code that cannot be read in full. -/
theorem test_reserved_heads :
    ended (.messageReserved (.code 5)) (slice 1 0 []) = some (6, some .invalidMessage, true) ∧
    ended (.messageReserved (.version 2)) (slice 1 0 []) = some (2, some .versionMismatch, true) ∧
    ended (.sensorReserved 3) (slice 1 5 []) = some (5, some .bufferUnderflow, true) := by decide

/-- R110: the frames of the examples of R200 and R201. -/
theorem test_frame_rows :
    (out (exec (.frameWithAddress .enc 0x22 0x5555 [1, 2, 3]) State.reset)).map (·.payloadBytes 0 8) =
      some [0x22, 0x83, 0x55, 0x55, 1, 2, 3, 0] ∧
    (out (exec (.frameWithoutAddress .enc 0x22 [1, 2, 3]) State.reset)).map (·.payloadBytes 0 6) =
      some [0x22, 3, 1, 2, 3, 0] ∧
    (out (exec (.frameWithoutAddress .dec 0x22 [1, 2, 3]) (bufs [] [0x22, 3, 1, 2, 3]))).map (·.wbufBytes 4) =
      some [1, 2, 3, 0] := by decide

/-! ## The host's accesses (spec/95_test_vectors.md T-L2-H) -/

/-- Little-endian reads; a misaligned read and a narrow register read are bus errors. -/
theorem test_host_reads :
    (hostRead 0x20 .w32 (bufs [0x41, 0xB8] [])).hostRead = 0x0000B841 ∧
    (hostRead 0x20 .w16 (bufs [0x41, 0xB8] [])).hostRead = 0xB841 ∧
    (hostRead 0x21 .w8 (bufs [0x41, 0xB8] [])).hostRead = 0xB8 ∧
    (hostRead 0x21 .w16 (bufs [0x41, 0xB8] [])).busError = true ∧
    (hostRead 0x0C .w8 State.reset).busError = true ∧ (hostRead 0x80 .w32 State.reset).busError = true ∧
    (hostRead 0x18 .w32 State.reset).busError = false := by decide

theorem test_host_writes :
    (out (hostWrite 0x40 .w32 0x01020304 State.reset)).map (·.payloadBytes 0 4) = some [4, 3, 2, 1] ∧
    (out (hostWrite 0x10 .w32 0x55551234 State.reset)).map (·.filters) = some [0x1234, 0x5555, 0, 0] ∧
    (out (hostWrite 0x08 .w32 0x12345678 State.reset)).map (·.result) = some 0 := by decide

/-! ## Witnesses: hypotheses that concrete states and operands meet -/

/-- A session of mode m over 4 bytes whose cursor stands one bit before the end. -/
def nearEnd (m : Mode) : State := (slice 4 31 [0x41, 0xB8, 0x00, 0x7F]).setMode m

/-- The Message of the spec's scenario B: 17 bits. -/
def scenarioB : Message := .message (.command 55 .info)

/-- A longest Message: 202 bits (R347). -/
def longest : Message :=
  let l : Option Limb := some ⟨15, .sensor 0xFFFF (some (.tempHum 0xFFFF 255))⟩
  .relayMessage 0xFFFFFFFF (.response (some 63) (.limbs l l l))

/-- A frame of the greatest length with an address, and one of length 1 without. -/
def fullFrame : State := bufs [] ([7, 0x9C, 0x55, 0x55] ++ List.replicate 28 1)

def shortFrame : State := bufs [] [7, 1, 0x41]

theorem witness_DecodeOfEncode :
    Instr.wf (.plNewWithAddr 63 255) = true ∧ Instr.wf (.limb .dec 15 (.actuator (.light true))) = true ∧
    Instr.wf (.responseReserved 15) = true ∧ Instr.wf (.messageReserved (.version 3)) = true ∧
    Instr.wf (.dataResponse .enc (some 63) .ok) = true ∧
    Instr.wf (.frameWithAddress .dec 255 0xFFFF (List.replicate 28 255)) = true ∧
    Instr.wf (.frameWithoutAddress .dec 255 (List.replicate 30 255)) = true := by decide

theorem witness_CommandWordLayout :
    Word.reservedClear 0x00FF7FFF = true ∧ Word.reservedClear 0x00000000 = true := by decide

theorem witness_OpcodeMap : Word.opc 0x00000040 ∉ opcodes ∧ Word.opc 0x000000FF ∉ opcodes := by decide

theorem witness_IllegalWords :
    Word.opc 0x00000007 ∉ opcodes ∧ (0x00008000 : Word).getLsbD 15 = true ∧
    (0x01000000 : Word).extractLsb' 24 8 ≠ 0 ∧ (0x80000000 : Word).extractLsb' 24 8 ≠ 0 ∧
    (Word.opc 0x00FF7F3F ∈ opcodes ∧ (0x00FF7F3F : Word).getLsbD 15 = false ∧
      (0x00FF7F3F : Word).extractLsb' 24 8 = 0) ∧
    decodeCommand 0x00FF7F00 = some .nop := by decide

theorem witness_StepRunsIssuedCommand :
    decodeCommand 0x0000003F = some .clearStatus ∧ Width.w8 ≠ .w32 ∧ Width.w16 ≠ .w32 := by decide

theorem witness_StepRunsRow :
    (Instr.wf (.commandToggleLimb .dec 15) = true ∧
      encode (.commandToggleLimb .dec 15) = .wire .dec .command (bin [0, 0, 1, 1, 1, 1, 1, 1]) ∧
      (slice 1 0 [0x3F]).unread = bin [0, 0, 1, 1, 1, 1, 1, 1] ++ [] ∧
      (slice 2 0 [0x3F]).unread = bin [0, 0, 1, 1, 1, 1, 1, 1] ++ bin [0, 0, 0, 0, 0, 0, 0, 0]) ∧
    decodeFrame (fullFrame.payloadBytes 0 32) = some ⟨7, some 0x5555, List.replicate 28 1⟩ ∧
    decodeFrame ((bufs [] [7]).payloadBytes 0 32) = some ⟨7, none, []⟩ := by decide

theorem witness_PlacedWordRuns :
    decodeTableWord 32 0x00FF7F00 = some .nop ∧ decodeTableWord 8 0x30 = some (.commandToggleLimb .dec 0) ∧
    decodeTableWord 8 0xF0 = some (.commandReserved 15) ∧ Memory.wf (bufs [1] [2]).mem = true := by decide

theorem witness_NothingPending : State.reset.pending = [] := by decide

theorem witness_StepKeepsInvariant :
    (nearEnd .write).Inv ∧ (slice 32 256 [255]).Inv ∧ (slice 0 0 []).Inv := by decide

theorem witness_MsgOutStaysCanonical :
    (∀ m ∈ ({ bufs [0x41, 0xB8] [] with msgOut := some longest } : State).msgOut, m.Canonical) ∧
    (out (step { bufs [0x41, 0xB8] [] with msgOut := some longest, pending := [.write 0 .w32 0x311] })).isSome = true := by
  decide

theorem witness_BeginOpensSession :
    (nearEnd .write).mode ≠ .idle ∧ (nearEnd .read).mode ≠ .idle ∧
    ((nearEnd .idle).mode = .idle ∧ 32 < (33 : BitVec 6).toNat ∧ 32 < (63 : BitVec 6).toNat) ∧
    ((nearEnd .idle).mode = .idle ∧ (32 : BitVec 6).toNat ≤ 32 ∧ (0 : BitVec 6).toNat ≤ 32) := by decide

theorem witness_EndClosesSession :
    (nearEnd .write).mode = .write ∧ (nearEnd .read).mode ≠ .write ∧ (nearEnd .read).mode = .read ∧
    (nearEnd .idle).mode ≠ .read := by decide

theorem witness_BwWriteWritesTheField :
    ((nearEnd .read).Inv ∧ (nearEnd .read).mode ≠ .write) ∧
    ((nearEnd .write).Inv ∧ (nearEnd .write).mode = .write ∧ 32 < (33 : BitVec 6).toNat) ∧
    ((2 : BitVec 6).toNat ≤ 32 ∧ 8 * (nearEnd .write).limit < (nearEnd .write).cursor + (2 : BitVec 6).toNat) ∧
    ((1 : BitVec 6).toNat ≤ 32 ∧ (nearEnd .write).cursor + (1 : BitVec 6).toNat ≤ 8 * (nearEnd .write).limit) ∧
    (((slice 4 0 []).setMode .write).Inv ∧ (32 : BitVec 6).toNat ≤ 32 ∧
      ((slice 4 0 []).setMode .write).cursor + (32 : BitVec 6).toNat ≤ 8 * ((slice 4 0 []).setMode .write).limit) := by
  decide

theorem witness_BrReadReadsTheField :
    ((nearEnd .write).Inv ∧ (nearEnd .write).mode ≠ .read) ∧
    ((nearEnd .read).Inv ∧ (nearEnd .read).mode = .read ∧ 32 < (33 : BitVec 6).toNat) ∧
    ((2 : BitVec 6).toNat ≤ 32 ∧ 8 * (nearEnd .read).limit < (nearEnd .read).cursor + (2 : BitVec 6).toNat) ∧
    ((1 : BitVec 6).toNat ≤ 32 ∧ (nearEnd .read).cursor + (1 : BitVec 6).toNat ≤ 8 * (nearEnd .read).limit) ∧
    (((slice 4 0 []).setMode .read).Inv ∧ (32 : BitVec 6).toNat ≤ 32 ∧
      ((slice 4 0 []).setMode .read).cursor + (32 : BitVec 6).toNat ≤ 8 * ((slice 4 0 []).setMode .read).limit) := by
  decide

/-- What a decoder on a session leaves, without the state. -/
def decodedValue (d : Decoded Nat) : Option Nat × Option Error :=
  match d with
  | .ok v _ => (some v, none)
  | .err e _ => (none, some e)

theorem witness_BitReadIsPseudocode :
    (nearEnd .read).Inv ∧ decodedValue (bitRead 1 (nearEnd .read)) = (some 1, none) ∧
    decodedValue (bitRead 2 (nearEnd .read)) = (none, some .bufferUnderflow) ∧
    ((nearEnd .read).setWbuf 4 0xFF).mem ≠ (nearEnd .read).mem ∧
    ∀ i, i < (nearEnd .read).limit →
      Memory.read ((nearEnd .read).setWbuf 4 0xFF).mem (0x20 + i) = (nearEnd .read).wbuf i := by decide

/-- Two writes, the first too wide for its field, that fill a slice of two bytes but for seven bits. -/
theorem witness_FieldRoundTrip :
    State.reset.Inv ∧ State.reset.mode = .idle ∧ (2 : BitVec 6).toNat ≤ 32 ∧
    ∃ s1 s2 s3 s4, exec (.bwBegin 2) State.reset = .next s1 ∧ writeAll [(0x1FF, 8), (1, 1)] s1 = some s2 ∧
      exec .bwFinalize s2 = .next s3 ∧ exec (.brBegin 2) s3 = .next s4 :=
  ⟨by decide, rfl, by decide, _, _, _, _, rfl, rfl, rfl, rfl⟩

theorem witness_PlPacket :
    fullFrame.plValid = true ∧ shortFrame.plValid = true ∧ (bufs [] [7, 0x9D]).plValid = false ∧
    (bufs [] [7, 0]).plValid = false := by decide

theorem witness_PlNewBuildsFrame :
    Memory.wf (bufs [1, 2, 3] [9]).mem = true ∧ 30 < (31 : BitVec 6).toNat ∧ (30 : BitVec 6).toNat ≤ 30 ∧
    (0 : BitVec 6).toNat ≤ 30 := by decide

theorem witness_PlNewWithAddrBuildsFrame :
    Memory.wf (bufs [1, 2, 3] [9]).mem = true ∧ 28 < (29 : BitVec 6).toNat ∧ (28 : BitVec 6).toNat ≤ 28 ∧
    (0 : BitVec 6).toNat ≤ 28 := by decide

theorem witness_PlDataCopies :
    Memory.wf fullFrame.mem = true ∧ (fullFrame.setMode .read).mode ≠ .idle ∧
    ((bufs [] [7, 0x9D]).mode = .idle ∧ (bufs [] [7, 0x9D]).plValid = false) ∧
    (fullFrame.mode = .idle ∧ fullFrame.plValid = true) ∧ (shortFrame.mode = .idle ∧ shortFrame.plValid = true) := by
  decide

/-- An addressed frame whose address is the last FILTER entry only. -/
def filtered : State := { fullFrame with filter0 := 1, filter1 := 2, filter2 := 3, filter3 := 0x5555 }

theorem witness_AddrFilter :
    4 < (5 : BitVec 6).toNat ∧ (4 : BitVec 6).toNat ≤ 4 ∧
    (∃ i, i < (4 : BitVec 6).toNat ∧ filtered.filters[i]? = some (filtered.payload 3 ++ filtered.payload 2)) ∧
    (shortFrame.payload 1).toNat < 128 ∧
    ¬ (true = false ∨ (filtered.payload 1).toNat < 128 ∨
      ∃ i, i < (3 : BitVec 6).toNat ∧ filtered.filters[i]? = some (filtered.payload 3 ++ filtered.payload 2)) := by
  refine ⟨by decide, by decide, ⟨3, by decide, by decide⟩, by decide, ?_⟩
  rintro (h | h | ⟨i, h1, h2⟩)
  · exact absurd h (by decide)
  · exact absurd h (by decide)
  · have h3 : ∀ j < 3, filtered.filters[j]? ≠ some (filtered.payload 3 ++ filtered.payload 2) := by decide
    exact h3 i h1 h2

/-- The same frame with another byte right after its one data byte. -/
theorem witness_TrailingBytesNeverRead :
    Memory.wf shortFrame.mem = true ∧ Memory.wf (bufs [] [7, 1, 0x41, 0xEE]).mem = true ∧ shortFrame.plValid = true ∧
    (∀ a, a < 0x40 + shortFrame.plHeader + shortFrame.plLen →
      Memory.read (bufs [] [7, 1, 0x41, 0xEE]).mem a = shortFrame.byte a) ∧
    (bufs [] [7, 1, 0x41, 0xEE]).mem ≠ shortFrame.mem ∧ (out (exec .unframeMsg shortFrame)).isSome = true ∧
    (out (exec (.plAddrFilter 4 true) shortFrame)).isSome = true := by decide

set_option maxRecDepth 2000 in
theorem witness_MsgEncode :
    (nearEnd .write).Inv ∧ (nearEnd .write).mode ≠ .idle ∧
    ((nearEnd .idle).Inv ∧ (nearEnd .idle).mode = .idle ∧ (nearEnd .idle).msgIn = none) ∧
    ({ nearEnd .idle with msgIn := some longest } : State).Inv ∧ 32 < (33 : BitVec 6).toNat ∧
    ((26 : BitVec 6).toNat ≤ 32 ∧ longest.bits.length ≤ 8 * (26 : BitVec 6).toNat) ∧
    ((25 : BitVec 6).toNat ≤ 32 ∧ 8 * (25 : BitVec 6).toNat < longest.bits.length) ∧
    (scenarioB.bits.length ≤ 8 * (3 : BitVec 6).toNat ∧ 8 * (2 : BitVec 6).toNat < scenarioB.bits.length) := by decide

/-- A Message followed by other bits; and slices too short to hold any. -/
theorem witness_MsgDecode :
    ((nearEnd .write).Inv ∧ (nearEnd .write).mode ≠ .idle) ∧
    ((nearEnd .idle).Inv ∧ (nearEnd .idle).mode = .idle ∧ 32 < (33 : BitVec 6).toNat) ∧
    ((4 : BitVec 6).toNat ≤ 32 ∧ scenarioB.Canonical ∧
      (nearEnd .idle).bitsFrom 0 (8 * (4 : BitVec 6).toNat) = scenarioB.bits ++ bin [0, 0, 0, 0, 0, 0, 0, 0, 1, 1, 1, 1, 1, 1, 1]) ∧
    ((2 : BitVec 6).toNat ≤ 32 ∧ ¬ ∃ (m : Message) (more : Bits), m.Canonical ∧
      (nearEnd .idle).bitsFrom 0 (8 * (2 : BitVec 6).toNat) = m.bits ++ more) := by
  refine ⟨by decide, by decide, by decide, by decide, ?_⟩
  rintro ⟨m, more, -, h⟩
  have h1 := m.width_bounds.1
  have h2 := congrArg List.length h
  simp only [Message.bits, State.bitsFrom, List.length_map, List.length_range, List.length_append, fieldsBits_length] at h2
  have h3 : (2 : BitVec 6).toNat = 2 := rfl
  omega

/-- The 17 bits of the Message stand before the cursor; memory differs right after them. -/
theorem witness_DecodeStopsAtFirstFailure :
    (nearEnd .idle).Inv ∧ (nearEnd .idle).mode = .idle ∧ (4 : BitVec 6).toNat ≤ 32 ∧
    (∃ t, exec (.msgDecode 4) (nearEnd .idle) = .next t ∧ t.cursor = 17 ∧
      ∀ p, p < t.cursor → ({ nearEnd .idle with mem := ((nearEnd .idle).setWbuf 2 0x7F).mem } : State).streamBit p =
        (nearEnd .idle).streamBit p) ∧
    Memory.wf ((nearEnd .idle).setWbuf 2 0x7F).mem = true ∧
    (bufs [] [7, 3, 0x41, 0xB8, 0]).Inv ∧ (bufs [] [7, 3, 0x41, 0xB8, 0]).plValid = true ∧
    (∃ t, exec .unframeMsg (bufs [] [7, 3, 0x41, 0xB8, 0]) = .next t ∧ t.cursor = 17 ∧ ∀ p, p < t.cursor →
      (Memory.read (bufs [] [7, 3, 0x41, 0xB8, 0x7F]).mem (0x40 + 2 + p / 8)).getLsbD (7 - p % 8) =
        ((bufs [] [7, 3, 0x41, 0xB8, 0]).payload (2 + p / 8)).getLsbD (7 - p % 8)) ∧
    Memory.wf (bufs [] [7, 3, 0x41, 0xB8, 0x7F]).mem = true ∧
    Memory.read (bufs [] [7, 3, 0x41, 0xB8, 0x7F]).mem 0x41 = (bufs [] [7, 3, 0x41, 0xB8, 0]).payload 1 := by
  refine ⟨by decide, by decide, by decide, ⟨_, rfl, by decide, ?_⟩, by decide, by decide, by decide, ⟨_, rfl, by decide, ?_⟩,
    by decide, by decide⟩
  · exact (show ∀ p < 17, _ by decide)
  · exact (show ∀ p < 17, _ by decide)

/-- Each decode error, with the slices of spec/95_test_vectors.md T-L2-M-D; an underflow at the last field, at the version of
an empty slice, and at a Command code of which three bits are there. -/
theorem witness_DecodeErrorsRecordCursor :
    (bufs [0xC0] []).Inv ∧ (bufs [0xC0] []).mode = .idle ∧ (32 : BitVec 6).toNat ≤ 32 ∧
    (out (exec (.msgDecode 1) (bufs [0xC0] []))).map (·.err) = some (some .versionMismatch) ∧
    (out (exec (.msgDecode 1) (bufs [0x7C] []))).map (·.err) = some (some .invalidMessage) ∧
    (out (exec (.msgDecode 3) (bufs [0x41, 0xBF, 0xC0] []))).map (·.err) = some (some .invalidCommand) ∧
    (out (exec (.msgDecode 3) (bufs [0x42, 0x0A, 0x00] []))).map (·.err) = some (some .invalidResponse) ∧
    (out (exec (.msgDecode 5) (bufs [0x40, 0x2A, 0x00, 0x00, 0x66] []))).map (·.err) = some (some .invalidSensor) ∧
    (out (exec (.msgDecode 3) (bufs [0x40, 0x2A, 0x46] []))).map (·.err) = some (some .invalidActuator) ∧
    (out (exec (.msgDecode 6) (bufs [0x4C, 0, 0, 0, 5, 0x55] []))).map (fun t => (t.err, t.cursor)) =
      some (some .bufferUnderflow, 38) ∧
    (out (exec (.msgDecode 0) (bufs [0x4C] []))).map (fun t => (t.err, t.cursor)) = some (some .bufferUnderflow, 0) ∧
    (out (exec (.msgDecode 2) (bufs [0x41, 0xB9] []))).map (fun t => (t.err, t.cursor)) =
      some (some .bufferUnderflow, 13) := by decide

theorem witness_VersionGate :
    (bufs [0x3F] []).Inv ∧ (bufs [0x3F] []).mode = .idle ∧ (0 : BitVec 6).toNat = 0 ∧
    0 < (1 : BitVec 6).toNat ∧ (32 : BitVec 6).toNat ≤ 32 ∧ ((bufs [0x3F] []).wbuf 0).toNat < 0x40 ∧
    0x80 ≤ ((bufs [0x80] []).wbuf 0).toNat ∧ 0x80 ≤ ((bufs [0xFF] []).wbuf 0).toNat := by decide

theorem witness_ReservedMessageCode :
    (bufs [0x54] []).Inv ∧ (bufs [0x54] []).mode = .idle ∧ 0 < (1 : BitVec 6).toNat ∧ (32 : BitVec 6).toNat ≤ 32 ∧
    0x54 ≤ ((bufs [0x54] []).wbuf 0).toNat ∧ 0x54 ≤ ((bufs [0x7F] []).wbuf 0).toNat ∧
    ((bufs [0x7F] []).wbuf 0).toNat < 0x80 := by decide

theorem witness_FrameMsg :
    ((nearEnd .read).Inv ∧ (nearEnd .read).mode ≠ .idle) ∧
    ((nearEnd .idle).Inv ∧ (nearEnd .idle).mode = .idle ∧ (nearEnd .idle).msgIn = none) ∧
    ({ nearEnd .idle with msgIn := some longest } : State).Inv ∧
    ({ nearEnd .idle with msgIn := some longest } : State).msgIn = some longest := by decide

theorem witness_UnframeMsg :
    ((fullFrame.setMode .write).Inv ∧ (fullFrame.setMode .write).mode ≠ .idle) ∧
    ((bufs [] [7, 31]).Inv ∧ (bufs [] [7, 31]).mode = .idle ∧ (bufs [] [7, 31]).plValid = false) ∧
    (fullFrame.Inv ∧ fullFrame.mode = .idle ∧ fullFrame.plValid = true) ∧
    (bufs [] [7, 30]).plValid = true := by decide

/-- A Message with every field it has at a value canon changes. -/
def overflowing : Message := .message (.response (some 64) (.limbs (some ⟨16, .actuator (.light true)⟩) none none))

theorem witness_CanonicalValues :
    (64 : Byte).toNat % 64 = 0 ∧ (63 : Byte).toNat % 64 ≠ 0 ∧ (255 : Byte).toNat % 64 ≠ 0 ∧
    ((∀ l, Command.info ≠ .setLimb l) ∧ ∀ i, Command.info ≠ .toggleLimb i) ∧
    (∀ x y z, Response.ok ≠ .limbs x y z) ∧
    ((bufs [0x41, 0xB8] []).Inv ∧ (bufs [0x41, 0xB8] []).mode = .idle ∧
      (out (exec (.msgDecode 3) (bufs [0x41, 0xB8] []))).map (·.msgOut) = some (some scenarioB)) ∧
    (longest.Canonical ∧ ¬ overflowing.Canonical) ∧
    (out (exec (.msgEncode 32) { State.reset with msgIn := some scenarioB })).isSome = true := by
  refine ⟨by decide, by decide, by decide, ⟨by simp, by simp⟩, by simp, by decide,
    by decide, by decide⟩

theorem witness_MessageRoundTrip :
    ({ State.reset with msgIn := some scenarioB } : State).Inv ∧
    (∃ t, exec (.msgEncode 32) { State.reset with msgIn := some scenarioB } = .next t ∧ t.err = none ∧
      t.result.toNat ≤ (3 : BitVec 6).toNat ∧ (32 : BitVec 6).toNat ≤ 32) :=
  ⟨by decide, _, rfl, by decide, by decide, by decide⟩

/-- A block whose WBUF, registers and CV differ from the sender's. -/
theorem witness_FrameThenUnframe :
    ({ State.reset with msgIn := some scenarioB } : State).Inv ∧
    (∃ t, exec (.frameMsg true 7) { State.reset with msgIn := some scenarioB } = .next t ∧
      (bufs [9] [7, 0x83, 0, 0, 0x41, 0xB8, 0]).Inv ∧ (bufs [9] [7, 0x83, 0, 0, 0x41, 0xB8, 0]).mode = .idle ∧
      ∀ i, i < 32 → (bufs [9] [7, 0x83, 0, 0, 0x41, 0xB8, 0]).payload i = t.payload i) :=
  ⟨by decide, _, rfl, by decide, by decide, by decide⟩

/-- A row of 8 bits that ends the slice exactly, and one bit too late. -/
theorem witness_RowEncodes :
    (slice 4 24 [1]).Inv ∧ (slice 4 25 [1]).Inv ∧
    (slice 4 24 [1]).cursor + fieldsWidth (WireValue.command (.toggleLimb 16)).fields ≤ 8 * (slice 4 24 [1]).limit ∧
    8 * (slice 4 25 [1]).limit < (slice 4 25 [1]).cursor + fieldsWidth (WireValue.command (.toggleLimb 16)).fields := by
  decide

theorem witness_RowDecodes :
    (slice 4 14 [1]).Inv ∧ (slice 4 15 [1]).Inv ∧
    (slice 4 14 [1]).cursor + fieldsWidth (WireValue.nodeInfo ⟨.b3, 1⟩).fields ≤ 8 * (slice 4 14 [1]).limit ∧
    8 * (slice 4 15 [1]).limit < (slice 4 15 [1]).cursor + fieldsWidth (WireValue.nodeInfo ⟨.b3, 1⟩).fields := by
  decide

theorem witness_ReservedRows :
    (slice 1 4 []).Inv ∧ (slice 1 4 []).cursor + 4 ≤ 8 * (slice 1 4 []).limit ∧
    ((slice 1 5 []).Inv ∧ 8 * (slice 1 5 []).limit < (slice 1 5 []).cursor + 4) ∧
    ((slice 1 6 []).Inv ∧ (slice 1 6 []).cursor + 2 ≤ 8 * (slice 1 6 []).limit) ∧
    ((slice 1 7 []).Inv ∧ 8 * (slice 1 7 []).limit < (slice 1 7 []).cursor + 2) ∧
    ((slice 1 2 []).Inv ∧ (slice 1 2 []).cursor + 6 ≤ 8 * (slice 1 2 []).limit) ∧
    ((slice 1 3 []).Inv ∧ 8 * (slice 1 3 []).limit < (slice 1 3 []).cursor + 6 ∧
      (slice 1 3 []).cursor + 2 ≤ 8 * (slice 1 3 []).limit) ∧
    (8 * (slice 1 6 []).limit < (slice 1 6 []).cursor + 6 ∧ (slice 1 6 []).cursor + 2 = 8 * (slice 1 6 []).limit) ∧
    ((Instr.responseReserved 4, Error.invalidResponse) ∈ [(Instr.sensorReserved 4, Error.invalidSensor),
      (.actuatorReserved 4, .invalidActuator), (.commandReserved 4, .invalidCommand),
      (.responseReserved 4, .invalidResponse)] ∧
      (Instr.responseReserved 4).wf = true ∧ (Instr.sensorReserved 3).wf = true ∧
      (Instr.actuatorReserved 1).wf = true ∧ (Instr.commandReserved 5).wf = true ∧
      (Instr.responseReserved 10).wf = true ∧ (Instr.sensorReserved 2).wf = false) ∧
    (Instr.messageReserved (.version 0)).wf = true ∧ (Instr.messageReserved (.version 2)).wf = true ∧
    (Instr.messageReserved (.version 1)).wf = false ∧ (Instr.messageReserved (.code 5)).wf = true ∧
    (Instr.messageReserved (.code 15)).wf = true ∧ (Instr.messageReserved (.code 4)).wf = false := by decide

theorem witness_FrameRows :
    Memory.wf fullFrame.mem = true ∧
    (List.replicate 28 (1 : Byte)).length ≤ 32 - headerLength (some 5) ∧ List.replicate 28 (1 : Byte) ≠ [] ∧
    32 - headerLength (some 5) < (List.replicate 29 (1 : Byte)).length ∧
    (List.replicate 30 (1 : Byte)).length ≤ 32 - headerLength none ∧
    32 - headerLength none < (List.replicate 31 (1 : Byte)).length := by decide

theorem witness_CommandFrame : isCommand .clearStatus = true ∧ isCommand (.msgDecode 63) = true := by decide

theorem witness_CvSticky :
    (∃ t, step { (nearEnd .write).flagIf true with pending := [.write 0 .w32 0x3F] } = .next t ∧ t.cv = false) ∧
    (∃ t, step { (nearEnd .write).flagIf true with pending := [.reset (Vector.replicate 32 1) (Vector.replicate 32 2)] } =
      .next t ∧ t.cv = false) ∧ ((nearEnd .write).flagIf true).cv = true ∧
    isCommand (.bwWrite 0) = true ∧
    (∃ t, exec (.bwWrite 0) { nearEnd .write with arg0 := 1 } = .next t ∧ t.cv ≠ (nearEnd .write).cv) :=
  ⟨⟨_, rfl, rfl⟩, ⟨_, rfl, rfl⟩, rfl, rfl, ⟨_, rfl, by decide⟩⟩

theorem witness_ModeChangers :
    (∃ t, step { State.reset with pending := [.write 0 .w32 0x2001] } = .next t ∧ t.mode ≠ State.reset.mode) ∧
    (∃ t, step { nearEnd .write with pending := [.reset (Vector.replicate 32 1) (Vector.replicate 32 2)] } = .next t ∧
      t.mode ≠ (nearEnd .write).mode) ∧
    (∃ t, exec .unframeMsg (nearEnd .write) = .next t) ∧ (nearEnd .write).mode ≠ .idle :=
  ⟨⟨_, rfl, by decide⟩, ⟨_, rfl, by decide⟩, ⟨_, rfl⟩, by decide⟩

theorem witness_BufferWriters :
    isCommand (.plNew 30 7) = true ∧ isCommand .plData = true ∧ isCommand (.msgEncode 3) = true ∧ fullFrame.Inv ∧
    (out (exec (.plNew 30 7) fullFrame)).isSome = true ∧ (out (exec .plData fullFrame)).isSome = true ∧
    (Instr.plNew 30 7 ≠ .plData ∧ fullFrame.limit ≤ 31) ∧
    (out (exec (.msgEncode 3) { fullFrame with msgIn := some scenarioB })).map (·.limit) = some 3 := by decide

theorem witness_NoConditionCodes :
    isCommand (.bwWrite 2) = true ∧ (out (exec (.bwWrite 2) (nearEnd .write))).map (·.err) = some (some .bufferOverflow) := by
  decide

theorem witness_Ports :
    (isCommand .unframeMsg = true ∧ Instr.unframeMsg ≠ .clearStatus ∧ decodes .unframeMsg = true) ∧
    (isCommand .nop = true ∧ decodes .nop = false) ∧
    (out (exec .unframeMsg (bufs [] [7, 3, 0x41, 0xB8]))).map (·.err) = some none ∧
    (out (exec .unframeMsg (bufs [] [7, 31]))).map (·.err) = some (some .invalidLength) ∧
    (∃ t, exec .clearStatus { State.reset with msgIn := some scenarioB } = .next t) ∧
    (∃ t, step { State.reset with pending := [.reset (Vector.replicate 32 1) (Vector.replicate 32 2)] } = .next t) :=
  ⟨by decide, by decide, by decide, by decide, ⟨_, rfl⟩, ⟨_, rfl⟩⟩

/-- A command with every check, once for each check that can fail first, and once with none failing. -/
theorem witness_PreCheckOrder :
    decodeCommand 0x00000007 = none ∧ (isCommand (.msgEncode 33) = true ∧ (nearEnd .write).Inv ∧ (nearEnd .idle).Inv) ∧
    (Mode.idle ∈ neededMode (.msgEncode 33) ∧ (nearEnd .write).mode ≠ .idle) ∧
    (needsMessage (.msgEncode 33) = true ∧ (nearEnd .idle).msgIn = none) ∧
    (Error.illegalLimit ∈ operandError (.msgEncode 33) ∧ operandError (.msgEncode 32) = none) ∧
    (Error.illegalWidth ∈ operandError (.brRead 33) ∧ operandError (.brRead 32) = none) ∧
    (Error.payloadTooLong ∈ operandError (.plNew 31 0) ∧ operandError (.plNew 30 0) = none) ∧
    (Error.payloadTooLong ∈ operandError (.plNewWithAddr 29 0) ∧ operandError (.plNewWithAddr 28 0) = none) ∧
    (Error.illegalLimit ∈ operandError (.plAddrFilter 5 true) ∧ operandError (.plAddrFilter 4 true) = none) ∧
    (needsValidFrame .plPacket = true ∧ (bufs [] [7, 31]).plValid = false ∧ fullFrame.plValid = true ∧
      (bufs [] [7, 31]).Inv) ∧
    ((WireType.board, 2) ∈ [(WireType.board, 2), (.message, 2), (.sensor, 4)] ∧ (bin [1]).length < 2) ∧
    ((bin []).length < 4 ∧ (bin [0, 1, 0]).length < 4) := by decide

theorem witness_ErrorsPerCommand :
    (isCommand (.plNew 31 0) = true ∧
      (out (exec (.plNew 31 0) State.reset)).map (·.err) = some (some .payloadTooLong)) ∧
    (∃ t, exec (.boardB0 .dec) { slice 4 0 [] with err := some .invalidBoard } = .next t ∧ t.err = some .invalidBoard) ∧
    errNumber .illegalLimit = errNumber .illegalLimit :=
  ⟨by decide, ⟨_, rfl, rfl⟩, rfl⟩

theorem witness_StatusLayout :
    (slice 32 256 []).Inv ∧ ({ slice 32 255 [] with mode := .read, cv := true, err := some .illegalLimit } : State).Inv := by
  decide

theorem witness_HostReads :
    isBusError 0x00 .w32 = false ∧ isBusError 0x14 .w32 = false ∧ isBusError 0x18 .w8 = false ∧
    isBusError 0x1F .w8 = false ∧ isBusError 0x60 .w32 = false ∧ isBusError 0x7F .w8 = false ∧
    (0x20 ≤ 0x5F ∧ 0x5F < 0x60 ∧ 0x5E % 2 = 0 ∧ 0x5C % 4 = 0) := by decide

theorem witness_HostWrites :
    Memory.wf fullFrame.mem = true ∧ isBusError 0x18 .w32 = false ∧ isBusError 0x1F .w8 = false ∧
    isBusError 0x60 .w16 = false ∧ isBusError 0x7F .w8 = false ∧ isBusError 0x20 .w32 = false ∧
    isBusError 0x5C .w32 = false ∧ isBusError 0x5F .w8 = false := by decide

theorem witness_BusErrors :
    isBusError 0x21 .w16 = true ∧ isBusError 0x17 .w8 = true ∧ isBusError 0x80 .w8 = true ∧ isBusError 0x22 .w32 = true ∧
    (∃ t, step { State.reset with busError := true, pending := [.write 0 .w32 0x3F] } = .next t) :=
  ⟨by decide, by decide, by decide, by decide, ⟨_, rfl⟩⟩

end Sys2Proof.Tests
end

section
/-! Proofs for the statements of spec/00_scope.md. -/

namespace Sys2Proof.Proofs.Scope
open Sys2Proof.Machine

/-- Settles O9: `step_nil` for every state. -/
theorem nothingPending : Obligations.NothingPending := by
  unfold Obligations.NothingPending
  intro s hnone
  exact step_nil hnone

end Sys2Proof.Proofs.Scope
end

section
/-! The regions of the register window (spec/10_state.md R33) and what a legal access of each one does
(spec/20_memory.md R76), said once. -/

namespace Sys2Proof.Proofs.Window
open Sys2Proof.Machine

theorem isBuffer_iff (offset : Nat) : isBuffer offset = true ↔ 0x20 ≤ offset ∧ offset < 0x60 := by
  unfold isBuffer
  rw [Bool.and_eq_true, decide_eq_true_iff, decide_eq_true_iff]

theorem isBuffer_eq_false {offset : Nat} (h : offset < 0x20 ∨ 0x60 ≤ offset) : isBuffer offset = false := by
  rw [Bool.eq_false_iff, Ne, isBuffer_iff]
  omega

/-- Above the registers every aligned access of the window is legal (R77). -/
theorem isBusError_aligned {offset : Nat} {w : Width} (hlo : 0x18 ≤ offset) (hhi : offset < 0x80)
    (hal : offset % w.bytes = 0) : isBusError offset w = false := by
  simp [isBusError, Config.windowSize, hal]
  omega

/-- R74: a register is accessed with 32 bits. -/
theorem isBusError_narrow {offset : Nat} {w : Width} (hreg : offset < 0x18) (hw : w ≠ .w32) :
    isBusError offset w = true := by
  simp [isBusError, hreg, hw]

variable (s : State) {offset : Nat} {w : Width}

/-- The next action runs with the rest pending. -/
theorem step_pending (a : Action) (rest : List Action) :
    step { s with pending := a :: rest } = runAction a { s with pending := rest } := rfl

/-! ## Reads -/

/-- From 0x18 up no register has a value: the reserved offsets read 0. -/
theorem readRegister_reserved (h : 0x18 ≤ offset) : readRegister offset s = 0 := by
  unfold readRegister
  split
  iterate 5 omega
  rfl

theorem hostRead_register (hbus : isBusError offset w = false) (h : offset < 0x20 ∨ 0x60 ≤ offset) :
    hostRead offset w s = { s with hostRead := readRegister offset s } := by
  simp [hostRead, readWindow, hbus, isBuffer_eq_false h]

theorem hostRead_buffer (hal : offset % w.bytes = 0) (hlo : 0x20 ≤ offset) (hhi : offset < 0x60) :
    hostRead offset w s = { s with hostRead := BitVec.ofNat 32 (loadLE s.mem offset w.bytes) } := by
  have hbuf : isBuffer offset = true := (isBuffer_iff offset).mpr ⟨hlo, hhi⟩
  have hbus : isBusError offset w = false := isBusError_aligned (by omega) (by omega) hal
  simp [hostRead, readWindow, hbus, hbuf]

/-- R76: four bytes, least significant first, as one sum. -/
theorem loadLE_four (m : List Host.Cell) (a : Nat) : loadLE m a 4 =
    (Memory.read m a).toNat + 2 ^ 8 * (Memory.read m (a + 1)).toNat + 2 ^ 16 * (Memory.read m (a + 2)).toNat +
      2 ^ 24 * (Memory.read m (a + 3)).toNat := by
  simp only [loadLE, Nat.add_assoc, Nat.reduceAdd]
  omega

/-! ## Writes -/

/-- From 0x18 up no register takes a value. -/
theorem writeRegister_reserved (v : Word) (h : 0x18 ≤ offset) : writeRegister offset v s = s := by
  unfold writeRegister
  split
  iterate 3 omega
  rfl

theorem hostWrite_register (v : Word) (hbus : isBusError offset w = false) (h0 : offset ≠ 0)
    (h : offset < 0x20 ∨ 0x60 ≤ offset) : hostWrite offset w v s = .next (writeRegister offset v s) := by
  simp [hostWrite, hbus, h0, isBuffer_eq_false h]

theorem hostWrite_buffer (v : Word) (hbus : isBusError offset w = false) (hlo : 0x20 ≤ offset)
    (hhi : offset < 0x60) :
    hostWrite offset w v s = .next (s.setMem (Memory.writeBytes s.mem offset (bytesLE v.toNat w.bytes))) := by
  have hbuf : isBuffer offset = true := (isBuffer_iff offset).mpr ⟨hlo, hhi⟩
  simp [hostWrite, hbus, hbuf, show offset ≠ 0 by omega]

/-- R76: byte i of the stored bytes is the value shifted down by i bytes. -/
theorem bytesLE_getD {n i v : Nat} (h : i < n) : (bytesLE v n).getD i 0 = BitVec.ofNat 8 (v >>> (8 * i)) := by
  induction n generalizing i v with
  | zero => omega
  | succ n ih =>
    cases i with
    | zero => rfl
    | succ i =>
      have hshift : v >>> (8 * (i + 1)) = (v / 256) >>> (8 * i) := by
        rw [Nat.mul_succ, Nat.add_comm, Nat.shiftRight_add, Nat.shiftRight_eq_div_pow v 8]
      rw [hshift]
      exact ih (by omega)

end Sys2Proof.Proofs.Window
end

section
/-! Proofs for the invariant of spec/10_state.md: R43's bounds and the canonical form of the buffers hold at reset and
every action keeps them. -/

namespace Sys2Proof.Proofs.Invariant
open Sys2Proof.Machine Sys2Proof.Proofs.Window

/-- Settles O12: nothing is listed and the cursor stands at 0 of an empty slice. -/
theorem resetMeetsInvariant : Obligations.ResetMeetsInvariant := by
  unfold Obligations.ResetMeetsInvariant
  exact ⟨Memory.wf_reset, by decide⟩

variable {s : State}

theorem inv_hostRead (offset : Nat) (w : Width) (h : s.Inv) : (hostRead offset w s).Inv := by
  unfold hostRead
  split <;> exact h

theorem inv_writeRegister (offset : Nat) (v : Word) (h : s.Inv) : (writeRegister offset v s).Inv := by
  unfold writeRegister
  split <;> exact h

theorem inv_issue (w : Word) (h : s.Inv) : ∃ t, issue w s = .next t ∧ t.Inv := by
  cases hw : decodeCommand w with
  | some i => rw [issue_some hw]; exact inv_exec i h
  | none => exact ⟨_, issue_none hw s, h⟩

/-- A legal access of the buffers ends inside them, so its bytes are stored there. -/
theorem inv_hostWrite (offset : Nat) (w : Width) (v : Word) (h : s.Inv) :
    ∃ t, hostWrite offset w v s = .next t ∧ t.Inv := by
  unfold hostWrite
  split
  · exact ⟨_, rfl, h⟩
  · rename_i hbus
    split
    · exact inv_issue v h
    · split
      · rename_i hbuf
        obtain ⟨-, -, -, hend⟩ := isBusError_false (Bool.eq_false_iff.mpr hbus)
        obtain ⟨hstart, -⟩ := (isBuffer_iff offset).mp hbuf
        exact ⟨_, rfl, inv_store h _ _ hstart (by rw [bytesLE_length]; exact hend hbuf)⟩
      · exact ⟨_, rfl, inv_writeRegister offset v h⟩

/-- The 64 draws are stored over the buffers of the reset state, which meets the invariant. -/
theorem inv_resetEvent (wbuf payload : Vector Byte 32) : (resetEvent wbuf payload s).Inv := by
  have hreset : State.reset.Inv := resetMeetsInvariant
  have hwbuf : (State.reset.storeWbuf wbuf.toList).Inv :=
    inv_store hreset 0x20 wbuf.toList (by omega) (by simp)
  exact inv_store hwbuf 0x40 payload.toList (by omega) (by simp)

theorem inv_fetchRow (t : WireType) (h : s.Inv) : ∃ u, fetchRow t s = .next u ∧ u.Inv := by
  unfold fetchRow
  rcases inv_runDec (decRow .dec t) h with ⟨i, u, e, -⟩ | ⟨x, u, e, hu⟩ <;> simp only [e]
  · exact inv_exec i h
  · exact ⟨_, rfl, hu⟩

theorem inv_fetchFrame (h : s.Inv) : ∃ u, fetchFrame s = .next u ∧ u.Inv := by
  unfold fetchFrame
  split
  · exact inv_exec _ h
  · exact ⟨_, rfl, h⟩

theorem inv_runAction (a : Action) (h : s.Inv) : ∃ t, runAction a s = .next t ∧ t.Inv := by
  cases a with
  | read offset w => exact ⟨_, rfl, inv_hostRead offset w h⟩
  | write offset w v => exact inv_hostWrite offset w v h
  | putMsg m => exact ⟨_, rfl, h⟩
  | takeMsg => exact ⟨_, rfl, h⟩
  | reset wbuf payload => exact ⟨_, rfl, inv_resetEvent wbuf payload⟩
  | encodeStep v => exact inv_exec _ h
  | decodeStep t => exact inv_fetchRow t h
  | encodeFrame f => exact inv_exec _ h
  | decodeFrame => exact inv_fetchFrame h

/-- Settles O13, by the kind of action: each runs an instruction (`inv_exec`), stores bytes inside the buffers, or leaves
the buffers and the cursor alone. -/
theorem stepKeepsInvariant : Obligations.StepKeepsInvariant := by
  unfold Obligations.StepKeepsInvariant
  intro s h
  cases hp : s.pending with
  | nil => exact ⟨s, step_nil hp, h⟩
  | cons a rest => rw [step_cons hp]; exact inv_runAction a h

end Sys2Proof.Proofs.Invariant
end

section
/-! Proofs for the host's accesses of the register window (spec/10_state.md R33, R34, R36, spec/20_memory.md R76). -/

namespace Sys2Proof.Proofs.HostAccess
open Sys2Proof.Machine Sys2Proof.Proofs.Window

/-- Settles O6: a 32-bit write of CMD is `issue`, and a narrower one is a bus error before anything runs. -/
theorem stepRunsIssuedCommand : Obligations.StepRunsIssuedCommand := by
  unfold Obligations.StepRunsIssuedCommand
  refine ⟨?_, ?_, ?_⟩
  · intro w i s rest hw
    calc step { s with pending := .write 0 .w32 w :: rest }
      _ = hostWrite 0 .w32 w { s with pending := rest } := step_pending s _ rest
      _ = issue w { s with pending := rest } := hostWrite_cmd w _
      _ = exec i { s with pending := rest } := issue_some hw _
  · intro s rest
    exact congrArg Host.Outcome.next (hostRead_register (offset := 0) { s with pending := rest } (by decide) (by omega))
  · intro w s rest k hk
    rw [step_pending]
    simp [runAction, hostWrite, isBusError_narrow (offset := 0) (by omega) hk]

/-- Settles O57: the registers and the reserved offsets by `hostRead_register`, the buffers by `hostRead_buffer`, whose
little-endian sum is written out. -/
theorem hostReads : Obligations.HostReads := by
  unfold Obligations.HostReads
  intro s rest
  constructor
  · intro offset k v hbus hv
    have hregion : offset < 0x20 ∨ 0x60 ≤ offset := by omega
    have hvalue : readRegister offset { s with pending := rest } = v := by
      rcases hv with ⟨rfl, rfl⟩ | ⟨rfl, rfl⟩ | ⟨rfl, rfl⟩ | ⟨rfl, rfl⟩ | ⟨rfl, rfl⟩ | ⟨rfl, rfl⟩ | ⟨h, -, rfl⟩ |
        ⟨h, -, rfl⟩
      iterate 6 rfl
      · exact readRegister_reserved _ h
      · exact readRegister_reserved _ (by omega)
    rw [step_pending, runAction, hostRead_register _ hbus hregion, hvalue]
  · intro offset hlo hhi
    refine ⟨?_, fun hal => ?_, fun hal => ?_⟩
    · rw [step_pending, runAction, hostRead_buffer _ (w := .w8) (Nat.mod_one _) hlo hhi]
      simp [Width.bytes, loadLE]
    · rw [step_pending, runAction, hostRead_buffer _ (w := .w16) hal hlo hhi]
      simp [Width.bytes, loadLE]
    · rw [step_pending, runAction, hostRead_buffer _ (w := .w32) hal hlo hhi]
      simp only [Width.bytes, loadLE_four, State.byte]

/-- Settles O58: the registers one by one, the reserved offsets by `writeRegister_reserved`, the buffers by the bytes a
store leaves (`storedAt_writeBytes`). -/
theorem hostWrites : Obligations.HostWrites := by
  unfold Obligations.HostWrites
  intro s rest v hmem
  have hreg : ∀ offset, isBusError offset .w32 = false → offset ≠ 0 → offset < 0x20 →
      step { s with pending := .write offset .w32 v :: rest } =
        .next (writeRegister offset v { s with pending := rest }) :=
    fun offset hbus h0 hlt => hostWrite_register _ v hbus h0 (.inl hlt)
  refine ⟨hreg 0x04 (by decide) (by omega) (by omega), hreg 0x08 (by decide) (by omega) (by omega),
    hreg 0x0C (by decide) (by omega) (by omega), hreg 0x10 (by decide) (by omega) (by omega),
    hreg 0x14 (by decide) (by omega) (by omega), ?_, ?_⟩
  · intro offset k hbus hres
    rw [step_pending, runAction, hostWrite_register _ v hbus (by omega) (by omega),
      writeRegister_reserved _ v (by omega)]
  · intro offset k hbus hlo hhi
    obtain ⟨-, -, -, hend⟩ := isBusError_false hbus
    have hfit : offset + (bytesLE v.toNat k.bytes).length ≤ 0x60 := by
      rw [bytesLE_length]; exact hend ((isBuffer_iff offset).mpr ⟨hlo, hhi⟩)
    obtain ⟨hwf, hread⟩ := storedAt_writeBytes hmem hlo hfit
    refine ⟨_, hwf, hostWrite_buffer _ v hbus hlo hhi, fun a => ?_⟩
    rw [hread, bytesLE_length]
    split
    · rename_i ha
      exact bytesLE_getD (by omega)
    · rfl

/-! ## STATUS -/

theorem errField_lt (e : Option Error) : errField e < 16 := by
  cases e with
  | none => decide
  | some e => cases e <;> decide

theorem modeField_lt (m : Mode) : modeField m < 3 := by cases m <;> decide

/-- R36: STATUS as a number, each field in units of its lowest bit. -/
theorem status_toNat (s : State) : s.status.toNat =
    errField s.err % 2 ^ 8 + s.cv.toNat * 2 ^ 8 + modeField s.mode % 2 ^ 2 * 2 ^ 9 + s.bytePos % 2 ^ 6 * 2 ^ 12 +
      s.bitPos % 2 ^ 3 * 2 ^ 18 + s.limit % 2 ^ 6 * 2 ^ 21 + s.msgOut.isSome.toNat * 2 ^ 27 +
      s.msgIn.isSome.toNat * 2 ^ 28 := by
  have hz : ∀ k, (BitVec.toNat (0 : BitVec k)) = 0 := fun k => by simp
  simp only [State.status, BitVec_append_toNat, BitVec.toNat_ofBool, BitVec.toNat_ofNat]
  rw [hz, hz]
  omega

/-- A bit of a word, from the word as a number. -/
theorem getLsbD_eq_of_div_mod {w : Word} {k : Nat} {b : Bool} (h : w.toNat / 2 ^ k % 2 = b.toNat) :
    w.getLsbD k = b := by
  rw [BitVec.getLsbD, Nat.testBit_eq_decide_div_mod_eq, h]
  cases b <;> rfl

/-- Settles O56: every field is below the weight of the next one, so each is read back from its own bits of
`status_toNat`. -/
theorem statusLayout : Obligations.StatusLayout := by
  unfold Obligations.StatusLayout
  refine ⟨by decide, ?_⟩
  rintro s ⟨-, hbit, hlim, hcur⟩
  have h := status_toNat s
  have herr := errField_lt s.err
  have hmode := modeField_lt s.mode
  have hbyte : s.bytePos ≤ 32 := by simp only [State.cursor] at hcur; omega
  have hcv := s.cv.toNat_le
  have hout := s.msgOut.isSome.toNat_le
  have hin := s.msgIn.isSome.toNat_le
  have hfield : ∀ lo n, (s.status.extractLsb' lo n).toNat = s.status.toNat / 2 ^ lo % 2 ^ n := fun lo n => by
    rw [BitVec.extractLsb'_toNat, Nat.shiftRight_eq_div_pow]
  have hmodeBits : (s.status.extractLsb' 9 2).toNat = modeField s.mode := by rw [hfield, h]; omega
  refine ⟨?_, ?_, ?_, ?_, ?_, ?_, ?_, ?_, ?_, ?_⟩
  · rw [hfield, h]; omega
  · exact getLsbD_eq_of_div_mod (by rw [h]; omega)
  · rw [hmodeBits]; cases s.mode <;> rfl
  · exact getLsbD_eq_of_div_mod (by rw [h, Bool.toNat_false]; omega)
  · rw [hfield, h]; omega
  · rw [hfield, h]; omega
  · rw [hfield, h]; omega
  · exact getLsbD_eq_of_div_mod (by rw [h]; omega)
  · exact getLsbD_eq_of_div_mod (by rw [h]; omega)
  · apply BitVec.eq_of_toNat_eq
    rw [hfield, h]
    show _ = 0
    omega

end Sys2Proof.Proofs.HostAccess
end

section
/-! Proofs for what commands leave alone and for the two ports (spec/10_state.md R35, R40, R42), from
`command_leaves`. -/

namespace Sys2Proof.Proofs.KeptByCommands
open Sys2Proof.Machine Sys2Proof.Proofs.Window

/-- Settles O48: the fields named are outside the ones a command may write (`CommandLeaves.rest`). -/
theorem commandFrame : Obligations.CommandFrame := by
  unfold Obligations.CommandFrame
  intro i s hi
  obtain ⟨t, ht⟩ := exec_total i s
  have hrest := (command_leaves hi ht).rest
  refine ⟨t, ht, ?_⟩
  rw [hrest]
  exact ⟨rfl, rfl, rfl, rfl, rfl, rfl⟩

/-- Settles O53: the port actions, CLEAR_STATUS and reset by what they are, every other command by
`CommandLeaves.msgIn` and `CommandLeaves.msgOut`. -/
theorem ports : Obligations.Ports := by
  unfold Obligations.Ports
  refine ⟨fun m s rest => step_pending s (.putMsg m) rest, fun s rest => step_pending s .takeMsg rest, ?_, ?_, ?_⟩
  · intro i s t hi hc h
    have hl := command_leaves hi h
    obtain ⟨hkept, hdec⟩ := hl.msgOut hc
    refine ⟨by rw [hl.msgIn, if_neg hc], hkept, fun hd => ?_⟩
    obtain ⟨hok, herr⟩ := hdec hd
    refine ⟨fun h0 => ?_, herr⟩
    obtain ⟨m, hm, -⟩ := hok h0
    rw [hm]
    rfl
  · intro s t h
    cases h
    exact ⟨rfl, rfl⟩
  · intro wbuf payload s t rest h
    rw [step_pending] at h
    cases h
    exact ⟨rfl, rfl⟩

end Sys2Proof.Proofs.KeptByCommands
end

section
/-! Which instructions the actions run: a CMD write runs a command, the codec's own steps run rows (spec/00_scope.md R2,
spec/10_state.md R34). -/

namespace Sys2Proof.Proofs.Rows
open Sys2Proof.Machine

theorem wireValue_row (c : Codec) (v : WireValue) : isCommand (v.row c) = false := by
  cases v with
  | optionSensor x => cases x <;> rfl
  | optionLimb x => cases x <;> rfl
  | limb _ | nodeInfo _ => rfl
  | board x | sensor x | actuator x | limbType x | command x | response x | messageData x | message x =>
    cases x <;> rfl

theorem frame_row (c : Codec) (f : Frame) : isCommand (f.row c) = false := by
  obtain ⟨pipe, address, data⟩ := f
  cases address <;> rfl

/-- What a decoder of rows answers is no command. -/
def YieldsRows (d : Dec Instr) : Prop := ∀ bs i rest, d bs = .ok i rest → isCommand i = false

theorem yieldsRows_map {α : Type} {d : Dec α} {f : α → Instr} (hf : ∀ v, isCommand (f v) = false) :
    YieldsRows (Dec.map d f) := by
  intro bs i rest h
  obtain ⟨v, -, rfl⟩ := Dec.map_eq_ok.mp h
  exact hf v

theorem yieldsRows_andThen {α : Type} {d : Dec α} {f : α → Dec Instr} (hf : ∀ v, YieldsRows (f v)) :
    YieldsRows (Dec.andThen d f) := by
  intro bs i rest h
  obtain ⟨v, mid, -, h'⟩ := Dec.andThen_eq_ok.mp h
  exact hf v mid i rest h'

theorem yieldsRows_rowOrReserved {c : Codec} {width : Nat} {reserved : Nat → Bool} {bad : Nat → Instr} {e : Error}
    {d : Dec Instr} (hbad : ∀ k, isCommand (bad k) = false) (hd : YieldsRows d) :
    YieldsRows (rowOrReserved c width reserved bad e d) := by
  intro bs i rest h
  unfold rowOrReserved at h
  cases hr : readBits width bs with
  | err e' mid => simp [hr] at h
  | ok k mid =>
    simp only [hr] at h
    split at h
    · cases c with
      | dec => cases h; exact hbad k
      | enc => cases h
    · exact hd bs i rest h

theorem yieldsRows_decRow (c : Codec) (t : WireType) : YieldsRows (decRow c t) := by
  have value {α : Type} {d : Dec α} {f : α → WireValue} : YieldsRows (Dec.map d fun v => (f v).row c) :=
    yieldsRows_map fun v => wireValue_row c (f v)
  cases t with
  | board => exact value (f := .board)
  | limbType => exact value (f := .limbType)
  | limb => exact value (f := .limb)
  | nodeInfo => exact value (f := .nodeInfo)
  | messageData => exact value (f := .messageData)
  | option t =>
    cases t with
    | sensor => exact value (f := .optionSensor)
    | limb => exact value (f := .optionLimb)
  | sensor => exact yieldsRows_rowOrReserved (fun _ => rfl) (value (f := .sensor))
  | actuator => exact yieldsRows_rowOrReserved (fun _ => rfl) (value (f := .actuator))
  | command => exact yieldsRows_rowOrReserved (fun _ => rfl) (value (f := .command))
  | response => exact yieldsRows_rowOrReserved (fun _ => rfl) (value (f := .response))
  | message =>
    exact yieldsRows_rowOrReserved (fun _ => rfl) (yieldsRows_andThen fun _ =>
      yieldsRows_rowOrReserved (fun _ => rfl) (value (f := .message)))

end Sys2Proof.Proofs.Rows
end

section
/-! MODE and CV over every instruction and every action (spec/10_state.md R37, R39): which events move MODE, from and to
where, and which may set or lower CV. -/

namespace Sys2Proof.Proofs.ModeAndCv
open Sys2Proof.Machine Sys2Proof.Proofs.Window Sys2Proof.Proofs.Rows

/-! ## The pre-checks: what holds after each error and after the body holds after the whole -/

section
variable {P : State → Prop} {s : State}

theorem needMode_elim {m : Mode} {k : State → State} (hraise : P (s.raise .illegalSequence))
    (hk : s.mode = m → P (k s)) : P (needMode m k s) := by
  rcases needMode_cases m k s with ⟨hm, e⟩ | ⟨-, e⟩ <;> rw [e]
  · exact hk hm
  · exact hraise

theorem needMsgIn_elim {k : Message → State → State} (hraise : P (s.raise .illegalSequence))
    (hk : ∀ m, P (k m s)) : P (needMsgIn k s) := by
  rcases needMsgIn_cases k s with ⟨m, -, e⟩ | ⟨-, e⟩ <;> rw [e]
  · exact hk m
  · exact hraise

theorem needAtMost_elim {n max : Nat} {x : Error} {k : State → State} (hraise : P (s.raise x)) (hk : P (k s)) :
    P (needAtMost n max x k s) := by
  rcases needAtMost_cases n max x k s with ⟨-, e⟩ | ⟨-, e⟩ <;> rw [e]
  · exact hk
  · exact hraise

theorem needValid_elim {k : State → State} (hraise : P (s.raise .invalidLength)) (hk : P (k s)) :
    P (needValid k s) := by
  rcases needValid_cases k s with ⟨-, e⟩ | ⟨-, e⟩ <;> rw [e]
  · exact hk
  · exact hraise

end

/-! ## One instruction -/

/-- The commands that move MODE, each with the mode it is in before and after (R39). -/
inductive ModeChange : Instr → Mode → Mode → Prop where
  | bwBegin (n : BitVec 6) : ModeChange (.bwBegin n) .idle .write
  | bwFinalize : ModeChange .bwFinalize .write .idle
  | brBegin (n : BitVec 6) : ModeChange (.brBegin n) .idle .read
  | brEnd : ModeChange .brEnd .read .idle
  | clearStatus (m : Mode) : ModeChange .clearStatus m .idle

theorem ModeChange.isCommand {i : Instr} {m m' : Mode} (h : ModeChange i m m') : isCommand i = true := by
  cases h <;> rfl

/-- The commands that write fields, and so may set CV (R37). -/
def writesFields : Instr → Bool
  | .bwWrite _ | .msgEncode _ | .frameMsg _ _ => true
  | _ => false

/-- MODE is as before, and CV does not fall: what writing and reading fields keeps. -/
structure KeepsModeAndCv (s t : State) : Prop where
  mode : t.mode = s.mode
  cv : s.cv = true → t.cv = true

theorem keeps_wrote {s t : State} (h : Wrote s t) : KeepsModeAndCv s t where
  mode := by rw [h.1]
  cv := h.2

theorem keeps_wireRow (c : Codec) (fs : List Field) (s : State) : KeepsModeAndCv s (wireRow c fs s) := by
  unfold wireRow
  cases c with
  | enc =>
    rcases writeFields_cases fs s with ⟨t, e, hw⟩ | ⟨t, e, hw⟩ <;> simp only [e]
    · exact keeps_wrote hw
    · exact ⟨(keeps_wrote hw).mode, hw.2⟩
  | dec =>
    rcases runDec_frame (readFields fs) s with ⟨v, p, e⟩ | ⟨x, p, e⟩ <;> simp only [e] <;> exact ⟨rfl, id⟩

theorem keeps_reservedRow (fs : List Field) (x : Error) (s : State) : KeepsModeAndCv s (reservedRow fs x s) := by
  unfold reservedRow
  rcases runDec_frame (readFields fs) s with ⟨v, p, e⟩ | ⟨x', p, e⟩ <;> simp only [e] <;> exact ⟨rfl, id⟩

theorem keeps_frameRow (c : Codec) (p : Byte) (a : Option Half) (d : List Byte) (s : State) :
    KeepsModeAndCv s (frameRow c p a d s) := by
  unfold frameRow
  cases c <;> dsimp only <;> split <;> exact ⟨rfl, id⟩

/-- What an instruction does to MODE and CV. -/
structure ModeCvLeaves (i : Instr) (s t : State) : Prop where
  mode : t.mode = s.mode ∨ ModeChange i s.mode t.mode
  cvRises : i ≠ .clearStatus → s.cv = true → t.cv = true
  cvKept : isCommand i = true → writesFields i = false → i ≠ .clearStatus → t.cv = s.cv

section
variable {i : Instr} {s t : State}

theorem leaves_same (hm : t.mode = s.mode) (hc : t.cv = s.cv) : ModeCvLeaves i s t :=
  ⟨.inl hm, fun _ h => hc.trans h, fun _ _ _ => hc⟩

theorem leaves_mode (hm : ModeChange i s.mode t.mode) (hc : t.cv = s.cv) : ModeCvLeaves i s t :=
  ⟨.inr hm, fun _ h => hc.trans h, fun _ _ _ => hc⟩

theorem leaves_fields (hi : writesFields i = true) (h : KeepsModeAndCv s t) : ModeCvLeaves i s t :=
  ⟨.inl h.mode, fun _ => h.cv, fun _ hn => by rw [hi] at hn; cases hn⟩

theorem leaves_row (hi : isCommand i = false) (h : KeepsModeAndCv s t) : ModeCvLeaves i s t :=
  ⟨.inl h.mode, fun _ => h.cv, fun hn => by rw [hi] at hn; cases hn⟩

end

theorem leaves_decode {i : Instr} {s s' : State} (n : Nat) (hm : s'.mode = s.mode) (hc : s'.cv = s.cv) :
    ModeCvLeaves i s (decodeFrom n s') := by
  rcases decodeFrom_cases n s' with ⟨m, k, -, -, e⟩ | ⟨x, k, -, -, e⟩ <;> rw [e] <;> exact leaves_same hm hc

theorem leaves_begin {i : Instr} {s : State} {m : Mode} (n : Nat) (hi : ModeChange i .idle m) :
    ModeCvLeaves i s (beginSession m n s) :=
  needMode_elim (P := ModeCvLeaves i s) (leaves_same rfl rfl) fun hm =>
    needAtMost_elim (P := ModeCvLeaves i s) (leaves_same rfl rfl) (leaves_mode (hm ▸ hi) rfl)

theorem leaves_end {i : Instr} {s : State} {m : Mode} (hi : ModeChange i m .idle) :
    ModeCvLeaves i s (endSession m s) :=
  needMode_elim (P := ModeCvLeaves i s) (leaves_same rfl rfl) fun hm => leaves_mode (hm ▸ hi) rfl

/-- Every instruction, in every state. -/
theorem exec_modeAndCv {i : Instr} {s t : State} (h : exec i s = .next t) : ModeCvLeaves i s t := by
  cases i with
  | nop | plPipe | plLen | plAddress | plHeaderLength | plLenIsValid | pipeForAddr =>
    cases h; exact leaves_same rfl rfl
  | clearStatus => cases h; exact ⟨.inr (.clearStatus _), fun hn => absurd rfl hn, fun _ _ hn => absurd rfl hn⟩
  | bwBegin n => cases h; exact leaves_begin _ (.bwBegin n)
  | brBegin n => cases h; exact leaves_begin _ (.brBegin n)
  | bwFinalize => cases h; exact leaves_end .bwFinalize
  | brEnd => cases h; exact leaves_end .brEnd
  | bwWrite n =>
    cases h
    refine needMode_elim (P := ModeCvLeaves _ s) (leaves_same rfl rfl) fun _ =>
      needAtMost_elim (P := ModeCvLeaves _ s) (leaves_same rfl rfl) ?_
    rcases bitWrite_cases s.arg0.toNat n.toNat s with ⟨t, e, hw⟩ | e <;> simp only [e]
    · exact leaves_fields rfl ⟨(keeps_wrote hw).mode, hw.2⟩
    · exact leaves_same rfl rfl
  | brRead n =>
    cases h
    refine needMode_elim (P := ModeCvLeaves _ s) (leaves_same rfl rfl) fun _ =>
      needAtMost_elim (P := ModeCvLeaves _ s) (leaves_same rfl rfl) ?_
    rcases bitRead_cases n.toNat s with ⟨v, p, e⟩ | ⟨p, e⟩ <;> simp only [e] <;> exact leaves_same rfl rfl
  | msgEncode n =>
    cases h
    refine needMode_elim (P := ModeCvLeaves _ s) (leaves_same rfl rfl) fun _ =>
      needMsgIn_elim (P := ModeCvLeaves _ s) (leaves_same rfl rfl) fun m =>
        needAtMost_elim (P := ModeCvLeaves _ s) (leaves_same rfl rfl) ?_
    rcases encodeInto_cases n.toNat m s with ⟨t, e, hw⟩ | ⟨t, e, hw⟩ <;> simp only [e] <;>
      exact leaves_fields rfl ⟨(keeps_wrote hw).mode, hw.2⟩
  | frameMsg a pipe =>
    cases h
    refine needMode_elim (P := ModeCvLeaves _ s) (leaves_same rfl rfl) fun _ =>
      needMsgIn_elim (P := ModeCvLeaves _ s) (leaves_same rfl rfl) fun m => ?_
    dsimp only
    rcases encodeInto_cases (Config.payloadSize - headerLength (if a then some s.argAddress else none)) m s with
      ⟨t, e, hw⟩ | ⟨t, e, hw⟩ <;> rw [e] <;> exact leaves_fields rfl ⟨(keeps_wrote hw).mode, hw.2⟩
  | msgDecode n =>
    cases h
    exact needMode_elim (P := ModeCvLeaves _ s) (leaves_same rfl rfl) fun _ =>
      needAtMost_elim (P := ModeCvLeaves _ s) (leaves_same rfl rfl) (leaves_decode _ rfl rfl)
  | unframeMsg =>
    cases h
    exact needMode_elim (P := ModeCvLeaves _ s) (leaves_same rfl rfl) fun _ =>
      needValid_elim (P := ModeCvLeaves _ s) (leaves_same rfl rfl) (leaves_decode _ rfl rfl)
  | plNew n pipe =>
    cases h
    exact needAtMost_elim (P := ModeCvLeaves _ s) (leaves_same rfl rfl) (leaves_same rfl rfl)
  | plNewWithAddr n pipe =>
    cases h
    exact needAtMost_elim (P := ModeCvLeaves _ s) (leaves_same rfl rfl) (leaves_same rfl rfl)
  | plAddrFilter n a =>
    cases h
    exact needAtMost_elim (P := ModeCvLeaves _ s) (leaves_same rfl rfl) (leaves_same rfl rfl)
  | plData =>
    cases h
    exact needMode_elim (P := ModeCvLeaves _ s) (leaves_same rfl rfl) fun _ =>
      needValid_elim (P := ModeCvLeaves _ s) (leaves_same rfl rfl) (leaves_same rfl rfl)
  | plPacket =>
    cases h
    exact needValid_elim (P := ModeCvLeaves _ s) (leaves_same rfl rfl) (leaves_same rfl rfl)
  | messageReserved _ | commandReserved _ | responseReserved _ | sensorReserved _ | actuatorReserved _ =>
    cases h; exact leaves_row rfl (keeps_reservedRow _ _ s)
  | frameWithAddress _ _ _ _ | frameWithoutAddress _ _ _ => cases h; exact leaves_row rfl (keeps_frameRow _ _ _ _ s)
  | optionSome c x => cases h; exact leaves_row (by cases x <;> rfl) (keeps_wireRow _ _ s)
  | _ => cases h; exact leaves_row rfl (keeps_wireRow _ _ s)

theorem exec_row_keeps {i : Instr} {s t : State} (hi : isCommand i = false) (h : exec i s = .next t) :
    KeepsModeAndCv s t := by
  have hne : i ≠ .clearStatus := by rintro rfl; cases hi
  obtain ⟨hmode, hcv, -⟩ := exec_modeAndCv h
  refine ⟨?_, hcv hne⟩
  rcases hmode with hm | hm
  · exact hm
  · rw [hm.isCommand] at hi
    cases hi

/-! ## One action -/

/-- What an action does to MODE and CV: a reset and a command written to CMD apart, it keeps them. -/
def ActionLeaves (a : Action) (s t : State) : Prop :=
  (∃ wbuf payload, a = .reset wbuf payload ∧ t.mode = .idle) ∨
    (∃ w i, a = .write 0 .w32 w ∧ decodeCommand w = some i ∧ ModeCvLeaves i s t) ∨ KeepsModeAndCv s t

theorem hostRead_keeps (offset : Nat) (w : Width) (s : State) : KeepsModeAndCv s (hostRead offset w s) := by
  unfold hostRead
  split <;> exact ⟨rfl, id⟩

theorem writeRegister_keeps (offset : Nat) (v : Word) (s : State) : KeepsModeAndCv s (writeRegister offset v s) := by
  unfold writeRegister
  split <;> exact ⟨rfl, id⟩

theorem hostWrite_leaves {offset : Nat} {w : Width} {v : Word} {s t : State} (h : hostWrite offset w v s = .next t) :
    ActionLeaves (.write offset w v) s t := by
  cases hbus : isBusError offset w with
  | true =>
    simp only [hostWrite, hbus, if_true] at h
    cases h
    exact .inr (.inr ⟨rfl, id⟩)
  | false =>
    obtain ⟨-, hreg, -, -⟩ := isBusError_false hbus
    by_cases h0 : offset = 0
    · subst h0
      obtain rfl := hreg (by omega)
      rw [hostWrite_cmd] at h
      cases hd : decodeCommand v with
      | some i =>
        rw [issue_some hd] at h
        exact .inr (.inl ⟨v, i, rfl, hd, exec_modeAndCv h⟩)
      | none =>
        rw [issue_none hd] at h
        cases h
        exact .inr (.inr ⟨rfl, id⟩)
    · by_cases hregion : offset < 0x20 ∨ 0x60 ≤ offset
      · rw [hostWrite_register s v hbus h0 hregion] at h
        cases h
        exact .inr (.inr (writeRegister_keeps offset v s))
      · rw [hostWrite_buffer s v hbus (by omega) (by omega)] at h
        cases h
        exact .inr (.inr ⟨rfl, id⟩)

theorem fetchRow_keeps {ty : WireType} {s t : State} (h : fetchRow ty s = .next t) : KeepsModeAndCv s t := by
  unfold fetchRow at h
  cases hd : decRow .dec ty s.unread with
  | ok i rest =>
    rw [runDec_ok hd] at h
    exact exec_row_keeps (yieldsRows_decRow .dec ty _ i rest hd) h
  | err e rest =>
    rw [runDec_err hd] at h
    cases h
    exact ⟨rfl, id⟩

theorem fetchFrame_keeps {s t : State} (h : fetchFrame s = .next t) : KeepsModeAndCv s t := by
  unfold fetchFrame at h
  split at h
  · exact exec_row_keeps (frame_row _ _) h
  · cases h
    exact ⟨rfl, id⟩

theorem runAction_leaves {a : Action} {s t : State} (h : runAction a s = .next t) : ActionLeaves a s t := by
  cases a with
  | read offset w => cases h; exact .inr (.inr (hostRead_keeps offset w s))
  | write offset w v => exact hostWrite_leaves h
  | putMsg m => cases h; exact .inr (.inr ⟨rfl, id⟩)
  | takeMsg => cases h; exact .inr (.inr ⟨rfl, id⟩)
  | reset wbuf payload => cases h; exact .inl ⟨wbuf, payload, rfl, rfl⟩
  | encodeStep v => exact .inr (.inr (exec_row_keeps (wireValue_row _ v) h))
  | decodeStep ty => exact .inr (.inr (fetchRow_keeps h))
  | encodeFrame f => exact .inr (.inr (exec_row_keeps (frame_row _ f) h))
  | decodeFrame => exact .inr (.inr (fetchFrame_keeps h))

/-- One step: nothing pending, or the first pending action. -/
theorem step_leaves {s t : State} (h : step s = .next t) :
    KeepsModeAndCv s t ∨ ∃ a rest, s.pending = a :: rest ∧ ActionLeaves a { s with pending := rest } t := by
  cases hp : s.pending with
  | nil =>
    rw [step_nil hp] at h
    cases h
    exact .inl ⟨rfl, id⟩
  | cons a rest =>
    rw [step_cons hp] at h
    exact .inr ⟨a, rest, rfl, runAction_leaves h⟩

/-! ## The statements -/

/-- Settles O49: over a step by `step_leaves`, over a command by `ModeCvLeaves.cvKept`. -/
theorem cvSticky : Obligations.CvSticky := by
  unfold Obligations.CvSticky
  constructor
  · intro s t h hs ht
    have absurd_of_rise (hr : s.cv = true → t.cv = true) : False := by rw [hr hs] at ht; cases ht
    rcases step_leaves h with hk | ⟨a, rest, hp, ⟨wbuf, payload, rfl, -⟩ | ⟨w, i, rfl, hd, hl⟩ | hk⟩
    · exact (absurd_of_rise hk.cv).elim
    · exact .inl ⟨wbuf, payload, rest, hp⟩
    · by_cases hi : i = .clearStatus
      · subst hi
        exact .inr ⟨w, rest, hp, hd⟩
      · exact (absurd_of_rise (hl.cvRises hi)).elim
    · exact (absurd_of_rise hk.cv).elim
  · intro i s t hi h hne
    by_cases hc : i = .clearStatus
    · exact .inr (.inr (.inr hc))
    · cases hw : writesFields i with
      | false => exact absurd ((exec_modeAndCv h).cvKept hi hw hc) hne
      | true =>
        cases i with
        | bwWrite n => exact .inl ⟨n, rfl⟩
        | msgEncode n => exact .inr (.inl ⟨n, rfl⟩)
        | frameMsg a pipe => exact .inr (.inr (.inl ⟨a, pipe, rfl⟩))
        | _ => cases hw

/-- A composite command that needs MODE = IDLE raises IllegalSequence in any other mode, before it looks at anything else
(R39, R385). -/
theorem exec_composite_not_idle {i : Instr} {s t : State} (h : exec i s = .next t) (hm : s.mode ≠ .idle)
    (hi : (∃ n, i = .msgEncode n) ∨ (∃ n, i = .msgDecode n) ∨ (∃ a pipe, i = .frameMsg a pipe) ∨ i = .unframeMsg) :
    t.err = some .illegalSequence := by
  have hm' : (s.setMsgOut none).mode ≠ .idle := hm
  rcases hi with ⟨n, rfl⟩ | ⟨n, rfl⟩ | ⟨a, pipe, rfl⟩ | rfl <;> cases h
  · rw [needMode_ne hm]
  · rw [needMode_ne hm']
  · rw [needMode_ne hm]
  · rw [needMode_ne hm']

/-- Settles O50: over a step by `step_leaves` and the cases of `ModeChange`, none of which is a composite command. -/
theorem modeChangers : Obligations.ModeChangers := by
  unfold Obligations.ModeChangers
  refine ⟨?_, ?_, fun m => by cases m <;> decide⟩
  · intro s t h hne
    rcases step_leaves h with hk | ⟨a, rest, hp, ⟨wbuf, payload, rfl, hidle⟩ | ⟨w, i, rfl, hd, hl⟩ | hk⟩
    · exact absurd hk.mode hne
    · exact .inl ⟨⟨wbuf, payload, rest, hp⟩, hidle⟩
    · refine .inr ⟨w, rest, hp, ?_⟩
      rcases hl.mode with hm | hm
      · exact absurd hm hne
      · replace hm : ModeChange i s.mode t.mode := hm
        generalize s.mode = m, t.mode = m' at hm ⊢
        cases hm with
        | bwBegin n => exact .inl ⟨⟨n, hd⟩, rfl, rfl⟩
        | bwFinalize => exact .inr (.inl ⟨hd, rfl, rfl⟩)
        | brBegin n => exact .inr (.inr (.inl ⟨⟨n, hd⟩, rfl, rfl⟩))
        | brEnd => exact .inr (.inr (.inr (.inl ⟨hd, rfl, rfl⟩)))
        | clearStatus => exact .inr (.inr (.inr (.inr ⟨hd, rfl⟩)))
    · exact absurd hk.mode hne
  · intro i s t hi h
    refine ⟨?_, fun hm => exec_composite_not_idle h hm hi⟩
    rcases (exec_modeAndCv h).mode with hm | hm
    · exact hm
    · rcases hi with ⟨n, rfl⟩ | ⟨n, rfl⟩ | ⟨a, pipe, rfl⟩ | rfl <;> cases hm

end Sys2Proof.Proofs.ModeAndCv
end

section
/-! RESULT, ERR and CV are no condition codes (spec/10_state.md R38, R41, R45): a command run on two states that differ in
nothing else ends in two states that differ in CV at most. -/

namespace Sys2Proof.Proofs.ConditionCodes
open Sys2Proof.Machine

/-- s' is s with other values of RESULT, ERR and CV; where k holds, CV is the same. -/
def SameButCodes (k : Prop) (s s' : State) : Prop :=
  ∃ r e c, s' = { s with result := r, err := e, cv := c } ∧ (k → c = s.cv)

/-- t' is t with another value of CV; where k holds, the same. -/
def SameButCv (k : Prop) (t t' : State) : Prop := ∃ c, t' = { t with cv := c } ∧ (k → c = t.cv)

/-- Two attempts that end alike, in states that are the same but for the codes. -/
def SameAttempt (k : Prop) (a a' : Attempt) : Prop :=
  (∃ t t', a = .ok t ∧ a' = .ok t' ∧ SameButCodes k t t') ∨
    ∃ x t t', a = .err x t ∧ a' = .err x t' ∧ SameButCodes k t t'

section
variable {k : Prop} {s s' : State}

/-! ## How a command ends -/

theorem same_raise (x : Error) (h : SameButCodes k s s') : SameButCv k (s.raise x) (s'.raise x) := by
  obtain ⟨_, _, c, rfl, hc⟩ := h
  exact ⟨c, rfl, hc⟩

/-! ## The pre-checks -/

theorem same_needMode {m : Mode} {f : State → State} (h : SameButCodes k s s') (hf : SameButCv k (f s) (f s')) :
    SameButCv k (needMode m f s) (needMode m f s') := by
  have hmode : s'.mode = s.mode := by obtain ⟨_, _, _, rfl, -⟩ := h; rfl
  by_cases hm : s.mode = m
  · rw [needMode_eq hm, needMode_eq (hmode.trans hm)]
    exact hf
  · rw [needMode_ne hm, needMode_ne (hmode ▸ hm)]
    exact same_raise _ h

theorem same_needMsgIn {f : Message → State → State} (h : SameButCodes k s s')
    (hf : ∀ m, SameButCv k (f m s) (f m s')) : SameButCv k (needMsgIn f s) (needMsgIn f s') := by
  have hin : s'.msgIn = s.msgIn := by obtain ⟨_, _, _, rfl, -⟩ := h; rfl
  cases hm : s.msgIn with
  | some m =>
    rw [needMsgIn_some hm, needMsgIn_some (hin.trans hm)]
    exact hf m
  | none =>
    rw [needMsgIn_none hm, needMsgIn_none (hin.trans hm)]
    exact same_raise _ h

theorem same_needAtMost {n max : Nat} {x : Error} {f : State → State} (h : SameButCodes k s s')
    (hf : SameButCv k (f s) (f s')) : SameButCv k (needAtMost n max x f s) (needAtMost n max x f s') := by
  by_cases hn : n ≤ max
  · rw [needAtMost_le hn, needAtMost_le hn]
    exact hf
  · rw [needAtMost_gt (by omega), needAtMost_gt (by omega)]
    exact same_raise _ h

theorem same_needValid {f : State → State} (h : SameButCodes k s s') (hf : SameButCv k (f s) (f s')) :
    SameButCv k (needValid f s) (needValid f s') := by
  have hvalid : s'.plValid = s.plValid := by obtain ⟨_, _, _, rfl, -⟩ := h; rfl
  cases hv : s.plValid with
  | true =>
    rw [needValid_true hv, needValid_true (hvalid.trans hv)]
    exact hf
  | false =>
    rw [needValid_false hv, needValid_false (hvalid.trans hv)]
    exact same_raise _ h

/-! ## Writing and reading fields -/

theorem same_flagIf (v : Bool) (h : SameButCodes k s s') : SameButCodes k (s.flagIf v) (s'.flagIf v) := by
  obtain ⟨r, e, c, rfl, hc⟩ := h
  exact ⟨r, e, c || v, rfl, fun hk => by rw [hc hk]; rfl⟩

theorem same_writeBit (b : Bool) (h : SameButCodes k s s') : SameButCodes k (s.writeBit b) (s'.writeBit b) := by
  obtain ⟨r, e, c, rfl, hc⟩ := h
  unfold State.writeBit
  by_cases hb : s.bitPos + 1 = 8
  · simp only [hb, if_true]
    exact ⟨r, e, c, rfl, hc⟩
  · simp only [hb, if_false]
    exact ⟨r, e, c, rfl, hc⟩

theorem same_writeBits (bs : Bits) (h : SameButCodes k s s') :
    SameButCodes k (s.writeBits bs) (s'.writeBits bs) := by
  induction bs generalizing s s' with
  | nil => exact h
  | cons b bs ih => exact ih (same_writeBit b h)

theorem same_bitWrite (v w : Nat) (h : SameButCodes k s s') : SameAttempt k (bitWrite v w s) (bitWrite v w s') := by
  have hend : 8 * s'.limit < s'.cursor + w ↔ 8 * s.limit < s.cursor + w := by
    obtain ⟨_, _, _, rfl, -⟩ := h; rfl
  unfold bitWrite
  by_cases hw : 8 * s.limit < s.cursor + w
  · rw [if_pos hw, if_pos (hend.mpr hw)]
    exact .inr ⟨_, _, _, rfl, rfl, h⟩
  · rw [if_neg hw, if_neg (mt hend.mp hw)]
    exact .inl ⟨_, _, rfl, rfl, same_writeBits _ (same_flagIf _ h)⟩

theorem same_writeFields (fs : List Field) (h : SameButCodes k s s') :
    SameAttempt k (writeFields fs s) (writeFields fs s') := by
  induction fs generalizing s s' with
  | nil => exact .inl ⟨_, _, rfl, rfl, h⟩
  | cons f fs ih =>
    simp only [writeFields]
    rcases same_bitWrite f.value f.width (same_flagIf f.violation h) with
      ⟨t, t', e, e', ht⟩ | ⟨x, t, t', e, e', ht⟩
    · rw [e, e']
      exact ih ht
    · rw [e, e']
      exact .inr ⟨_, _, _, rfl, rfl, ht⟩

theorem same_openSlice (n : Nat) (h : SameButCodes k s s') : SameButCodes k (s.openSlice n) (s'.openSlice n) := by
  obtain ⟨r, e, c, rfl, hc⟩ := h
  exact ⟨r, e, c, rfl, hc⟩

theorem same_encodeInto (n : Nat) (m : Message) (h : SameButCodes k s s') :
    SameAttempt k (encodeInto n m s) (encodeInto n m s') := same_writeFields m.fields (same_openSlice n h)

/-- How BW_WRITE, MSG_ENCODE and FRAME_MSG end an attempt: in their own success f, or in the error raised. Each of them is
`endWith` of its success by definition. -/
def endWith (f : State → State) : Attempt → State
  | .ok t => f t
  | .err x t => t.raise x

theorem same_endWith {a a' : Attempt} {f : State → State} (h : SameAttempt k a a')
    (hf : ∀ t t', SameButCodes k t t' → SameButCv k (f t) (f t')) :
    SameButCv k (endWith f a) (endWith f a') := by
  rcases h with ⟨t, t', rfl, rfl, ht⟩ | ⟨x, t, t', rfl, rfl, ht⟩
  · exact hf t t' ht
  · exact same_raise x ht

/-- A decoder reads the stream alone. -/
theorem runDec_codes {α : Type} (d : Dec α) (h : SameButCodes k s s') :
    (∃ v p, runDec d s = .ok v (s.setCursor p) ∧ runDec d s' = .ok v (s'.setCursor p)) ∨
      ∃ x p, runDec d s = .err x (s.setCursor p) ∧ runDec d s' = .err x (s'.setCursor p) := by
  have hunread : s'.unread = s.unread := by obtain ⟨_, _, _, rfl, -⟩ := h; rfl
  have hlimit : s'.limit = s.limit := by obtain ⟨_, _, _, rfl, -⟩ := h; rfl
  unfold runDec
  rw [hunread, hlimit]
  cases d s.unread with
  | ok v rest => exact .inl ⟨v, _, rfl, rfl⟩
  | err x rest => exact .inr ⟨x, _, rfl, rfl⟩

theorem same_decodeFrom (n : Nat) (h : SameButCodes k s s') : SameButCv k (decodeFrom n s) (decodeFrom n s') := by
  unfold decodeFrom
  rcases runDec_codes decMessage (same_openSlice n h) with ⟨m, p, e, e'⟩ | ⟨x, p, e, e'⟩ <;> rw [e, e'] <;>
    obtain ⟨_, _, c, rfl, hc⟩ := h <;> exact ⟨c, rfl, hc⟩

theorem same_setMsgOut (m : Option Message) (h : SameButCodes k s s') :
    SameButCodes k (s.setMsgOut m) (s'.setMsgOut m) := by
  obtain ⟨r, e, c, rfl, hc⟩ := h
  exact ⟨r, e, c, rfl, hc⟩

theorem same_copyData (h : SameButCodes k s s') : SameButCodes k (copyData s) (copyData s') := by
  obtain ⟨r, e, c, rfl, hc⟩ := h
  exact ⟨r, e, c, rfl, hc⟩

/-! ## Every command -/

theorem exec_sameButCv {i : Instr} (hi : isCommand i = true) (h : SameButCodes k s s') :
    ∃ t t', exec i s = .next t ∧ exec i s' = .next t' ∧ SameButCv k t t' := by
  have hcodes := h
  obtain ⟨r, e, c, rfl, hc⟩ := hcodes
  cases i with
  | nop | plPipe | plLen | plAddress | plHeaderLength | plLenIsValid | pipeForAddr =>
    exact ⟨_, _, rfl, rfl, c, rfl, hc⟩
  | clearStatus => exact ⟨_, _, rfl, rfl, false, rfl, fun _ => rfl⟩
  | bwBegin n | brBegin n => exact ⟨_, _, rfl, rfl, same_needMode h (same_needAtMost h ⟨c, rfl, hc⟩)⟩
  | bwFinalize | brEnd => exact ⟨_, _, rfl, rfl, same_needMode h ⟨c, rfl, hc⟩⟩
  | plNew n pipe | plNewWithAddr n pipe | plAddrFilter n a =>
    exact ⟨_, _, rfl, rfl, same_needAtMost h ⟨c, rfl, hc⟩⟩
  | plData => exact ⟨_, _, rfl, rfl, same_needMode h (same_needValid h ⟨c, rfl, hc⟩)⟩
  | plPacket => exact ⟨_, _, rfl, rfl, same_needValid h ⟨c, rfl, hc⟩⟩
  | bwWrite n =>
    exact ⟨_, _, rfl, rfl, same_needMode h (same_needAtMost h
      (same_endWith (f := fun t => t.succeed (BitVec.ofNat 32 t.cursor)) (same_bitWrite s.arg0.toNat n.toNat h)
        (by rintro _ _ ⟨_, _, c', rfl, hc'⟩; exact ⟨c', rfl, hc'⟩)))⟩
  | msgEncode n =>
    exact ⟨_, _, rfl, rfl, same_needMode h (same_needMsgIn h fun m => same_needAtMost h
      (same_endWith (f := fun t => t.succeed (BitVec.ofNat 32 t.count)) (same_encodeInto n.toNat m h)
        (by rintro _ _ ⟨_, _, c', rfl, hc'⟩; exact ⟨c', rfl, hc'⟩)))⟩
  | frameMsg a pipe =>
    exact ⟨_, _, rfl, rfl, same_needMode h (same_needMsgIn h fun m =>
      same_endWith (f := fun t => buildFrame pipe (if a then some s.argAddress else none) t.count t)
        (same_encodeInto (Config.payloadSize - headerLength (if a then some s.argAddress else none)) m h)
        (by rintro _ _ ⟨_, _, c', rfl, hc'⟩; exact ⟨c', rfl, hc'⟩))⟩
  | brRead n =>
    refine ⟨_, _, rfl, rfl, same_needMode h (same_needAtMost h ?_)⟩
    unfold bitRead
    rcases runDec_codes (readBits n.toNat) h with ⟨v, p, e1, e2⟩ | ⟨x, p, e1, e2⟩ <;> simp only [e1, e2] <;>
      exact ⟨c, rfl, hc⟩
  | msgDecode n =>
    have h' := same_setMsgOut none h
    exact ⟨_, _, rfl, rfl, same_needMode h' (same_needAtMost h' (same_decodeFrom _ h'))⟩
  | unframeMsg =>
    have h' := same_setMsgOut none h
    exact ⟨_, _, rfl, rfl, same_needMode h' (same_needValid h' (same_decodeFrom _ (same_copyData h')))⟩
  | optionSome _ x => cases x <;> cases hi
  | _ => cases hi

end

/-- Settles O52: `exec_sameButCv` with CV kept for the first clause and with CV free for the last one; the error clause is
`CommandLeaves.zero`. -/
theorem noConditionCodes : Obligations.NoConditionCodes := by
  unfold Obligations.NoConditionCodes
  intro i s hi
  constructor
  · intro r e
    obtain ⟨t, t', h, h', c, rfl, hc⟩ := exec_sameButCv (k := True) (s := s)
      (s' := { s with result := r, err := e }) hi ⟨r, e, s.cv, rfl, fun _ => rfl⟩
    rw [h, h', hc trivial]
  · intro t h
    refine ⟨(command_leaves hi h).zero, fun c => ?_⟩
    obtain ⟨u, u', hu, hu', c', rfl, -⟩ := exec_sameButCv (k := False) (s := s) (s' := { s with cv := c }) hi
      ⟨s.result, s.err, c, rfl, False.elim⟩
    cases h.symm.trans hu
    exact ⟨c', hu'⟩

end Sys2Proof.Proofs.ConditionCodes
end

section
/-! Proofs for the bus errors of spec/20_memory.md R77: which accesses raise one, what one leaves, and that no step
clears the record of it. -/

namespace Sys2Proof.Proofs.BusErrors
open Sys2Proof.Machine Sys2Proof.Proofs.Window

/-! ## The access that is a bus error -/

theorem isBusError_iff (offset : Nat) (w : Width) : isBusError offset w = true ↔
    (offset % w.bytes ≠ 0 ∨ (offset < 0x18 ∧ w ≠ .w32) ∨ 0x80 ≤ offset) := by
  simp only [isBusError, Config.windowSize, Bool.or_eq_true, Bool.and_eq_true, decide_eq_true_iff, or_assoc]

variable {s t : State} {offset : Nat} {w : Width}

theorem hostRead_of_isBusError (s : State) (hbus : isBusError offset w = true) :
    hostRead offset w s = { s with busError := true } := if_pos hbus

theorem hostWrite_of_isBusError (v : Word) (s : State) (hbus : isBusError offset w = true) :
    hostWrite offset w v s = .next { s with busError := true } := if_pos hbus

/-! ## No instruction touches the record -/

theorem wrote_busError (h : Wrote s t) : t.busError = s.busError := by rw [h.1]

theorem wireRow_busError (c : Codec) (fs : List Field) (s : State) :
    (wireRow c fs s).busError = s.busError := by
  unfold wireRow
  cases c with
  | enc =>
    rcases writeFields_cases fs s with ⟨t, e, hw⟩ | ⟨t, e, hw⟩ <;> simp only [e]
    · exact wrote_busError hw
    · exact (t.raise_busError _).trans (wrote_busError hw)
  | dec => rcases runDec_frame (readFields fs) s with ⟨v, p, e⟩ | ⟨x, p, e⟩ <;> simp only [e] <;> rfl

theorem reservedRow_busError (fs : List Field) (x : Error) (s : State) :
    (reservedRow fs x s).busError = s.busError := by
  unfold reservedRow
  rcases runDec_frame (readFields fs) s with ⟨v, p, e⟩ | ⟨x', p, e⟩ <;> simp only [e] <;> rfl

theorem frameRow_busError (c : Codec) (p : Byte) (a : Option Half) (d : List Byte) (s : State) :
    (frameRow c p a d s).busError = s.busError := by
  unfold frameRow
  cases c <;> dsimp only <;> split <;> rfl

/-- Every instruction: a command by what commands may leave, a row by what its codec does. -/
theorem exec_busError {i : Instr} (h : exec i s = .next t) : t.busError = s.busError := by
  cases hi : isCommand i with
  | true => rw [(command_leaves hi h).rest]
  | false =>
    cases i with
    | nop | bwBegin _ | bwWrite _ | bwFinalize | brBegin _ | brRead _ | brEnd | msgEncode _ | msgDecode _ | plNew _ _
    | plNewWithAddr _ _ | plPipe | plLen | plAddress | plHeaderLength | plLenIsValid | plData | plPacket
    | plAddrFilter _ _ | pipeForAddr | frameMsg _ _ | unframeMsg | clearStatus => cases hi
    | messageReserved _ | commandReserved _ | responseReserved _ | sensorReserved _ | actuatorReserved _ =>
      cases h; exact reservedRow_busError _ _ s
    | frameWithAddress _ _ _ _ | frameWithoutAddress _ _ _ => cases h; exact frameRow_busError _ _ _ _ s
    | _ => cases h; exact wireRow_busError _ _ s

/-! ## No action clears the record -/

theorem issue_busError {v : Word} (h : issue v s = .next t) : t.busError = s.busError := by
  cases hd : decodeCommand v with
  | some i => rw [issue_some hd] at h; exact exec_busError h
  | none => rw [issue_none hd] at h; cases h; rfl

theorem writeRegister_busError (offset : Nat) (v : Word) (s : State) :
    (writeRegister offset v s).busError = s.busError := by
  unfold writeRegister
  split <;> rfl

theorem hostRead_keeps_busError (offset : Nat) (w : Width) (hs : s.busError = true) :
    (hostRead offset w s).busError = true := by
  unfold hostRead
  split
  · rfl
  · exact hs

theorem hostWrite_keeps_busError {v : Word} (h : hostWrite offset w v s = .next t) (hs : s.busError = true) :
    t.busError = true := by
  unfold hostWrite at h
  split at h
  · cases h; rfl
  · split at h
    · exact (issue_busError h).trans hs
    · split at h <;> cases h
      · exact hs
      · exact (writeRegister_busError offset v s).trans hs

theorem fetchRow_busError {ty : WireType} (h : fetchRow ty s = .next t) : t.busError = s.busError := by
  unfold fetchRow at h
  rcases runDec_frame (decRow .dec ty) s with ⟨i, p, e⟩ | ⟨x, p, e⟩ <;> simp only [e] at h
  · exact exec_busError h
  · cases h; rfl

theorem fetchFrame_busError (h : fetchFrame s = .next t) : t.busError = s.busError := by
  unfold fetchFrame at h
  split at h
  · exact exec_busError h
  · cases h; rfl

theorem runAction_keeps_busError {a : Action} (h : runAction a s = .next t) (hs : s.busError = true) :
    t.busError = true := by
  cases a with
  | read offset w => cases h; exact hostRead_keeps_busError offset w hs
  | write offset w v => exact hostWrite_keeps_busError h hs
  | putMsg m => cases h; exact hs
  | takeMsg => cases h; exact hs
  | reset wbuf payload => cases h; exact hs
  | encodeStep v => exact (exec_busError h).trans hs
  | decodeStep ty => exact (fetchRow_busError h).trans hs
  | encodeFrame f => exact (exec_busError h).trans hs
  | decodeFrame => exact (fetchFrame_busError h).trans hs

theorem step_keeps_busError (h : step s = .next t) (hs : s.busError = true) : t.busError = true := by
  cases hp : s.pending with
  | nil => rw [step_nil hp] at h; cases h; exact hs
  | cons a rest => rw [step_cons hp] at h; exact runAction_keeps_busError h hs

/-- Settles O59: the three cases by `isBusError_iff`, both kinds of access by what each does on one, and the record over
every kind of action by `step_keeps_busError`. -/
theorem busErrors : Obligations.BusErrors := by
  unfold Obligations.BusErrors
  refine ⟨isBusError_iff, ?_, fun s t => step_keeps_busError⟩
  intro offset k v s rest hbus
  constructor
  · rw [step_pending, runAction, hostRead_of_isBusError _ hbus]
  · rw [step_pending, runAction, hostWrite_of_isBusError v _ hbus]

end Sys2Proof.Proofs.BusErrors
end

section
/-! Proofs for the command words of spec/30_encoding.md R100 to R102: the fields of a word, the opcode map, and the words
that are no command. -/

namespace Sys2Proof.Proofs.CommandWords
open Sys2Proof.Machine Sys2Proof.Proofs.Window

/-- Settles O2: the number is `commandWord_toNat`, the fields are `commandWord_fields`, and the converse is
`commandWord_of_fields`. -/
theorem commandWordLayout : Obligations.CommandWordLayout := by
  unfold Obligations.CommandWordLayout
  exact ⟨fun opc n a pipe => ⟨commandWord_toNat opc n a pipe, commandWord_fields opc n a pipe⟩, commandWord_of_fields⟩

/-! ## The fields of a command word, one rule each -/

section
variable (opc : BitVec 8) (n : BitVec 6) (a : Bool) (pipe : Byte)

@[simp] theorem opc_commandWord : Word.opc (commandWord opc n a pipe) = opc.toNat := by
  obtain ⟨hopc, -⟩ := commandWord_fields opc n a pipe
  exact hopc

@[simp] theorem n_commandWord : Word.n (commandWord opc n a pipe) = n := by
  obtain ⟨-, hn, -⟩ := commandWord_fields opc n a pipe
  exact hn

@[simp] theorem a_commandWord : Word.a (commandWord opc n a pipe) = a := by
  obtain ⟨-, -, ha, -⟩ := commandWord_fields opc n a pipe
  exact ha

@[simp] theorem pipe_commandWord : Word.pipe (commandWord opc n a pipe) = pipe := by
  obtain ⟨-, -, -, hpipe, -⟩ := commandWord_fields opc n a pipe
  exact hpipe

@[simp] theorem reservedClear_commandWord : Word.reservedClear (commandWord opc n a pipe) = true := by
  obtain ⟨-, -, -, -, hclear⟩ := commandWord_fields opc n a pipe
  exact hclear

end

/-! ## Which words are commands -/

/-- R102: the reserved bits of a word, as the two checks the rule names. -/
theorem reservedClear_iff (w : Word) :
    Word.reservedClear w = true ↔ w.getLsbD 15 = false ∧ w.extractLsb' 24 8 = 0 := by
  simp [Word.reservedClear]

/-- R101, R102: a command is a word with clear reserved bits and an opcode of the map. The split is over the arms of the
decoder, one per opcode and one for all others. -/
theorem decodeCommand_isSome_iff (w : Word) :
    (decodeCommand w).isSome = true ↔ Word.reservedClear w = true ∧ Word.opc w ∈ opcodes := by
  unfold decodeCommand
  by_cases hclear : Word.reservedClear w = true
  · rw [if_pos hclear]
    split <;> simp_all [opcodes]
  · simp [hclear]

theorem decodeCommand_eq_none_iff (w : Word) :
    decodeCommand w = none ↔ ¬ (Word.reservedClear w = true ∧ Word.opc w ∈ opcodes) := by
  rw [← decodeCommand_isSome_iff, Option.not_isSome_iff_eq_none]

/-- Only the arm of opcode 0 answers NOP. -/
theorem opc_of_decodeCommand_nop {w : Word} (h : decodeCommand w = some .nop) : Word.opc w = 0 := by
  unfold decodeCommand at h
  split at h
  · split at h <;> simp_all
  · cases h

/-- Settles O3: a row of the table is the decoder's arm of its opcode on the fields of the word, and an opcode outside the
map is no command by `decodeCommand_eq_none_iff`. -/
theorem opcodeMap : Obligations.OpcodeMap := by
  unfold Obligations.OpcodeMap
  refine ⟨fun n a pipe => ?_, fun w hopc => (decodeCommand_eq_none_iff w).mpr fun ⟨_, hmem⟩ => hopc hmem⟩
  simp [decodeCommand]

/-- Settles O4: an illegal word is one that `decodeCommand_eq_none_iff` excludes, so that `issue` raises
IllegalCommand. -/
theorem illegalWords : Obligations.IllegalWords := by
  unfold Obligations.IllegalWords
  refine ⟨fun w s rest hill => ?_, fun w hopc h15 h24 => ?_, fun w => opc_of_decodeCommand_nop⟩
  · have hnone : decodeCommand w = none := by
      rw [decodeCommand_eq_none_iff, reservedClear_iff]
      rintro ⟨⟨h15, h24⟩, hopc⟩
      rcases hill with hbad | hbad | hbad
      · exact hbad hopc
      · exact Bool.false_ne_true (h15.symm.trans hbad)
      · exact hbad h24
    calc step { s with pending := .write 0 .w32 w :: rest }
      _ = hostWrite 0 .w32 w { s with pending := rest } := step_pending s _ rest
      _ = issue w { s with pending := rest } := hostWrite_cmd w _
      _ = .next (failed .illegalCommand { s with pending := rest }) := issue_none hnone _
  · exact (decodeCommand_isSome_iff w).mpr ⟨(reservedClear_iff w).mpr ⟨h15, h24⟩, hopc⟩

end Sys2Proof.Proofs.CommandWords
end

section
/-! Proofs for the message wire format of spec/30_encoding.md R112 to R131, type by type. -/

namespace Sys2Proof.Proofs.WireFormat

/-! ## One-bit fields, presence flags, ids and byte runs -/

/-- R131: a Bool goes out as the bit itself. -/
theorem bitsOf_toNat_one (b : Bool) : bitsOf b.toNat 1 = [b] := by cases b <;> rfl

/-- A flag or discriminant that is set. -/
theorem bitsOf_one_one : bitsOf 1 1 = [true] := bitsOf_toNat_one true

/-- A flag or discriminant that is clear. -/
theorem bitsOf_zero_one : bitsOf 0 1 = [false] := bitsOf_toNat_one false

/-- R124: an absent value is its flag. -/
theorem fieldsBits_optionFields_none {α : Type} (f : α → List Field) :
    fieldsBits (optionFields f none) = [false] := rfl

/-- R124: a present value comes after its flag. -/
theorem fieldsBits_optionFields_some {α : Type} (f : α → List Field) (x : α) :
    fieldsBits (optionFields f (some x)) = [true] ++ fieldsBits (f x) := by
  rw [optionFields, fieldsBits_cons, codeField_bits, bitsOf_one_one]

/-- R320: the id None is the number 0. -/
@[simp] theorem responseIdField_none_bits : (responseIdField none).bits = bitsOf 0 6 := rfl

@[simp] theorem responseIdField_some_bits (i : Byte) : (responseIdField (some i)).bits = bitsOf i.toNat 6 := rfl

/-- R334: a run of bytes, 8 bits each, in index order. -/
theorem fieldsBits_byteFields (bs : List Byte) :
    fieldsBits (bs.map fun x => vecField x 8) = bs.flatMap fun x => bitsOf x.toNat 8 := by
  rw [fieldsBits, List.flatMap_map]
  rfl

/-- Settles O29: a variant's bits are those of its code and of its operands, one field after another. -/
theorem wireLayout : Obligations.WireLayout := by
  unfold Obligations.WireLayout
  refine ⟨?board, ?battery, ?tempHum, ?current, ?light, ?limbSensorNone, ?limbSensorSome, ?limbActuator, ?limb, ?nodeInfo,
    ?command, ?response, ?messageData, ?message, ?relayMessage, ?searchingNetwork, ?network, ?debugMessage⟩
  case board => simp [Board.fields, Board.code]
  case battery | tempHum | current => simp [Sensor.fields]
  case light => simp [Actuator.fields, bitsOf_toNat_one]
  case limbSensorNone => simp [LimbType.fields, bitsOf_zero_one, fieldsBits_optionFields_none]
  case limbSensorSome => simp [LimbType.fields, bitsOf_zero_one, fieldsBits_optionFields_some]
  case limbActuator => simp [LimbType.fields, bitsOf_one_one]
  case limb => simp [Limb.fields]
  case nodeInfo => simp [NodeInfo.fields]
  case command => simp [Command.fields]
  case response => simp [Response.fields, fieldsBits_optionFields_none, fieldsBits_optionFields_some]
  case messageData => simp [MessageData.fields, bitsOf_zero_one, bitsOf_one_one]
  case message | relayMessage | searchingNetwork | network =>
    simp [Message.bits, Message.fields, Message.code, Message.bodyFields]
  case debugMessage => simp [Message.bits, Message.fields, Message.code, Message.bodyFields, fieldsBits_byteFields]

end Sys2Proof.Proofs.WireFormat
end

section
/-! What a row's decoder leaves by itself (spec/40_bit_codec.md R162), and the proof for the reserved rows of
spec/30_encoding.md R130. -/

namespace Sys2Proof.Proofs.RowsRead
open Sys2Proof.Machine

variable {s : State} {fs gs rest : List Field} {f : Field} {e : Error}

/-! ## Reading a row's fields -/

/-- Where the bits end inside field f, the fields before it are read and nothing more. -/
theorem readFields_append_short {bs : Bits} (hgs : fieldsWidth gs ≤ bs.length)
    (hf : bs.length < fieldsWidth gs + f.width) :
    readFields (gs ++ f :: rest) bs = .err .bufferUnderflow (bs.drop (fieldsWidth gs)) := by
  induction gs generalizing bs with
  | nil =>
    have hshort : bs.length < f.width := by simpa using hf
    simp [readFields, Dec.andThen, readBits_short hshort]
  | cons g gs ih =>
    rw [fieldsWidth_cons] at hgs hf
    have hg : g.width ≤ bs.length := by omega
    simp only [List.cons_append, readFields, Dec.andThen, readBits_ok hg]
    rw [ih (by rw [List.length_drop]; omega) (by rw [List.length_drop]; omega), List.drop_drop, fieldsWidth_cons]

/-- A decoder that has read n of the unread bits stands n positions further. -/
theorem cursor_after_drop {n : Nat} (h : s.cursor + n ≤ 8 * s.limit) :
    8 * s.limit - (s.unread.drop n).length = s.cursor + n := by
  rw [List.length_drop, State.unread_length]
  omega

/-- The slice holds the row: the cursor passes it. -/
theorem runDec_readFields_ok (hfit : s.cursor + fieldsWidth fs ≤ 8 * s.limit) :
    runDec (readFields fs) s = .ok () (s.setCursor (s.cursor + fieldsWidth fs)) := by
  have hread := readFields_ok fs s.unread (by rw [State.unread_length]; omega)
  rw [runDec_ok hread, cursor_after_drop hfit]

/-- The slice ends inside field f: the cursor stands at f. -/
theorem runDec_readFields_short (hgs : s.cursor + fieldsWidth gs ≤ 8 * s.limit)
    (hf : 8 * s.limit < s.cursor + fieldsWidth gs + f.width) :
    runDec (readFields (gs ++ f :: rest)) s =
      .err .bufferUnderflow (s.setCursor (s.cursor + fieldsWidth gs)) := by
  have hread : readFields (gs ++ f :: rest) s.unread = .err .bufferUnderflow (s.unread.drop (fieldsWidth gs)) :=
    readFields_append_short (by rw [State.unread_length]; omega) (by rw [State.unread_length]; omega)
  rw [runDec_err hread, cursor_after_drop hgs]

/-! ## Reserved rows -/

/-- R130: the row's own error, right after its bits. -/
theorem reservedRow_fits (hfit : s.cursor + fieldsWidth fs ≤ 8 * s.limit) :
    reservedRow fs e s = (s.setCursor (s.cursor + fieldsWidth fs)).raiseDecode e := by
  rw [reservedRow, runDec_readFields_ok hfit]

theorem reservedRow_short (hgs : s.cursor + fieldsWidth gs ≤ 8 * s.limit)
    (hf : 8 * s.limit < s.cursor + fieldsWidth gs + f.width) :
    reservedRow (gs ++ f :: rest) e s = (s.setCursor (s.cursor + fieldsWidth gs)).raiseDecode .bufferUnderflow := by
  rw [reservedRow, runDec_readFields_short hgs hf]

/-- Where the first field does not fit, the cursor stays. -/
theorem reservedRow_short_first (hinv : s.CursorInv) (hf : 8 * s.limit < s.cursor + f.width) :
    reservedRow (f :: rest) e s = s.raiseDecode .bufferUnderflow := by
  obtain ⟨hbit, -, hcur⟩ := hinv
  have hrow : reservedRow (f :: rest) e s = (s.setCursor s.cursor).raiseDecode .bufferUnderflow :=
    reservedRow_short (gs := []) hcur hf
  rwa [State.setCursor_self s hbit] at hrow

/-- R255, R258, R307, R317: the reserved rows of one field are its code. -/
theorem exec_reservedCode {k : BitVec 4} {i : Instr}
    (hrow : (i, e) ∈ [(Instr.sensorReserved k, Error.invalidSensor), (.actuatorReserved k, .invalidActuator),
      (.commandReserved k, .invalidCommand), (.responseReserved k, .invalidResponse)]) :
    exec i s = .next (reservedRow [vecField k 4] e s) := by
  simp only [List.mem_cons, Prod.mk.injEq, List.not_mem_nil, or_false] at hrow
  rcases hrow with ⟨rfl, rfl⟩ | ⟨rfl, rfl⟩ | ⟨rfl, rfl⟩ | ⟨rfl, rfl⟩ <;> rfl

theorem exec_messageReserved (head : BadHead) :
    exec (.messageReserved head) s = .next (reservedRow head.fields (headError head) s) := rfl

/-- Settles O44: each row is `reservedRow` of its code, of its version, or of the version and a code; the lemmas about
`reservedRow` say where the cursor stands at each end of the slice. -/
theorem reservedRows : Obligations.ReservedRows := by
  unfold Obligations.ReservedRows
  rintro s ⟨-, hinv⟩
  refine ⟨fun k i e hrow _ => ?code, fun v _ => ?version, fun k _ => ?messageCode⟩
  case code =>
    rw [exec_reservedCode hrow]
    exact ⟨fun hfit => congrArg _ (reservedRow_fits (fs := [vecField k 4]) hfit),
      fun hshort => congrArg _ (reservedRow_short_first hinv hshort)⟩
  case version =>
    rw [exec_messageReserved]
    exact ⟨fun hfit => congrArg _ (reservedRow_fits (fs := [vecField v 2]) hfit),
      fun hshort => congrArg _ (reservedRow_short_first (f := vecField v 2) hinv hshort)⟩
  case messageCode =>
    rw [exec_messageReserved]
    exact ⟨fun hfit => congrArg _ (reservedRow_fits (fs := [codeField 1 2, vecField k 4]) hfit),
      fun hversion hshort => congrArg _ (reservedRow_short (gs := [codeField 1 2]) (f := vecField k 4) hversion hshort),
      fun hshort => congrArg _ (reservedRow_short_first (f := codeField 1 2) hinv hshort)⟩

end Sys2Proof.Proofs.RowsRead
end

section
/-! Proofs for the bit codec (spec/40_bit_codec.md): what each of its six commands answers, BitRead against its loop (R162),
and the round trip of a session (R170). -/

namespace Sys2Proof.Proofs.BitCodec
open Sys2Proof.Machine

variable {s t u : State}

/-! ## Sessions (R150, R155, R160, R165) -/

theorem beginSession_busy {m : Mode} {n : Nat} (hbusy : s.mode ≠ .idle) :
    beginSession m n s = failed .illegalSequence s := needMode_ne hbusy

theorem beginSession_too_long {m : Mode} {n : Nat} (hidle : s.mode = .idle) (hn : 32 < n) :
    beginSession m n s = failed .illegalLimit s := (needMode_eq hidle).trans (needAtMost_gt hn)

theorem beginSession_opens {m : Mode} {n : Nat} (hidle : s.mode = .idle) (hn : n ≤ 32) :
    beginSession m n s = ((s.openSlice n).setMode m).succeed 0 := (needMode_eq hidle).trans (needAtMost_le hn)

theorem endSession_other_mode {m : Mode} (hm : s.mode ≠ m) : endSession m s = failed .illegalSequence s :=
  needMode_ne hm

theorem endSession_closes {m : Mode} (hm : s.mode = m) :
    endSession m s = (s.setMode .idle).succeed (BitVec.ofNat 32 s.count) := needMode_eq hm

/-- Settles O15: BW_BEGIN and BR_BEGIN are `beginSession` of their modes. -/
theorem beginOpensSession : Obligations.BeginOpensSession := by
  unfold Obligations.BeginOpensSession
  intro n s
  refine ⟨fun hbusy => ?busy, fun hidle hn => ?tooLong, fun hidle hn => ?opens⟩
  case busy => exact ⟨congrArg _ (beginSession_busy hbusy), congrArg _ (beginSession_busy hbusy)⟩
  case tooLong => exact ⟨congrArg _ (beginSession_too_long hidle hn), congrArg _ (beginSession_too_long hidle hn)⟩
  case opens => exact ⟨congrArg _ (beginSession_opens hidle hn), congrArg _ (beginSession_opens hidle hn)⟩

/-- Settles O16: BW_FINALIZE and BR_END are `endSession` of their modes. -/
theorem endClosesSession : Obligations.EndClosesSession := by
  unfold Obligations.EndClosesSession
  intro s
  exact ⟨fun hm => congrArg _ (endSession_closes hm), fun hm => congrArg _ (endSession_other_mode hm),
    fun hm => congrArg _ (endSession_closes hm), fun hm => congrArg _ (endSession_other_mode hm)⟩

/-! ## Stretches of the stream -/

theorem bitsFrom_congr {p n : Nat} (h : ∀ q, p ≤ q → q < p + n → s.streamBit q = t.streamBit q) :
    s.bitsFrom p n = t.bitsFrom p n :=
  List.map_congr_left fun k hk => h (p + k) (by omega) (by have := List.mem_range.mp hk; omega)

theorem bitsFrom_succ (s : State) (p n : Nat) : s.bitsFrom p (n + 1) = s.streamBit p :: s.bitsFrom (p + 1) n := by
  rw [Nat.add_comm n 1, State.bitsFrom_add]
  rfl

theorem bitsFrom_getElem {p n k : Nat} (hk : k < (s.bitsFrom p n).length) :
    (s.bitsFrom p n)[k] = s.streamBit (p + k) := by simp [State.bitsFrom]

@[simp] theorem succeed_cursor (s : State) (r : Word) : (s.succeed r).cursor = s.cursor := rfl

/-- The bit under the cursor, as the pseudocode of R152 and R162 addresses it. -/
theorem streamBit_cursor (hbit : s.bitPos ≤ 7) :
    s.streamBit s.cursor = (s.wbuf s.bytePos).getLsbD (7 - s.bitPos) := by
  rw [State.streamBit, State.cursor_div s hbit, State.cursor_mod s hbit]

/-- A field of the stream as a number: its last position is bit 0. -/
theorem natOf_bitsFrom_testBit (s : State) (p n i : Nat) :
    (natOf (s.bitsFrom p n)).testBit i = (decide (i < n) && s.streamBit (p + n - 1 - i)) := by
  have hlt : natOf (s.bitsFrom p n) < 2 ^ n := by simpa using natOf_lt (s.bitsFrom p n)
  by_cases hi : i < n
  · have hbit := natOf_testBit (s.bitsFrom p n) (n - 1 - i) (by rw [State.bitsFrom_length]; omega)
    rw [bitsFrom_getElem, State.bitsFrom_length, show n - 1 - (n - 1 - i) = i by omega,
      show p + (n - 1 - i) = p + n - 1 - i by omega] at hbit
    simp [hbit, hi]
  · rw [Nat.testBit_lt_two_pow (hlt.trans_le (Nat.pow_le_pow_right (by omega) (by omega)))]
    simp [hi]

/-! ## BitRead (R162) -/

theorem bitRead_underflows {w : Nat} (hi : s.Inv) (hshort : 8 * s.limit < s.cursor + w) :
    bitRead w s = .err .bufferUnderflow s := by
  rw [bitRead_spec w s hi, if_pos hshort]

theorem bitRead_fits {w : Nat} (hi : s.Inv) (hfit : s.cursor + w ≤ 8 * s.limit) :
    bitRead w s = .ok (natOf (s.bitsFrom s.cursor w)) (s.setCursor (s.cursor + w)) := by
  rw [bitRead_spec w s hi, if_neg (by omega)]

theorem advance_eq (hbit : s.bitPos ≤ 7) : advance s = s.setCursor (s.cursor + 1) := by
  unfold advance State.setCursor State.cursor
  split
  · rw [show (8 * s.bytePos + s.bitPos + 1) / 8 = s.bytePos + 1 by omega,
      show (8 * s.bytePos + s.bitPos + 1) % 8 = 0 by omega]
  · rw [show (8 * s.bytePos + s.bitPos + 1) / 8 = s.bytePos by omega,
      show (8 * s.bytePos + s.bitPos + 1) % 8 = s.bitPos + 1 by omega]

/-- The loop doubles its value once for each stream bit and ends w positions further. -/
theorem bitReadLoop_eq (w v : Nat) (s : State) (hbit : s.bitPos ≤ 7) :
    bitReadLoop w v s =
      ((s.bitsFrom s.cursor w).foldl (fun v b => 2 * v + b.toNat) v, s.setCursor (s.cursor + w)) := by
  induction w generalizing v s with
  | zero => exact congrArg (Prod.mk v) (State.setCursor_self s hbit).symm
  | succ w ih =>
    rw [bitReadLoop, advance_eq hbit, ih _ _ (by rw [State.setCursor_bitPos]; omega), State.setCursor_cursor,
      bitsFrom_succ, List.foldl_cons, streamBit_cursor hbit, Nat.add_right_comm]
    rfl

theorem bitRead_eq_pseudo (w : Nat) (hi : s.Inv) : bitRead w s = bitReadPseudo w s := by
  obtain ⟨-, hbit, -, -⟩ := id hi
  rw [bitRead_spec w s hi, bitReadPseudo, bitReadLoop_eq w 0 s hbit]
  rfl

/-- The unread bits lie in the bytes below LIMIT. -/
theorem unread_setMem {m : List Host.Cell} (hsame : ∀ i, i < s.limit → Memory.read m (0x20 + i) = s.wbuf i) :
    (s.setMem m).unread = s.unread := by
  refine bitsFrom_congr fun p _ hp => ?_
  have hread : (s.setMem m).wbuf (p / 8) = s.wbuf (p / 8) :=
    hsame (p / 8) (by simp only [State.setMem_limit] at hp; omega)
  rw [State.streamBit, State.streamBit, hread]

/-- A decoder answers the same over any memory with the same unread bits, and keeps that memory. -/
theorem runDec_setMem {α : Type} {d : Dec α} {m : List Host.Cell} (hunread : (s.setMem m).unread = s.unread) :
    (∀ v t, runDec d s = .ok v t → runDec d (s.setMem m) = .ok v (t.setMem m)) ∧
      ∀ e t, runDec d s = .err e t → runDec d (s.setMem m) = .err e (t.setMem m) := by
  unfold runDec
  rw [hunread]
  cases d s.unread with
  | ok v rest =>
    refine ⟨fun _ _ h => ?_, fun _ _ h => ?_⟩ <;> cases h
    rfl
  | err e rest =>
    refine ⟨fun _ _ h => ?_, fun _ _ h => ?_⟩ <;> cases h
    rfl

/-- Settles O19: `bitReadLoop_eq` for the loop, `unread_setMem` for the bytes read. -/
theorem bitReadIsPseudocode : Obligations.BitReadIsPseudocode := by
  unfold Obligations.BitReadIsPseudocode
  intro w s hi
  refine ⟨bitRead_eq_pseudo w hi, fun v t hok => ?_, fun m hsame => runDec_setMem (unread_setMem hsame)⟩
  by_cases hfit : s.cursor + w ≤ 8 * s.limit
  · rw [bitRead_fits hi hfit] at hok
    cases hok
    exact ⟨by simpa using natOf_lt (s.bitsFrom s.cursor w), rfl⟩
  · rw [bitRead_underflows hi (by omega)] at hok
    cases hok

/-! ## BR_READ (R163) -/

theorem exec_brRead_fits {n : BitVec 6} (hi : s.Inv) (hm : s.mode = .read) (hn : n.toNat ≤ 32)
    (hfit : s.cursor + n.toNat ≤ 8 * s.limit) : exec (.brRead n) s = .next
      ((s.setCursor (s.cursor + n.toNat)).succeed (BitVec.ofNat 32 (natOf (s.bitsFrom s.cursor n.toNat)))) := by
  refine congrArg _ ((needMode_eq hm).trans ((needAtMost_le hn).trans ?_))
  rw [bitRead_fits hi hfit]

/-- Settles O18: `exec_brRead_fits` for the read, whose bits `natOf_bitsFrom_testBit` gives. -/
theorem brReadReadsTheField : Obligations.BrReadReadsTheField := by
  unfold Obligations.BrReadReadsTheField
  intro n s hi
  refine ⟨fun hm => ?mode, fun hm hn => ?width, fun hm hn hshort => ?underflow, fun hm hn hfit => ?fits⟩
  case mode => exact congrArg _ (needMode_ne hm)
  case width => exact congrArg _ ((needMode_eq hm).trans (needAtMost_gt hn))
  case underflow =>
    refine congrArg _ ((needMode_eq hm).trans ((needAtMost_le hn).trans ?_))
    rw [bitRead_underflows hi hshort]
    rfl
  case fits =>
    refine ⟨BitVec.ofNat 32 (natOf (s.bitsFrom s.cursor n.toNat)), exec_brRead_fits hi hm hn hfit, fun i => ?_⟩
    have hword : i < n.toNat → i < 32 := fun hlt => by omega
    rw [BitVec.getLsbD_ofNat, natOf_bitsFrom_testBit, ← Bool.and_assoc, ← Bool.decide_and]
    simp only [and_iff_right_of_imp hword]

/-! ## BW_WRITE (R153) -/

theorem exec_bwWrite_mode {n : BitVec 6} (hm : s.mode ≠ .write) :
    exec (.bwWrite n) s = .next (failed .illegalSequence s) := congrArg _ (needMode_ne hm)

theorem exec_bwWrite_width {n : BitVec 6} (hm : s.mode = .write) (hn : 32 < n.toNat) :
    exec (.bwWrite n) s = .next (failed .illegalWidth s) :=
  congrArg _ ((needMode_eq hm).trans (needAtMost_gt hn))

theorem exec_bwWrite_overflow {n : BitVec 6} (hm : s.mode = .write) (hn : n.toNat ≤ 32)
    (hlong : 8 * s.limit < s.cursor + n.toNat) : exec (.bwWrite n) s = .next (failed .bufferOverflow s) := by
  refine congrArg _ ((needMode_eq hm).trans ((needAtMost_le hn).trans ?_))
  rw [bitWrite, if_pos hlong]
  rfl

/-- A write that fits puts out ARG0's field of N bits. -/
theorem exec_bwWrite_fits {n : BitVec 6} (hi : s.Inv) (hm : s.mode = .write) (hn : n.toNat ≤ 32)
    (hfit : s.cursor + n.toNat ≤ 8 * s.limit) : exec (.bwWrite n) s = .next
      { s with mem := (s.writeBits (bitsOf s.arg0.toNat n.toNat)).mem, bytePos := (s.cursor + n.toNat) / 8,
               bitPos := (s.cursor + n.toNat) % 8,
               cv := s.cv || decide (n.toNat < 32 ∧ 2 ^ n.toNat ≤ s.arg0.toNat),
               result := BitVec.ofNat 32 (s.cursor + n.toNat), err := none } := by
  obtain ⟨hmem, hbit, hlim, -⟩ := id hi
  have hframe := State.writeBits_frame (bs := bitsOf s.arg0.toNat n.toNat) hmem hbit (by rw [bitsOf_length]; omega)
  rw [bitsOf_length] at hframe
  refine congrArg _ ((needMode_eq hm).trans ((needAtMost_le hn).trans ?_))
  rw [bitWrite, if_neg (by omega), State.writeBits_flagIf, ← Bool.decide_and, hframe]
  simp only [State.flagIf_cursor, State.setCursor_cursor]
  rfl

/-- What a write of v's field leaves at position p: bit N - 1 - i of v at position P + i (R152). -/
theorem writtenBit_bitsOf (s : State) (v : Word) (w p : Nat) : writtenBit s (bitsOf v.toNat w) p =
    if s.cursor ≤ p ∧ p < s.cursor + w then v.getLsbD (s.cursor + w - 1 - p)
    else if s.cursor ≤ 8 * (p / 8) ∧ 8 * (p / 8) < s.cursor + w then false
    else s.streamBit p := by
  rw [writtenBit, bitsOf_length]
  split
  · rw [List.getD, bitsOf_getElem? _ _ _ (by omega), show w - 1 - (p - s.cursor) = s.cursor + w - 1 - p by omega]
    rfl
  · rfl

/-- Settles O17: `exec_bwWrite_fits` for the state, `State.writeBits_spec` for the stream, `State.writeBits_outside` for the
other bytes. -/
theorem bwWriteWritesTheField : Obligations.BwWriteWritesTheField := by
  unfold Obligations.BwWriteWritesTheField
  intro n s hi
  refine ⟨exec_bwWrite_mode, exec_bwWrite_width, exec_bwWrite_overflow, fun hm hn hfit => ?fits⟩
  obtain ⟨hmem, hbit, hlim, -⟩ := id hi
  have hlen : s.cursor + (bitsOf s.arg0.toNat n.toNat).length ≤ 256 := by rw [bitsOf_length]; omega
  obtain ⟨m, hwrite, hwf, hstream⟩ := State.writeBits_spec _ s hmem hbit hlen
  refine ⟨(s.writeBits (bitsOf s.arg0.toNat n.toNat)).mem, by rw [hwrite]; exact hwf,
    exec_bwWrite_fits hi hm hn hfit, fun p => ?stream, fun a ha => ?outside⟩
  case stream => exact (hstream p).trans (writtenBit_bitsOf s s.arg0 n.toNat p)
  case outside => exact State.writeBits_outside hmem hbit hlen (by rwa [bitsOf_length])

/-! ## The round trip of a session (R170) -/

/-- Bits written at the cursor come right after what the session had written before. -/
theorem writeBits_bitsFrom {bs : Bits} (hmem : Memory.wf s.mem = true) (hbit : s.bitPos ≤ 7)
    (hlen : s.cursor + bs.length ≤ 256) :
    (s.writeBits bs).bitsFrom 0 (s.cursor + bs.length) = s.bitsFrom 0 s.cursor ++ bs := by
  obtain ⟨-, -, -, hstream⟩ := State.writeBits_spec bs s hmem hbit hlen
  rw [State.bitsFrom_add]
  congr 1
  · refine bitsFrom_congr fun p _ hp => ?_
    rw [hstream, writtenBit, if_neg (by omega), if_neg (by omega)]
  · refine List.ext_getElem (State.bitsFrom_length ..) fun i hi hi' => ?_
    rw [bitsFrom_getElem, hstream, writtenBit, if_pos (by omega), show 0 + s.cursor + i - s.cursor = i by omega]
    simp [List.getD, hi']

/-- The fields of a list of writes. -/
def writtenFields (fs : List (Word × BitVec 6)) : List Field := fs.map fun f => vecField f.1 f.2.toNat

@[simp] theorem writtenFields_nil : writtenFields [] = [] := rfl

@[simp] theorem writtenFields_cons (f : Word × BitVec 6) (fs : List (Word × BitVec 6)) :
    writtenFields (f :: fs) = vecField f.1 f.2.toNat :: writtenFields fs := rfl

/-- t goes on with the session of s, and bs is what was written since. -/
structure Appended (bs : Bits) (s t : State) : Prop where
  inv : t.Inv
  mode : t.mode = s.mode
  limit : t.limit = s.limit
  stream : t.bitsFrom 0 t.cursor = s.bitsFrom 0 s.cursor ++ bs

theorem Appended.trans {bs cs : Bits} (h : Appended bs s t) (k : Appended cs t u) : Appended (bs ++ cs) s u where
  inv := k.inv
  mode := k.mode.trans h.mode
  limit := k.limit.trans h.limit
  stream := by rw [k.stream, h.stream, List.append_assoc]

/-- A BW_WRITE that raises no error had room, and appends its field. -/
theorem exec_bwWrite_appends {n : BitVec 6} (hi : s.Inv) (hm : s.mode = .write) (h : exec (.bwWrite n) s = .next t)
    (herr : t.err = none) : n.toNat ≤ 32 ∧ Appended (bitsOf s.arg0.toNat n.toNat) s t := by
  by_cases hn : n.toNat ≤ 32
  case neg =>
    rw [exec_bwWrite_width hm (by omega)] at h
    cases h
    cases herr
  by_cases hfit : s.cursor + n.toNat ≤ 8 * s.limit
  case neg =>
    rw [exec_bwWrite_overflow hm hn (by omega)] at h
    cases h
    cases herr
  have hinv : t.Inv := by
    obtain ⟨_, hnext, hinv⟩ := inv_exec (.bwWrite n) hi
    cases h.symm.trans hnext
    exact hinv
  obtain ⟨hmem, hbit, hlim, -⟩ := id hi
  have hbits := writeBits_bitsFrom (bs := bitsOf s.arg0.toNat n.toNat) hmem hbit (by rw [bitsOf_length]; omega)
  rw [bitsOf_length] at hbits
  rw [exec_bwWrite_fits hi hm hn hfit] at h
  cases h
  refine ⟨hn, hinv, rfl, rfl, ?_⟩
  rw [← hbits]
  exact congrArg (State.bitsFrom _ 0) (State.setCursor_cursor s (s.cursor + n.toNat))

/-- A list of writes that raise no error appends their fields. -/
theorem writeAll_appends {fs : List (Word × BitVec 6)} (hi : s.Inv) (hm : s.mode = .write)
    (h : writeAll fs s = some t) :
    (∀ f ∈ fs, f.2.toNat ≤ 32) ∧ Appended (fieldsBits (writtenFields fs)) s t := by
  induction fs generalizing s with
  | nil =>
    cases h
    exact ⟨by simp, hi, rfl, rfl, by simp⟩
  | cons f fs ih =>
    obtain ⟨v, n⟩ := f
    obtain ⟨u, hu⟩ := exec_total (.bwWrite n) { s with arg0 := v }
    simp only [writeAll, hu] at h
    split at h
    case isFalse => cases h
    case isTrue herr =>
      obtain ⟨hn, hfirst⟩ := exec_bwWrite_appends (s := { s with arg0 := v }) hi hm hu herr
      obtain ⟨hwidths, hrest⟩ := ih hfirst.inv (hfirst.mode.trans hm) h
      have hfield : Appended (vecField v n.toNat).bits s u := ⟨hfirst.inv, hfirst.mode, hfirst.limit, hfirst.stream⟩
      exact ⟨List.forall_mem_cons.mpr ⟨hn, hwidths⟩, hfield.trans hrest⟩

/-- Reads over a stream that holds the fields return their values. -/
theorem readAll_of_stream {fs : List (Word × BitVec 6)} (hi : s.Inv) (hm : s.mode = .read)
    (hwidths : ∀ f ∈ fs, f.2.toNat ≤ 32) (hfit : s.cursor + fieldsWidth (writtenFields fs) ≤ 8 * s.limit)
    (hstream : s.bitsFrom s.cursor (fieldsWidth (writtenFields fs)) = fieldsBits (writtenFields fs)) :
    readAll (fs.map (·.2)) s = some (fs.map fun f => BitVec.ofNat 32 (f.1.toNat % 2 ^ f.2.toNat)) := by
  induction fs generalizing s with
  | nil => rfl
  | cons f fs ih =>
    obtain ⟨v, n⟩ := f
    obtain ⟨hn, hwidths⟩ := List.forall_mem_cons.mp hwidths
    simp only [writtenFields_cons, fieldsWidth_cons, fieldsBits_cons, State.bitsFrom_add, vecField, Field.bits]
      at hfit hstream hn
    obtain ⟨hfirst, hrest⟩ := List.append_inj hstream (by simp)
    have hexec := exec_brRead_fits hi hm hn (by omega)
    rw [hfirst, natOf_bitsOf] at hexec
    have htail := ih (s := (s.setCursor (s.cursor + n.toNat)).succeed (BitVec.ofNat 32 (v.toNat % 2 ^ n.toNat)))
      (inv_cursor hi (by omega)) hm hwidths
      (by simp; omega) (by rw [succeed_cursor, State.setCursor_cursor]; exact hrest)
    simp only [List.map_cons, readAll, hexec, htail]
    rfl

/-- Settles O20: the session's bits are the fields' bits (`writeAll_appends`), and the reads find them from position 0 on
(`readAll_of_stream`). -/
theorem fieldRoundTrip : Obligations.FieldRoundTrip := by
  unfold Obligations.FieldRoundTrip
  intro fs n s s1 s2 s3 s4 hi hidle hn hbegin hwrites hfinal hread
  cases hbegin
  rw [beginSession_opens hidle hn] at hwrites
  have hopen : (((s.openSlice n.toNat).setMode .write).succeed 0).Inv := inv_open hi hn
  obtain ⟨hwidths, happ⟩ := writeAll_appends hopen rfl hwrites
  cases hfinal
  rw [endSession_closes (m := .write) happ.mode] at hread
  cases hread
  rw [beginSession_opens rfl hn]
  have hstream : s2.bitsFrom 0 s2.cursor = fieldsBits (writtenFields fs) := happ.stream
  have hcursor : s2.cursor = fieldsWidth (writtenFields fs) := by simpa using congrArg List.length hstream
  have hlimit : s2.limit = n.toNat := happ.limit
  obtain ⟨hmem, -, -, hend⟩ := happ.inv
  rw [hcursor] at hstream
  refine readAll_of_stream (State.openSlice_inv hmem hn) rfl hwidths ?_ hstream
  show 0 + fieldsWidth (writtenFields fs) ≤ 8 * n.toNat
  omega

end Sys2Proof.Proofs.BitCodec
end

section
/-! Proofs for the payload framer (spec/41_payload_framer.md): what each of its commands answers in terms of the bytes of
PAYLOAD, the frame the two constructors build (R200, R201), and that the bytes after a valid frame's data affect nothing
(R220). -/

namespace Sys2Proof.Proofs.PayloadFramer
open Sys2Proof.Machine Sys2Proof.Proofs.BitCodec

variable {s : State} {m : List Host.Cell}

/-! ## The frame that is built (R200, R201) -/

/-- Byte i of a frame: header, data, then zeros. -/
theorem frameBytes_getD (pipe : Byte) (address : Option Half) (data : List Byte) (i : Nat) :
    (frameBytes pipe address data).getD i 0 =
      if i < headerLength address then (frameHeader pipe address data.length).getD i 0
      else data.getD (i - headerLength address) 0 := by
  have hlen := frameHeader_length pipe address data.length
  rw [frameBytes, List.append_assoc]
  split
  · rw [List.getD_append _ _ _ _ (by omega)]
  · rw [List.getD_append_right _ _ _ _ (by omega), hlen]
    by_cases hdata : i - headerLength address < data.length
    · rw [List.getD_append _ _ _ _ hdata]
    · rw [List.getD_append_right _ _ _ _ (by omega), List.getD_eq_default data 0 (by omega),
        List.getD_eq_getElem?_getD]
      exact List.getElem?_getD_replicate_default_eq _ _ _

/-- The frame of n bytes of WBUF that fit after the header: PAYLOAD holds its header, its data and zeros, and every other
byte and register is as before. -/
theorem buildFrame_spec (pipe : Byte) {address : Option Half} {n : Nat} (hwf : Memory.wf s.mem = true)
    (hn : headerLength address + n ≤ 32) : ∃ m, Memory.wf m = true ∧
      buildFrame pipe address n s =
        { s with mem := m, result := BitVec.ofNat 32 (headerLength address + n), err := none } ∧
      (∀ i, i < 32 → Memory.read m (0x40 + i) =
        if i < headerLength address then (frameHeader pipe address n).getD i 0
        else if i < headerLength address + n then s.wbuf (i - headerLength address) else 0) ∧
      ∀ a, ¬ (0x40 ≤ a ∧ a < 0x60) → Memory.read m a = s.byte a := by
  have hlen : (frameBytes pipe address (s.wbufBytes n)).length = 32 :=
    frameBytes_length _ _ _ (by rw [State.wbufBytes_length]; show n ≤ 32 - _; omega)
  obtain ⟨hm, hread⟩ := storedAt_writeBytes (a := 0x40) hwf (by omega) (by rw [hlen])
  rw [hlen] at hread
  refine ⟨_, hm, rfl, fun i hi => ?_, fun a ha => (hread a).trans (if_neg ha)⟩
  rw [hread, if_pos (by omega), Nat.add_sub_cancel_left, frameBytes_getD, State.wbufBytes_length]
  split
  · rfl
  · split
    · exact State.wbufBytes_getD s n _ (by omega)
    · exact List.getD_eq_default _ _ (by rw [State.wbufBytes_length]; omega)

/-- Settles O23: `buildFrame_spec` without an address. -/
theorem plNewBuildsFrame : Obligations.PlNewBuildsFrame := by
  unfold Obligations.PlNewBuildsFrame
  intro n pipe s hwf
  refine ⟨fun hlong => congrArg _ (needAtMost_gt hlong), fun hn => ?_⟩
  obtain ⟨m, hm, hbuild, hpayload, hrest⟩ := buildFrame_spec pipe (address := none) (n := n.toNat) hwf
    (by show 2 + _ ≤ 32; omega)
  refine ⟨m, hm, congrArg _ ((needAtMost_le hn).trans hbuild), fun i hi => (hpayload i hi).trans ?_, hrest⟩
  match i with
  | 0 | 1 | i + 2 => rfl

/-- Settles O24: `buildFrame_spec` with ARG0's address. -/
theorem plNewWithAddrBuildsFrame : Obligations.PlNewWithAddrBuildsFrame := by
  unfold Obligations.PlNewWithAddrBuildsFrame
  intro n pipe s hwf
  refine ⟨fun hlong => congrArg _ (needAtMost_gt hlong), fun hn => ?_⟩
  obtain ⟨m, hm, hbuild, hpayload, hrest⟩ := buildFrame_spec pipe (address := some s.argAddress) (n := n.toNat) hwf
    (by show 4 + _ ≤ 32; omega)
  refine ⟨m, hm, congrArg _ ((needAtMost_le hn).trans hbuild), fun i hi => (hpayload i hi).trans ?_, hrest⟩
  match i with
  | 0 | 1 | i + 4 => rfl
  | 2 => exact BitVec.extractLsb'_extractLsb'_of_le (by decide)
  | 3 => exact BitVec.extractLsb'_extractLsb'_of_le (by decide)

/-! ## The accessors (R210 to R214) -/

theorem plHeader_eq (s : State) : s.plHeader = if 128 ≤ (s.payload 1).toNat then 4 else 2 := by
  simp only [State.plHeader, State.plFlag_eq, decide_eq_true_eq]

/-- addr() is little-endian (spec/20_memory.md R79). -/
theorem plAddr_toNat (s : State) : s.plAddr.toNat = (s.payload 2).toNat + 256 * (s.payload 3).toNat := by
  rw [State.plAddr, BitVec.toNat_append, ← Nat.shiftLeft_add_eq_or_of_lt (s.payload 2).isLt, Nat.shiftLeft_eq]
  omega

theorem presentAddress_eq (s : State) : (0x10000 + s.plAddr.setWidth 32 : Word) =
    BitVec.ofNat 32 (0x10000 + ((s.payload 2).toNat + 256 * (s.payload 3).toNat)) := by
  rw [BitVec.ofNat_add, ← plAddr_toNat, BitVec.ofNat_toNat]
  rfl

theorem next_succeed {r r' : Word} (h : r = r') :
    (.next (s.succeed r) : Host.Outcome State Fault Refusal) = .next { s with result := r', err := none } := h ▸ rfl

/-- Settles O21: `State.plFlag_eq`, `plHeader_eq` and `State.plValid_iff` read flag(), hl() and valid() off byte 1. -/
theorem plAccessors : Obligations.PlAccessors := by
  unfold Obligations.PlAccessors
  intro s
  refine ⟨?pipe, rfl, ?address, ?headerLength, ?lenIsValid⟩ <;> refine next_succeed ?_
  case pipe => exact (BitVec.ofNat_toNat 32 _).symm
  case address => simp only [State.plFlag_eq, decide_eq_true_eq, presentAddress_eq]
  case headerLength =>
    rw [plHeader_eq]
    split <;> rfl
  case lenIsValid =>
    simp only [State.plValid_iff, plHeader_eq]
    rfl

/-! ## PL_PACKET and PL_DATA (R215, R216) -/

/-- Settles O22: `State.plValid_spec` bounds the packet of a valid frame. -/
theorem plPacket : Obligations.PlPacket := by
  unfold Obligations.PlPacket
  intro s
  refine ⟨fun hvalid => ⟨congrArg _ (needValid_true hvalid), ?_⟩, fun hinvalid => congrArg _ (needValid_false hinvalid)⟩
  obtain ⟨hpos, hfit, hheader⟩ := State.plValid_spec hvalid
  omega

/-- The data of a valid frame goes to the first bytes of WBUF. -/
theorem copyData_storedAt (hwf : Memory.wf s.mem = true) (hvalid : s.plValid = true) :
    StoredAt s.mem (copyData s).mem 0x20 (s.payloadBytes s.plHeader s.plLen) := by
  obtain ⟨-, hfit, -⟩ := State.plValid_spec hvalid
  exact storedAt_writeBytes (a := 0x20) hwf (by omega) (by rw [State.payloadBytes_length]; omega)

/-- Settles O25: `copyData_storedAt` after the two pre-checks. -/
theorem plDataCopies : Obligations.PlDataCopies := by
  unfold Obligations.PlDataCopies
  intro s hwf
  refine ⟨fun hbusy => congrArg _ (needMode_ne hbusy),
    fun hidle hinvalid => congrArg _ ((needMode_eq hidle).trans (needValid_false hinvalid)), fun hidle hvalid => ?_⟩
  obtain ⟨hm, hread⟩ := copyData_storedAt hwf hvalid
  rw [State.payloadBytes_length] at hread
  refine ⟨_, hm, congrArg _ ((needMode_eq hidle).trans (needValid_true hvalid)), fun i hi => ?_,
    fun a ha => (hread a).trans (if_neg ha)⟩
  rw [hread, if_pos (by omega), Nat.add_sub_cancel_left, State.payloadBytes_getD _ _ _ _ hi]

/-! ## The address filter and the pipe of an address (R230, R235) -/

theorem filterAccepts_iff (s : State) (n : Nat) (a : Bool) : filterAccepts s n a = true ↔
    a = false ∨ (s.payload 1).toNat < 128 ∨
      ∃ i, i < n ∧ s.filters[i]? = some (s.payload 3 ++ s.payload 2) := by
  have hlisted : (s.filters.take n).contains s.plAddr = true ↔
      ∃ i, i < n ∧ s.filters[i]? = some (s.payload 3 ++ s.payload 2) := by
    simp only [List.contains_iff_mem, List.mem_iff_getElem?, List.getElem?_take, Option.ite_none_right_eq_some,
      State.plAddr]
  simp only [filterAccepts, Bool.or_eq_true, Bool.not_eq_true', State.plFlag_eq, decide_eq_false_iff_not, Nat.not_le,
    hlisted, or_assoc]

theorem exec_plAddrFilter_within {n : BitVec 6} {a : Bool} (hn : a = false ∨ n.toNat ≤ 4) (s : State) :
    exec (.plAddrFilter n a) s = .next (s.succeed (if filterAccepts s n.toNat a then 1 else 0)) := by
  refine congrArg _ (needAtMost_le (show _ ≤ 4 from ?_))
  rcases hn with rfl | hn
  · exact Nat.zero_le 4
  · split <;> omega

/-- Settles O26: `filterAccepts_iff` decides the RESULT. -/
theorem addrFilter : Obligations.AddrFilter := by
  unfold Obligations.AddrFilter
  intro n a s
  refine ⟨?tooMany, fun hn => ⟨fun haccept => ?accepts, fun hdiscard => ?discards⟩⟩
  case tooMany =>
    rintro rfl hn
    exact congrArg _ (needAtMost_gt hn)
  case accepts =>
    rw [exec_plAddrFilter_within hn, if_pos ((filterAccepts_iff s n.toNat a).mpr haccept)]
    rfl
  case discards =>
    rw [exec_plAddrFilter_within hn, if_neg (mt (filterAccepts_iff s n.toNat a).mp hdiscard)]
    rfl

/-- Settles O27: the remainder lies in 0..255, and ARG0[7:0] decides it. -/
theorem pipeForAddr : Obligations.PipeForAddr := by
  unfold Obligations.PipeForAddr
  intro s
  refine ⟨_, rfl, ?_⟩
  have haddr : s.argAddress.toNat = s.arg0.toNat % 2 ^ 16 := by simp [State.argAddress]
  rw [haddr, BitVec.toNat_ofInt]
  omega

/-! ## The bytes after the data (R220) -/

/-- The first address after a frame's data. -/
def frameEnd (s : State) : Nat := 0x40 + s.plHeader + s.plLen

/-- The hypotheses of R220: memory m differs from that of s in the bytes after the data of its valid frame only. -/
structure OtherTrail (s : State) (m : List Host.Cell) : Prop where
  wf : Memory.wf s.mem = true
  wf' : Memory.wf m = true
  valid : s.plValid = true
  same : ∀ a, a < frameEnd s → Memory.read m a = s.byte a

/-- u' is u over a memory that has u's bytes below address e and the bytes of m from there on. -/
def SameBelow (e : Nat) (m : List Host.Cell) (u u' : State) : Prop :=
  ∃ m', u' = u.setMem m' ∧ ∀ a, Memory.read m' a = if a < e then u.byte a else Memory.read m a

/-! ### What a command does to two states that are the same below an address -/

section
variable {e : Nat} {u u' : State}

theorem same_succeed (r : Word) (h : SameBelow e m u u') : SameBelow e m (u.succeed r) (u'.succeed r) := by
  obtain ⟨m', rfl, hread⟩ := h
  exact ⟨m', rfl, hread⟩

theorem same_failed (x : Error) (h : SameBelow e m u u') : SameBelow e m (failed x u) (failed x u') := by
  obtain ⟨m', rfl, hread⟩ := h
  exact ⟨m', rfl, hread⟩

theorem same_needMode {mode : Mode} {f : State → State} (h : SameBelow e m u u') (hf : SameBelow e m (f u) (f u')) :
    SameBelow e m (needMode mode f u) (needMode mode f u') := by
  have hmode : u'.mode = u.mode := by obtain ⟨_, rfl, -⟩ := h; rfl
  by_cases hm : u.mode = mode
  · rw [needMode_eq hm, needMode_eq (hmode.trans hm)]
    exact hf
  · rw [needMode_ne hm, needMode_ne (hmode ▸ hm)]
    exact same_failed _ h

theorem same_needAtMost {n max : Nat} {x : Error} {f : State → State} (h : SameBelow e m u u')
    (hf : SameBelow e m (f u) (f u')) : SameBelow e m (needAtMost n max x f u) (needAtMost n max x f u') := by
  by_cases hn : n ≤ max
  · rw [needAtMost_le hn, needAtMost_le hn]
    exact hf
  · rw [needAtMost_gt (by omega), needAtMost_gt (by omega)]
    exact same_failed _ h

/-- A decode reads WBUF alone, and keeps the memory. -/
theorem decodeFrom_setMem {n : Nat} (h : ∀ i, i < n → Memory.read m (0x20 + i) = s.wbuf i) :
    decodeFrom n (s.setMem m) = (decodeFrom n s).setMem m := by
  obtain ⟨hok, herr⟩ := runDec_setMem (d := decMessage) (unread_setMem (s := s.openSlice n) h)
  unfold decodeFrom
  cases hrun : runDec decMessage (s.openSlice n) with
  | ok v t => rw [show runDec decMessage ((s.setMem m).openSlice n) = _ from hok v t hrun]; rfl
  | err x t => rw [show runDec decMessage ((s.setMem m).openSlice n) = _ from herr x t hrun]; rfl

theorem decodeFrom_mem (n : Nat) (s : State) : (decodeFrom n s).mem = s.mem := by
  rcases decodeFrom_cases n s with ⟨_, _, -, -, h⟩ | ⟨_, _, -, -, h⟩ <;> rw [h]

theorem same_decodeFrom {n : Nat} (hn : 0x20 + n ≤ e) (h : SameBelow e m u u') :
    SameBelow e m (decodeFrom n u) (decodeFrom n u') := by
  obtain ⟨m', rfl, hread⟩ := h
  have hslice : ∀ i, i < n → Memory.read m' (0x20 + i) = u.wbuf i := fun i hi => (hread _).trans (if_pos (by omega))
  refine ⟨m', decodeFrom_setMem hslice, fun a => ?_⟩
  rw [State.byte, decodeFrom_mem, hread]

end

namespace OtherTrail

/-! ### The frame's fields -/

theorem payload (h : OtherTrail s m) {i : Nat} (hi : i < s.plHeader + s.plLen) :
    (s.setMem m).payload i = s.payload i := h.same (0x40 + i) (by unfold frameEnd; omega)

theorem plFlag (h : OtherTrail s m) : (s.setMem m).plFlag = s.plFlag := by
  obtain ⟨hpos, -, hheader⟩ := State.plValid_spec h.valid
  rw [State.plFlag, h.payload (by omega), State.plFlag]

theorem plLen (h : OtherTrail s m) : (s.setMem m).plLen = s.plLen := by
  obtain ⟨hpos, -, hheader⟩ := State.plValid_spec h.valid
  rw [State.plLen, h.payload (by omega), State.plLen]

theorem plHeader (h : OtherTrail s m) : (s.setMem m).plHeader = s.plHeader := by
  rw [State.plHeader, h.plFlag, State.plHeader]

theorem plValid (h : OtherTrail s m) : (s.setMem m).plValid = s.plValid := by
  rw [State.plValid, h.plLen, h.plHeader, State.plValid]

/-- The address bytes belong to the header where the flag is set. -/
theorem plAddr (h : OtherTrail s m) (hflag : s.plFlag = true) : (s.setMem m).plAddr = s.plAddr := by
  have hheader : s.plHeader = 4 := if_pos hflag
  rw [State.plAddr, h.payload (by omega), h.payload (by omega), State.plAddr]

theorem data (h : OtherTrail s m) :
    (s.setMem m).payloadBytes s.plHeader s.plLen = s.payloadBytes s.plHeader s.plLen :=
  List.map_congr_left fun k hk => h.payload (by have := List.mem_range.mp hk; omega)

/-! ### The commands -/

theorem read_eq (h : OtherTrail s m) (a : Nat) :
    Memory.read m a = if a < frameEnd s then s.byte a else Memory.read m a := by
  split
  · exact h.same a ‹_›
  · rfl

theorem start (h : OtherTrail s m) : SameBelow (frameEnd s) m s (s.setMem m) := ⟨m, rfl, h.read_eq⟩

theorem setMsgOut (h : OtherTrail s m) (x : Option Message) : OtherTrail (s.setMsgOut x) m :=
  ⟨h.wf, h.wf', h.valid, h.same⟩

theorem filterAccepts_eq (h : OtherTrail s m) (n : Nat) (a : Bool) :
    filterAccepts (s.setMem m) n a = filterAccepts s n a := by
  unfold filterAccepts
  rw [h.plFlag]
  cases hflag : s.plFlag with
  | false => simp
  | true => rw [h.plAddr hflag]; rfl

theorem address_eq (h : OtherTrail s m) :
    (if (s.setMem m).plFlag then 0x10000 + (s.setMem m).plAddr.setWidth 32 else 0 : Word) =
      if s.plFlag then 0x10000 + s.plAddr.setWidth 32 else 0 := by
  rw [h.plFlag]
  split
  · rw [h.plAddr ‹_›]
  · rfl

/-- The two copies store the same bytes in WBUF, which lies below the frame. -/
theorem same_copyData (h : OtherTrail s m) : SameBelow (frameEnd s) m (copyData s) (copyData (s.setMem m)) := by
  obtain ⟨-, hfit, -⟩ := State.plValid_spec h.valid
  obtain ⟨-, hread⟩ := copyData_storedAt h.wf h.valid
  obtain ⟨-, hread'⟩ := copyData_storedAt (s := s.setMem m) h.wf' (h.plValid.trans h.valid)
  rw [h.plHeader, h.plLen, h.data] at hread'
  refine ⟨(copyData (s.setMem m)).mem, rfl, fun a => ?_⟩
  rw [hread', State.byte, hread, State.payloadBytes_length]
  by_cases hcopied : 0x20 ≤ a ∧ a < 0x20 + s.plLen
  · rw [if_pos hcopied, if_pos hcopied, if_pos (by unfold frameEnd; omega)]
  · rw [if_neg hcopied, if_neg hcopied]
    exact h.read_eq a

theorem same_needValid (h : OtherTrail s m) {f : State → State} (hf : SameBelow (frameEnd s) m (f s) (f (s.setMem m))) :
    SameBelow (frameEnd s) m (needValid f s) (needValid f (s.setMem m)) := by
  rw [needValid_true h.valid, needValid_true (h.plValid.trans h.valid)]
  exact hf

/-- A command that answers its RESULT from the frame alone. -/
theorem same_answer (h : OtherTrail s m) {r r' : Word} (hr : r' = r) :
    SameBelow (frameEnd s) m (s.succeed r) ((s.setMem m).succeed r') := hr ▸ same_succeed r h.start

/-- R220: each of these commands gives the same registers over either memory. -/
theorem same_exec (h : OtherTrail s m) {i : Instr}
    (hi : i ∈ [Instr.plPipe, .plLen, .plAddress, .plHeaderLength, .plLenIsValid, .plData, .plPacket, .unframeMsg] ∨
      ∃ n a, i = .plAddrFilter n a) :
    ∃ t t', exec i s = .next t ∧ exec i (s.setMem m) = .next t' ∧ SameBelow (frameEnd s) m t t' := by
  obtain ⟨hpos, hfit, hheader⟩ := State.plValid_spec h.valid
  cases i with
  | plPipe => exact ⟨_, _, rfl, rfl, h.same_answer (by rw [h.payload (by omega)])⟩
  | plLen => exact ⟨_, _, rfl, rfl, h.same_answer (by rw [h.plLen])⟩
  | plAddress => exact ⟨_, _, rfl, rfl, h.same_answer h.address_eq⟩
  | plHeaderLength => exact ⟨_, _, rfl, rfl, h.same_answer (by rw [h.plHeader])⟩
  | plLenIsValid => exact ⟨_, _, rfl, rfl, h.same_answer (by rw [h.plValid])⟩
  | plPacket => exact ⟨_, _, rfl, rfl, h.same_needValid (h.same_answer (by rw [h.plHeader, h.plLen]))⟩
  | plAddrFilter n a =>
    exact ⟨_, _, rfl, rfl, same_needAtMost h.start (h.same_answer (by rw [h.filterAccepts_eq]))⟩
  | plData =>
    refine ⟨_, _, rfl, rfl, same_needMode h.start (h.same_needValid ?_)⟩
    rw [h.plLen]
    exact same_succeed _ h.same_copyData
  | unframeMsg =>
    have hout := h.setMsgOut none
    refine ⟨_, _, rfl, rfl, same_needMode hout.start (hout.same_needValid ?_)⟩
    rw [hout.plLen]
    refine same_decodeFrom ?_ hout.same_copyData
    show 0x20 + s.plLen ≤ 0x40 + s.plHeader + s.plLen
    omega
  | _ => simp at hi

end OtherTrail

/-- Settles O28: `OtherTrail.same_exec` holds the two runs together. -/
theorem trailingBytesNeverRead : Obligations.TrailingBytesNeverRead := by
  unfold Obligations.TrailingBytesNeverRead
  intro i s t m hi hwf hwf' hvalid hsame hexec
  obtain ⟨u, u', hu, hu', m', rfl, hread⟩ := OtherTrail.same_exec ⟨hwf, hwf', hvalid, hsame⟩ hi
  cases hexec.symm.trans hu
  exact ⟨m', hu', hread⟩

end Sys2Proof.Proofs.PayloadFramer
end

section
/-! Proofs for the encoded lengths of spec/42_message_types.md R270 and spec/43_message_envelope.md R347: a value's length is
the sum of its fields' widths. -/

namespace Sys2Proof.Proofs.EncodedLengths
open Sys2Proof.Machine

/-! ## Limbs: five lengths -/

/-- R270: the discriminant and the interval, 17 bits, come before the optional reading. -/
theorem limbTypeSensor_width (r : Half) (d : Option Sensor) :
    fieldsWidth (LimbType.sensor r d).fields = 17 + fieldsWidth (optionFields Sensor.fields d) := by
  simp only [LimbType.fields, fieldsWidth_cons, codeField_width, vecField_width]
  omega

theorem limbTypeActuator_width (a : Actuator) : fieldsWidth (LimbType.actuator a).fields = 6 := by
  simp [LimbType.fields, Actuator.width]

/-- R270: an Actuator, a Sensor without a reading, and one with a reading of each of the three variants. -/
theorem limbType_width_mem (t : LimbType) : fieldsWidth t.fields ∈ [6, 18, 30, 46, 38] := by
  cases t with
  | actuator a => simp [limbTypeActuator_width]
  | sensor r d =>
    rw [limbTypeSensor_width]
    cases d with
    | none => simp [optionFields_width_none]
    | some x => cases x <;> simp [optionFields_width_some, Sensor.fields]

theorem limb_width (l : Limb) : fieldsWidth l.fields = 4 + fieldsWidth l.kind.fields := by simp [Limb.fields]

theorem limb_width_mem (l : Limb) : fieldsWidth l.fields ∈ [10, 22, 34, 50, 42] := by
  have hkind := limbType_width_mem l.kind
  simp only [limb_width, List.mem_cons, List.not_mem_nil, or_false] at hkind ⊢
  omega

/-! ## Commands and responses -/

theorem setLimb_width_bounds (l : Limb) :
    14 ≤ fieldsWidth (Command.setLimb l).fields ∧ fieldsWidth (Command.setLimb l).fields ≤ 54 := by
  have := l.width_bounds
  simp only [Command.fields, fieldsWidth_cons, codeField_width]
  omega

theorem setLimbType_width_bounds (t : LimbType) :
    10 ≤ fieldsWidth (Command.setLimbType t).fields ∧ fieldsWidth (Command.setLimbType t).fields ≤ 50 := by
  have := t.width_bounds
  simp only [Command.fields, fieldsWidth_cons, codeField_width]
  omega

/-- R313: the code and the three slots, 1 to 51 bits each. -/
theorem limbs_width_bounds (x y z : Option Limb) :
    7 ≤ fieldsWidth (Response.limbs x y z).fields ∧ fieldsWidth (Response.limbs x y z).fields ≤ 157 := by
  have := optionLimb_width_bounds x
  have := optionLimb_width_bounds y
  have := optionLimb_width_bounds z
  simp only [Response.fields, fieldsWidth_cons, fieldsWidth_append, codeField_width]
  omega

/-! ## Messages -/

/-- R329: the version and the code, six bits, come before the variant's own fields. -/
theorem message_bits_length (m : Message) : m.bits.length = 6 + fieldsWidth m.bodyFields := by
  simp only [Message.bits, fieldsBits_length, Message.fields, fieldsWidth_cons, codeField_width]
  omega

theorem messageMessage_length (d : MessageData) : (Message.message d).bits.length = 6 + fieldsWidth d.fields :=
  message_bits_length _

theorem relayMessage_length (n : Word) (d : MessageData) :
    (Message.relayMessage n d).bits.length = 38 + fieldsWidth d.fields := by
  simp only [message_bits_length, Message.bodyFields, fieldsWidth_cons, vecField_width]
  omega

theorem messageMessage_length_bounds (d : MessageData) :
    17 ≤ (Message.message d).bits.length ∧ (Message.message d).bits.length ≤ 170 := by
  have := d.width_bounds
  rw [messageMessage_length]
  omega

theorem relayMessage_length_bounds (n : Word) (d : MessageData) :
    49 ≤ (Message.relayMessage n d).bits.length ∧ (Message.relayMessage n d).bits.length ≤ 202 := by
  have := d.width_bounds
  rw [relayMessage_length]
  omega

theorem searchingNetwork_length (n : Word) : (Message.searchingNetwork n).bits.length = 38 := message_bits_length _

theorem network_length (n : Word) (a : Half) : (Message.network n a).bits.length = 54 := message_bits_length _

/-- R334: the twenty bytes, 8 bits each, after the node id. -/
theorem debugMessage_length (n : Word) (b : Vector Byte 20) : (Message.debugMessage n b).bits.length = 198 := by
  simp [message_bits_length, Message.bodyFields, byteFields_width]

theorem bytesFor_mono {k l : Nat} (h : k ≤ l) : bytesFor k ≤ bytesFor l := by
  unfold bytesFor
  omega

/-! ## The values at both ends (R347) -/

/-- R270: the longest Limb carries a TempHum reading. -/
def longestLimb : Limb := ⟨0, .sensor 0 (some (.tempHum 0 0))⟩

/-- R347: the longest MessageData fills the three slots of Response.Limbs. -/
def longestData : MessageData := .response none (.limbs (some longestLimb) (some longestLimb) (some longestLimb))

/-- R347: the shortest MessageData is a command of a code alone. -/
def shortestData : MessageData := .command 0 .info

theorem longestData_width : fieldsWidth longestData.fields = 164 := rfl

theorem shortestData_width : fieldsWidth shortestData.fields = 11 := rfl

/-- Settles O30: each length is the sum of the widths of a variant's fields, each bound the sum of its fields' bounds. -/
theorem encodedLengths : Obligations.EncodedLengths := by
  unfold Obligations.EncodedLengths
  simp only [fieldsBits_length]
  refine ⟨Board.width, ?battery, ?tempHum, ?current, Actuator.width, ?limbSensorNone, ?limbSensorSome, ?option,
    limbTypeActuator_width, fun l => ⟨limb_width l, limb_width_mem l⟩, NodeInfo.width, ?command, ?response, ?dataCommand,
    ?dataResponse, MessageData.width_bounds, fun d => ⟨messageMessage_length d, messageMessage_length_bounds d⟩,
    fun n d => ⟨relayMessage_length n d, relayMessage_length_bounds n d⟩, ?messageBytes, ?relayMessageBytes,
    ?searchingNetwork, ?network, ?debugMessage, fun m => bytesFor_mono m.bits_length_le, ?reached⟩
  case battery | tempHum | current => simp [Sensor.fields]
  case limbSensorNone => exact fun r => by rw [limbTypeSensor_width, optionFields_width_none]
  case limbSensorSome => exact fun r x => by rw [limbTypeSensor_width, optionFields_width_some]; omega
  case option =>
    exact ⟨optionFields_width_none _, optionFields_width_none _, optionFields_width_some _, optionFields_width_some _⟩
  case command => exact ⟨rfl, rfl, setLimb_width_bounds, fun _ => rfl, setLimbType_width_bounds⟩
  case response =>
    exact ⟨rfl, rfl, rfl, fun n => by simp [Response.fields, NodeInfo.width], limbs_width_bounds, fun _ => rfl⟩
  case dataCommand | dataResponse =>
    intros
    simp only [MessageData.fields, fieldsWidth_cons, codeField_width, vecField_width, responseIdField_width]
    omega
  case messageBytes => exact fun d => (messageMessage_length_bounds d).imp bytesFor_mono bytesFor_mono
  case relayMessageBytes => exact fun n d => (relayMessage_length_bounds n d).imp bytesFor_mono bytesFor_mono
  case searchingNetwork => exact fun n => ⟨searchingNetwork_length n, congrArg bytesFor (searchingNetwork_length n)⟩
  case network => exact fun n a => ⟨network_length n a, congrArg bytesFor (network_length n a)⟩
  case debugMessage => exact fun n b => ⟨debugMessage_length n b, congrArg bytesFor (debugMessage_length n b)⟩
  case reached =>
    exact ⟨⟨.relayMessage 0 longestData, by rw [relayMessage_length, longestData_width]⟩,
      ⟨.message shortestData, by rw [messageMessage_length, shortestData_width]⟩,
      ⟨longestData, by rw [messageMessage_length, longestData_width]⟩⟩

end Sys2Proof.Proofs.EncodedLengths
end

section
/-! MSG_OUT over every instruction and every action (spec/10_state.md R40, spec/43_message_envelope.md R345): only a decode
that goes through puts a Message there, and that Message is canonical. -/

namespace Sys2Proof.Proofs.MsgOut
open Sys2Proof.Machine

/-- MSG_OUT is None or a canonical Message. -/
def CanonicalOut (s : State) : Prop := ∀ m ∈ s.msgOut, m.Canonical

variable {s t : State}

theorem canonicalOut_of_eq (h : t.msgOut = s.msgOut) (hs : CanonicalOut s) : CanonicalOut t := by
  unfold CanonicalOut
  rwa [h]

theorem canonicalOut_of_none (h : t.msgOut = none) : CanonicalOut t := by simp [CanonicalOut, h]

/-! ## One instruction -/

theorem canonicalOut_wrote (h : Wrote s t) (hs : CanonicalOut s) : CanonicalOut t :=
  canonicalOut_of_eq (by rw [h.1]) hs

/-- An encoder's row leaves the port; a decoder's row may only empty it. -/
theorem canonicalOut_wireRow (c : Codec) (fs : List Field) (hs : CanonicalOut s) : CanonicalOut (wireRow c fs s) := by
  unfold wireRow
  cases c with
  | enc =>
    rcases writeFields_cases fs s with ⟨t, e, hw⟩ | ⟨t, e, hw⟩ <;> simp only [e]
    · exact canonicalOut_wrote hw hs
    · exact canonicalOut_of_eq (t.raise_msgOut _) (canonicalOut_wrote hw hs)
  | dec =>
    rcases runDec_frame (readFields fs) s with ⟨v, p, e⟩ | ⟨x, p, e⟩ <;> simp only [e]
    · exact canonicalOut_of_eq rfl hs
    · exact canonicalOut_of_none rfl

theorem canonicalOut_reservedRow (fs : List Field) (x : Error) (s : State) : CanonicalOut (reservedRow fs x s) := by
  unfold reservedRow
  rcases runDec_frame (readFields fs) s with ⟨v, p, e⟩ | ⟨x', p, e⟩ <;> simp only [e] <;>
    exact canonicalOut_of_none rfl

theorem frameRow_msgOut (c : Codec) (p : Byte) (a : Option Half) (d : List Byte) (s : State) :
    (frameRow c p a d s).msgOut = s.msgOut := by
  unfold frameRow
  cases c <;> dsimp only <;> split <;> rfl

/-- A command leaves the port, empties it, or puts there what a decode answered. -/
theorem canonicalOut_command {i : Instr} (hi : isCommand i = true) (h : exec i s = .next t) (hs : CanonicalOut s) :
    CanonicalOut t := by
  by_cases hc : i = .clearStatus
  · subst hc
    cases h
    exact canonicalOut_of_none rfl
  · obtain ⟨hkept, hdecoded⟩ := (command_leaves hi h).msgOut hc
    cases hd : decodes i with
    | false => exact canonicalOut_of_eq (hkept hd) hs
    | true =>
      obtain ⟨hok, hfailed⟩ := hdecoded hd
      by_cases herr : t.err = none
      · obtain ⟨m, hm, hcanon⟩ := hok herr
        simpa [CanonicalOut, hm] using hcanon
      · exact canonicalOut_of_none (hfailed herr)

theorem canonicalOut_exec {i : Instr} (h : exec i s = .next t) (hs : CanonicalOut s) : CanonicalOut t := by
  cases hi : isCommand i with
  | true => exact canonicalOut_command hi h hs
  | false =>
    cases i with
    | nop | bwBegin _ | bwWrite _ | bwFinalize | brBegin _ | brRead _ | brEnd | msgEncode _ | msgDecode _ | plNew _ _
    | plNewWithAddr _ _ | plPipe | plLen | plAddress | plHeaderLength | plLenIsValid | plData | plPacket
    | plAddrFilter _ _ | pipeForAddr | frameMsg _ _ | unframeMsg | clearStatus => cases hi
    | messageReserved _ | commandReserved _ | responseReserved _ | sensorReserved _ | actuatorReserved _ =>
      cases h; exact canonicalOut_reservedRow _ _ s
    | frameWithAddress _ _ _ _ | frameWithoutAddress _ _ _ =>
      cases h; exact canonicalOut_of_eq (frameRow_msgOut _ _ _ _ s) hs
    | _ => cases h; exact canonicalOut_wireRow _ _ hs

/-! ## One action -/

theorem hostRead_msgOut (offset : Nat) (w : Width) (s : State) : (hostRead offset w s).msgOut = s.msgOut := by
  unfold hostRead
  split <;> rfl

theorem writeRegister_msgOut (offset : Nat) (v : Word) (s : State) :
    (writeRegister offset v s).msgOut = s.msgOut := by
  unfold writeRegister
  split <;> rfl

theorem canonicalOut_issue {w : Word} (h : issue w s = .next t) (hs : CanonicalOut s) : CanonicalOut t := by
  cases hd : decodeCommand w with
  | some i => rw [issue_some hd] at h; exact canonicalOut_exec h hs
  | none => rw [issue_none hd] at h; cases h; exact canonicalOut_of_eq rfl hs

theorem canonicalOut_hostWrite {offset : Nat} {w : Width} {v : Word} (h : hostWrite offset w v s = .next t)
    (hs : CanonicalOut s) : CanonicalOut t := by
  unfold hostWrite at h
  split at h
  · cases h; exact canonicalOut_of_eq rfl hs
  · split at h
    · exact canonicalOut_issue h hs
    · split at h <;> cases h
      · exact canonicalOut_of_eq rfl hs
      · exact canonicalOut_of_eq (writeRegister_msgOut offset v s) hs

theorem canonicalOut_fetchRow {ty : WireType} (h : fetchRow ty s = .next t) (hs : CanonicalOut s) :
    CanonicalOut t := by
  unfold fetchRow at h
  rcases runDec_frame (decRow .dec ty) s with ⟨i, p, e⟩ | ⟨x, p, e⟩ <;> simp only [e] at h
  · exact canonicalOut_exec h hs
  · cases h; exact canonicalOut_of_none rfl

theorem canonicalOut_fetchFrame (h : fetchFrame s = .next t) (hs : CanonicalOut s) : CanonicalOut t := by
  unfold fetchFrame at h
  split at h
  · exact canonicalOut_exec h hs
  · cases h; exact canonicalOut_of_eq rfl hs

theorem canonicalOut_runAction {a : Action} (h : runAction a s = .next t) (hs : CanonicalOut s) : CanonicalOut t := by
  cases a with
  | read offset w => cases h; exact canonicalOut_of_eq (hostRead_msgOut offset w s) hs
  | write offset w v => exact canonicalOut_hostWrite h hs
  | putMsg m | takeMsg => cases h; exact canonicalOut_of_eq rfl hs
  | reset wbuf payload => cases h; exact canonicalOut_of_none rfl
  | encodeStep v => exact canonicalOut_exec h hs
  | decodeStep ty => exact canonicalOut_fetchRow h hs
  | encodeFrame f => exact canonicalOut_exec h hs
  | decodeFrame => exact canonicalOut_fetchFrame h hs

/-- Settles O14, by the kind of action: an instruction by `canonicalOut_exec`, and no other action fills the port. -/
theorem msgOutStaysCanonical : Obligations.MsgOutStaysCanonical := by
  unfold Obligations.MsgOutStaysCanonical
  intro s t hs h
  cases hp : s.pending with
  | nil => rw [step_nil hp] at h; cases h; exact hs
  | cons a rest => rw [step_cons hp] at h; exact canonicalOut_runAction h hs

end Sys2Proof.Proofs.MsgOut
end

section
/-! Proofs for the message commands (spec/43_message_envelope.md R335, R336 and R340 to R345): what each of them answers, in
terms of a Message's bits and of the bytes they are packed into. -/

namespace Sys2Proof.Proofs.MessageCommands
open Sys2Proof.Machine Sys2Proof.Proofs.ModeAndCv Sys2Proof.Proofs.ConditionCodes Sys2Proof.Proofs.BitCodec
  Sys2Proof.Proofs.PayloadFramer Sys2Proof.Proofs.EncodedLengths

variable {s t : State} {m : Message} {n : BitVec 6}

/-! ## The commands past their pre-checks -/

theorem exec_msgEncode_within (hidle : s.mode = .idle) (hin : s.msgIn = some m) (hn : n.toNat ≤ 32) :
    exec (.msgEncode n) s =
      .next (endWith (fun t => t.succeed (BitVec.ofNat 32 t.count)) (encodeInto n.toNat m s)) :=
  congrArg _ ((needMode_eq hidle).trans ((needMsgIn_some hin).trans (needAtMost_le hn)))

/-- A decode sets MSG_OUT whatever it held. -/
theorem decodeFrom_setMsgOut (n : Nat) (x : Option Message) (s : State) :
    decodeFrom n (s.setMsgOut x) = decodeFrom n s := by
  unfold decodeFrom runDec
  rw [show ((s.setMsgOut x).openSlice n).unread = (s.openSlice n).unread from rfl]
  cases decMessage (s.openSlice n).unread <;> rfl

theorem exec_msgDecode_within (hidle : s.mode = .idle) (hn : n.toNat ≤ 32) :
    exec (.msgDecode n) s = .next (decodeFrom n.toNat s) :=
  congrArg _ ((needMode_eq (s := s.setMsgOut none) hidle).trans
    ((needAtMost_le hn).trans (decodeFrom_setMsgOut _ _ s)))

theorem exec_unframeMsg_valid (hidle : s.mode = .idle) (hvalid : s.plValid = true) :
    exec .unframeMsg s = .next (decodeFrom s.plLen (copyData s)) :=
  congrArg _ ((needMode_eq (s := s.setMsgOut none) hidle).trans
    ((needValid_true (s := s.setMsgOut none) hvalid).trans (decodeFrom_setMsgOut _ none (copyData s))))

/-! ## MSG_ENCODE (R340) -/

/-- Settles O31: `encodeInto_ok` for a Message that fits, `encodeInto_err` for one that does not. -/
theorem msgEncode : Obligations.MsgEncode := by
  unfold Obligations.MsgEncode
  rintro n s ⟨hmem, -⟩
  refine ⟨fun hbusy => congrArg _ (needMode_ne hbusy),
    fun hidle hin => congrArg _ ((needMode_eq hidle).trans (needMsgIn_none hin)), fun m hidle hin => ⟨?_, ?_, ?_⟩⟩
  · intro hn
    exact congrArg _ ((needMode_eq hidle).trans ((needMsgIn_some hin).trans (needAtMost_gt hn)))
  · intro hn hfit
    obtain ⟨mem, hstored, henc⟩ := encodeInto_ok hmem hn hfit
    refine ⟨mem, hstored, ?_⟩
    rw [exec_msgEncode_within hidle hin hn, henc, endWith, State.count_of (k := m.bits.length) rfl rfl]
    rfl
  · intro hn hlong
    obtain ⟨gs, f, rest, mem, hfields, hfit, hover, hstored, henc⟩ := encodeInto_err hmem hn hlong
    refine ⟨gs, f, rest, mem, hfields, hfit, hover, hstored, ?_⟩
    rw [exec_msgEncode_within hidle hin hn, henc]
    rfl

/-! ## MSG_DECODE (R341) -/

/-- A slice that begins with the bits of any Message decodes to the canonical one (R345), and ends after those bits. -/
theorem decodeFrom_bits {n : Nat} {more : Bits} (h : s.bitsFrom 0 (8 * n) = m.bits ++ more) :
    decodeFrom n s =
      { s with limit := n, bytePos := m.bits.length / 8, bitPos := m.bits.length % 8, msgOut := some m.canon,
               result := BitVec.ofNat 32 (bytesFor m.bits.length), err := none } := by
  have hlen := congrArg List.length h
  rw [State.bitsFrom_length, List.length_append] at hlen
  obtain ⟨k, hk, -, -, -, hdec⟩ := decodeFrom_ok (by rw [h]; exact decMessage_bits m more)
  obtain rfl : k = m.bits.length := by omega
  exact hdec

/-- Settles O32: `decodeFrom_bits` where a Message stands there; nothing else is accepted (`decMessage_exact`). -/
theorem msgDecode : Obligations.MsgDecode := by
  unfold Obligations.MsgDecode
  intro n s _
  refine ⟨fun hbusy => congrArg _ (needMode_ne (s := s.setMsgOut none) hbusy),
    fun hidle hn => congrArg _ ((needMode_eq (s := s.setMsgOut none) hidle).trans (needAtMost_gt hn)),
    fun hidle hn => ⟨fun m more hcanon hbits => ?_, fun hnone => ?_⟩⟩ <;> rw [exec_msgDecode_within hidle hn]
  · rw [decodeFrom_bits hbits, hcanon]
  · rcases decMessage_total (s.bitsFrom 0 (8 * n.toNat)) with ⟨m, rest, hd⟩ | ⟨e, rest, hd⟩
    · obtain ⟨hbits, hcanon⟩ := decMessage_exact _ _ _ hd
      exact absurd ⟨m, rest, hcanon, hbits⟩ hnone
    · obtain ⟨he, k, hk, hdec⟩ := decodeFrom_err hd
      exact ⟨e, k, rest, he, hd, hk, congrArg _ hdec⟩

/-! ## All or nothing, up to the cursor (R342) -/

/-- A Message all of whose bits stand before the cursor, or an error and no Message. -/
def AllOrNothing (t : State) : Prop :=
  (t.err = none ∧ ∃ m, t.msgOut = some m ∧ m.bits = t.bitsFrom 0 t.cursor) ∨ (t.err ≠ none ∧ t.msgOut = none)

theorem cursor_eq_of_div_mod {k : Nat} (hbyte : t.bytePos = k / 8) (hbit : t.bitPos = k % 8) : t.cursor = k := by
  rw [State.cursor, hbyte, hbit]
  omega

theorem decodeFrom_allOrNothing (n : Nat) (s : State) : AllOrNothing (decodeFrom n s) := by
  rcases decMessage_total (s.bitsFrom 0 (8 * n)) with ⟨m, rest, hd⟩ | ⟨e, rest, hd⟩
  · obtain ⟨k, -, -, -, hbits, hdec⟩ := decodeFrom_ok hd
    rw [hdec]
    refine .inl ⟨rfl, m, rfl, ?_⟩
    rw [cursor_eq_of_div_mod (k := k) rfl rfl]
    exact hbits.symm
  · obtain ⟨-, k, -, hdec⟩ := decodeFrom_err hd
    rw [hdec]
    exact .inr ⟨by simp, rfl⟩

theorem exec_decode_allOrNothing {i : Instr} (hi : (∃ n, i = .msgDecode n) ∨ i = .unframeMsg)
    (h : exec i s = .next t) : AllOrNothing t := by
  have hfailed : ∀ e, AllOrNothing ((s.setMsgOut none).raise e) := fun e => .inr ⟨by simp, rfl⟩
  rcases hi with ⟨n, rfl⟩ | rfl <;> cases h
  · exact needMode_elim (hfailed _) fun _ => needAtMost_elim (hfailed _) (decodeFrom_allOrNothing _ _)
  · exact needMode_elim (hfailed _) fun _ => needValid_elim (hfailed _) (decodeFrom_allOrNothing _ _)

/-- Two streams that agree on what was used. -/
theorem bitsFrom_same_start {N k : Nat} {used rest : Bits} (hu : s.bitsFrom 0 N = used ++ rest)
    (hk : k + rest.length = N) (hsame : ∀ p, p < k → t.streamBit p = s.streamBit p) :
    ∃ more : Bits, more.length = rest.length ∧ t.bitsFrom 0 N = used ++ more := by
  subst hk
  have hlen := congrArg List.length hu
  rw [State.bitsFrom_length, List.length_append, Nat.add_right_cancel_iff] at hlen
  rw [State.bitsFrom_add] at hu ⊢
  obtain ⟨hused, -⟩ := List.append_inj hu ((State.bitsFrom_length ..).trans hlen)
  have hstart : t.bitsFrom 0 k = s.bitsFrom 0 k := bitsFrom_congr fun p _ hp => hsame p (by omega)
  exact ⟨_, State.bitsFrom_length .., congrArg (· ++ _) (hstart.trans hused)⟩

/-- A decode over another memory with the same bits before the cursor it leaves: a decoder answers from the bits it has
read (`local_decMessage`). -/
theorem decodeFrom_same_start {n : Nat} {mem : List Host.Cell}
    (hsame : ∀ p, p < (decodeFrom n s).cursor → (s.setMem mem).streamBit p = s.streamBit p) :
    decodeFrom n (s.setMem mem) = (decodeFrom n s).setMem mem := by
  rcases decMessage_total (s.bitsFrom 0 (8 * n)) with ⟨m, rest, hd⟩ | ⟨e, rest, hd⟩
  · obtain ⟨k, hk, -, -, -, hdec⟩ := decodeFrom_ok hd
    obtain ⟨used, hu, hlocal⟩ := local_decMessage.ok _ _ _ hd
    rw [hdec, cursor_eq_of_div_mod (k := k) rfl rfl] at hsame
    obtain ⟨more, hmore, hu'⟩ := bitsFrom_same_start hu hk hsame
    obtain ⟨k', hk', -, -, -, hdec'⟩ := decodeFrom_ok (s := s.setMem mem) (by rw [hu']; exact hlocal more hmore)
    obtain rfl : k' = k := by omega
    rw [hdec, hdec']
    rfl
  · obtain ⟨-, k, hk, hdec⟩ := decodeFrom_err hd
    obtain ⟨-, -, used, hu, -, hlocal⟩ := local_decMessage.err _ _ _ hd
    rw [hdec, cursor_eq_of_div_mod (k := k) rfl rfl] at hsame
    obtain ⟨more, hmore, hu'⟩ := bitsFrom_same_start hu hk hsame
    obtain ⟨-, k', hk', hdec'⟩ := decodeFrom_err (s := s.setMem mem) (by rw [hu']; exact hlocal more hmore)
    obtain rfl : k' = k := by omega
    rw [hdec, hdec']
    rfl

theorem decodeFrom_cursor_le (n : Nat) (s : State) : (decodeFrom n s).cursor ≤ 8 * n := by
  rcases decodeFrom_cases n s with ⟨_, k, -, hk, h⟩ | ⟨_, k, -, hk, h⟩ <;>
    rwa [h, cursor_eq_of_div_mod (k := k) rfl rfl]

theorem wbuf_of_storedAt {old : List Host.Cell} {bs : List Byte} {i : Nat} (h : StoredAt old s.mem 0x20 bs)
    (hi : i < bs.length) : s.wbuf i = bs.getD i 0 := by
  obtain ⟨-, hread⟩ := h
  have hwbuf := hread (0x20 + i)
  rwa [if_pos (by omega), Nat.add_sub_cancel_left] at hwbuf

/-- The stream of the copied data is that of the frame's data. -/
theorem copyData_streamBit (hwf : Memory.wf s.mem = true) (hvalid : s.plValid = true) {p : Nat} (hp : p < 8 * s.plLen) :
    (copyData s).streamBit p = (s.payload (s.plHeader + p / 8)).getLsbD (7 - p % 8) := by
  rw [State.streamBit, wbuf_of_storedAt (copyData_storedAt hwf hvalid) (by rw [State.payloadBytes_length]; omega),
    State.payloadBytes_getD _ _ _ _ (by omega)]

/-- len(), hl() and valid() are read off byte 1 of the frame alone. -/
theorem frameShape_eq (h : t.payload 1 = s.payload 1) :
    t.plLen = s.plLen ∧ t.plHeader = s.plHeader ∧ t.plValid = s.plValid := by
  have hlen : t.plLen = s.plLen := by rw [State.plLen, h, State.plLen]
  have hheader : t.plHeader = s.plHeader := by rw [State.plHeader, State.plFlag, h, State.plHeader, State.plFlag]
  exact ⟨hlen, hheader, by rw [State.plValid, hlen, hheader, State.plValid]⟩

/-- Settles O33: `exec_decode_allOrNothing` for the outcome, `decodeFrom_same_start` for what it depends on. -/
theorem decodeStopsAtFirstFailure : Obligations.DecodeStopsAtFirstFailure := by
  unfold Obligations.DecodeStopsAtFirstFailure
  refine ⟨fun i s t hi _ h => exec_decode_allOrNothing hi h, ?msgDecode, ?unframeMsg⟩
  case msgDecode =>
    intro n s t mem _ _ hidle hn h hsame
    rw [exec_msgDecode_within hidle hn] at h
    cases h
    exact (exec_msgDecode_within (s := s.setMem mem) hidle hn).trans (congrArg _ (decodeFrom_same_start hsame))
  case unframeMsg =>
    rintro s t mem ⟨hwf, -⟩ hwf' hidle hvalid h hbyte hsame
    obtain ⟨hlen, hheader, hvalid'⟩ := frameShape_eq (t := s.setMem mem) hbyte
    rw [hvalid] at hvalid'
    rw [exec_unframeMsg_valid hidle hvalid] at h
    cases h
    have hcopied : ∀ p, p < (decodeFrom s.plLen (copyData s)).cursor →
        ((copyData s).setMem (copyData (s.setMem mem)).mem).streamBit p = (copyData s).streamBit p := by
      intro p hp
      have hin : p < 8 * s.plLen := hp.trans_le (decodeFrom_cursor_le _ _)
      have hcopy := copyData_streamBit (s := s.setMem mem) hwf' hvalid' (hlen ▸ hin)
      rw [hheader] at hcopy
      have hdata := hsame p hp
      rw [Nat.add_assoc] at hdata
      exact hcopy.trans (hdata.trans (copyData_streamBit hwf hvalid hin).symm)
    refine ⟨(copyData (s.setMem mem)).mem, (exec_unframeMsg_valid (s := s.setMem mem) hidle hvalid').trans ?_⟩
    rw [hlen]
    exact congrArg _ (decodeFrom_same_start hcopied)

/-! ## The head of a Message (R335, R336) -/

/-- The first bits of a field are its value divided by the weight of the rest. -/
theorem bitsOf_add (v a b : Nat) : bitsOf v (a + b) = bitsOf (v / 2 ^ b) a ++ bitsOf v b := by
  induction a with
  | zero => simp [bitsOf]
  | succ a ih =>
    rw [Nat.succ_add, bitsOf, ih, bitsOf, List.cons_append, Nat.testBit_div_two_pow]

theorem bitsFrom_byte (s : State) : s.bitsFrom 0 8 = bitsOf (s.wbuf 0).toNat 8 := rfl

/-- A slice of at least one byte begins with byte 0: the version, the code, two bits more. -/
theorem bitsFrom_head (s : State) {n : Nat} (hn : 0 < n) : s.bitsFrom 0 (8 * n) =
    bitsOf ((s.wbuf 0).toNat / 64) 2 ++ (bitsOf ((s.wbuf 0).toNat / 4) 4 ++
      (bitsOf (s.wbuf 0).toNat 2 ++ s.bitsFrom 8 (8 * n - 8))) := by
  rw [show 8 * n = 8 + (8 * n - 8) by omega, State.bitsFrom_add, bitsFrom_byte, bitsOf_add _ 2 6, bitsOf_add _ 4 2]
  simp

/-- A decode that ends in e after k bits of the slice. -/
theorem exec_msgDecode_fails {e : Error} {rest : Bits} {k : Nat} (hidle : s.mode = .idle) (hn : n.toNat ≤ 32)
    (hd : decMessage (s.bitsFrom 0 (8 * n.toNat)) = .err e rest) (hk : k + rest.length = 8 * n.toNat) :
    exec (.msgDecode n) s = .next
      { s with limit := n.toNat, bytePos := k / 8, bitPos := k % 8, msgOut := none, result := 0, err := some e } := by
  obtain ⟨-, k', hk', hdec⟩ := decodeFrom_err hd
  obtain rfl : k' = k := by omega
  rw [exec_msgDecode_within hidle hn, hdec]

/-- Settles O35: no bit of an empty slice can be read; in any other, the first two bits are byte 0 divided by 64. -/
theorem versionGate : Obligations.VersionGate := by
  unfold Obligations.VersionGate
  refine fun n s _ hidle => ⟨fun h0 => ?_, fun hpos hn hbyte => ?_⟩
  · have hd : decMessage (s.bitsFrom 0 (8 * n.toNat)) = .err .bufferUnderflow [] := by rw [h0]; rfl
    rw [exec_msgDecode_fails (k := 0) hidle (by omega) hd (by simp [h0]), h0]
  · have hlt := (s.wbuf 0).isLt
    have hd := decMessage_version ((s.wbuf 0).toNat / 64) (bitsOf ((s.wbuf 0).toNat / 4) 4 ++
      (bitsOf (s.wbuf 0).toNat 2 ++ s.bitsFrom 8 (8 * n.toNat - 8))) (by omega) (by show _ ≠ 1; omega)
    rw [← bitsFrom_head s hpos] at hd
    exact exec_msgDecode_fails (k := 2) hidle hn hd (by simp; omega)

/-- Settles O36: the version is 1, and the code is byte 0 divided by 4, without its version. -/
theorem reservedMessageCode : Obligations.ReservedMessageCode := by
  unfold Obligations.ReservedMessageCode
  intro n s _ hidle hpos hn hlo hhi
  have hd : decMessage (s.bitsFrom 0 (8 * n.toNat)) =
      .err .invalidMessage (bitsOf (s.wbuf 0).toNat 2 ++ s.bitsFrom 8 (8 * n.toNat - 8)) := by
    rw [bitsFrom_head s hpos, show (s.wbuf 0).toNat / 64 = 1 by omega, decMessage_body, ← bitsOf_mod _ 4 4 le_rfl]
    rcases decMessageBody_code ((s.wbuf 0).toNat / 4 % 2 ^ 4) _ (by omega) with ⟨-, hbad⟩ | ⟨hcode, -⟩
    · exact hbad
    · omega
  exact exec_msgDecode_fails (k := 6) hidle hn hd (by simp; omega)

/-! ## FRAME_MSG (R343) -/

/-- The address of the frame that FRAME_MSG builds. -/
def frameAddress (a : Bool) (s : State) : Option Half := if a then some s.argAddress else none

theorem headerLength_frameAddress (a : Bool) (s : State) : headerLength (frameAddress a s) = if a then 4 else 2 := by
  cases a <;> rfl

theorem message_bytes_le (m : Message) : bytesFor m.bits.length ≤ 26 := bytesFor_mono m.bits_length_le

/-- Bytes that stand in WBUF are read back as one list. -/
theorem wbufBytes_of_stored {old : List Host.Cell} {bs : List Byte} (h : StoredAt old s.mem 0x20 bs) :
    s.wbufBytes bs.length = bs := by
  refine List.ext_getElem (State.wbufBytes_length ..) fun i _ hi => ?_
  simp [State.wbufBytes, wbuf_of_storedAt h hi, List.getD, hi]

/-- FRAME_MSG of a Message: every Message fits after either header, so its bytes go to WBUF and the frame of them to
PAYLOAD. -/
theorem exec_frameMsg_some (a : Bool) (pipe : Byte) (hwf : Memory.wf s.mem = true) (hidle : s.mode = .idle)
    (hin : s.msgIn = some m) :
    ∃ mem mem', StoredAt s.mem mem 0x20 (packBits m.bits) ∧
      StoredAt mem mem' 0x40 (frameBytes pipe (frameAddress a s) (packBits m.bits)) ∧
      exec (.frameMsg a pipe) s = .next
        { s with mem := mem', limit := if a then 28 else 30, bytePos := m.bits.length / 8,
                 bitPos := m.bits.length % 8, cv := s.cv || decide (¬ m.Canonical),
                 result := BitVec.ofNat 32 ((if a then 4 else 2) + bytesFor m.bits.length), err := none } := by
  have hbits := m.bits_length_le
  have hbytes := message_bytes_le m
  have hheader := headerLength_frameAddress a s
  have hcapacity : Config.payloadSize - headerLength (frameAddress a s) = if a then 28 else 30 := by
    rw [hheader]; cases a <;> rfl
  have hlimit : 28 ≤ (if a then 28 else 30) ∧ (if a then 28 else 30) ≤ 32 := by cases a <;> decide
  obtain ⟨mem, hstored, henc⟩ := encodeInto_ok (m := m) (n := if a then 28 else 30) hwf hlimit.2 (by omega)
  have hlen : (frameBytes pipe (frameAddress a s) (packBits m.bits)).length = 32 :=
    frameBytes_length _ _ _ (by rw [hcapacity, packBits_length]; omega)
  refine ⟨mem, _, hstored, storedAt_writeBytes hstored.1 (by omega) (by rw [hlen]), ?_⟩
  have hexec : exec (.frameMsg a pipe) s =
      .next (endWith (fun t => buildFrame pipe (frameAddress a s) t.count t)
        (encodeInto (Config.payloadSize - headerLength (frameAddress a s)) m s)) :=
    congrArg _ ((needMode_eq hidle).trans (needMsgIn_some hin))
  rw [hexec, hcapacity, henc, endWith, State.count_of (k := m.bits.length) rfl rfl, buildFrame, hheader,
    ← packBits_length, wbufBytes_of_stored hstored]
  rfl

/-- The header with ARG0's address, written out (R201, R343). -/
theorem frameBytes_frameAddress (a : Bool) (pipe : Byte) (s : State) (data : List Byte) :
    frameBytes pipe (frameAddress a s) data =
      (if a then [pipe, BitVec.ofNat 8 (0x80 + data.length), s.arg0.extractLsb' 0 8, s.arg0.extractLsb' 8 8]
        else [pipe, BitVec.ofNat 8 data.length]) ++ data ++
        List.replicate ((if a then 28 else 30) - data.length) 0 := by
  cases a with
  | false => rfl
  | true =>
    have hlow : s.argAddress.extractLsb' 0 8 = s.arg0.extractLsb' 0 8 :=
      BitVec.extractLsb'_extractLsb'_of_le (by decide)
    have hhigh : s.argAddress.extractLsb' 8 8 = s.arg0.extractLsb' 8 8 :=
      BitVec.extractLsb'_extractLsb'_of_le (by decide)
    simp only [if_true, ← hlow, ← hhigh]
    rfl

/-- Settles O37: `exec_frameMsg_some` with the frame written out. -/
theorem frameMsg : Obligations.FrameMsg := by
  unfold Obligations.FrameMsg
  rintro a pipe s ⟨hwf, -⟩
  refine ⟨fun hbusy => congrArg _ (needMode_ne hbusy),
    fun hidle hin => congrArg _ ((needMode_eq hidle).trans (needMsgIn_none hin)), fun m hidle hin => ?_⟩
  obtain ⟨mem, mem', hstored, hframe, hexec⟩ := exec_frameMsg_some a pipe hwf hidle hin
  rw [frameBytes_frameAddress, packBits_length] at hframe
  exact ⟨mem, mem', hstored, hframe, message_bytes_le m, hexec⟩

/-! ## UNFRAME_MSG (R344) -/

theorem decodeFrom_limit (n : Nat) (s : State) : (decodeFrom n s).limit = n := by
  rcases decodeFrom_cases n s with ⟨_, _, -, -, h⟩ | ⟨_, _, -, -, h⟩ <;> rw [h]

/-- Settles O38: both commands are the same decode, over the copied data. -/
theorem unframeMsg : Obligations.UnframeMsg := by
  unfold Obligations.UnframeMsg
  rintro s ⟨hwf, -⟩
  refine ⟨fun hbusy => congrArg _ (needMode_ne (s := s.setMsgOut none) hbusy), fun hidle hinvalid =>
    congrArg _ ((needMode_eq (s := s.setMsgOut none) hidle).trans (needValid_false hinvalid)), fun hidle hvalid => ?_⟩
  obtain ⟨-, hfit, -⟩ := State.plValid_spec hvalid
  have hlen : (BitVec.ofNat 6 s.plLen).toNat = s.plLen := by rw [BitVec.toNat_ofNat]; omega
  refine ⟨(copyData s).mem, _, copyData_storedAt hwf hvalid, exec_unframeMsg_valid hidle hvalid, ?_,
    decodeFrom_limit _ _, decodeFrom_mem _ _⟩
  rw [exec_msgDecode_within (s := { s with mem := (copyData s).mem }) hidle (by omega), hlen]
  rfl

/-! ## The canonical values (R345) -/

theorem writeBits_cv (bs : Bits) (s : State) : (s.writeBits bs).cv = s.cv := by
  induction bs generalizing s with
  | nil => rfl
  | cons b bs ih =>
    have hbit : (s.writeBit b).cv = s.cv := by unfold State.writeBit; dsimp only; split <;> rfl
    rw [State.writeBits, ih, hbit]

/-- BitWrite of a field without a violation leaves CV, whether or not the field fits. -/
theorem bitWrite_cv {f : Field} (hf : f.violates = false) (s : State) :
    (∃ t, bitWrite f.value f.width (s.flagIf f.violation) = .ok t ∧ t.cv = s.cv) ∨
      ∃ e t, bitWrite f.value f.width (s.flagIf f.violation) = .err e t ∧ t.cv = s.cv := by
  obtain ⟨hstep, hmask⟩ := Bool.or_eq_false_iff.mp hf
  unfold bitWrite
  simp only [hstep, hmask, State.flagIf_false]
  split
  · exact .inr ⟨_, _, rfl, rfl⟩
  · exact .inl ⟨_, rfl, writeBits_cv _ _⟩

/-- An encoder whose fields have no violation leaves CV, in every state, however it ends. -/
theorem writeFields_cv {fs : List Field} (hfs : violations fs = false) {f : State → State}
    (hend : ∀ t, (f t).cv = t.cv) (s : State) : (endWith f (writeFields fs s)).cv = s.cv := by
  induction fs generalizing s with
  | nil => exact hend s
  | cons g gs ih =>
    obtain ⟨hg, hgs⟩ := Bool.or_eq_false_iff.mp ((violations_cons g gs).symm.trans hfs)
    rcases bitWrite_cv hg s with ⟨t, e, ht⟩ | ⟨x, t, e, ht⟩ <;> rw [writeFields, e]
    · exact (ih hgs t).trans ht
    · exact ht

/-- MSG_ENCODE of a canonical Message leaves CV (R345). -/
theorem exec_msgEncode_cv (hin : s.msgIn = some m) (hcanon : m.Canonical) (h : exec (.msgEncode n) s = .next t) :
    t.cv = s.cv := by
  have hclean : violations m.fields = false := by rw [Message.violations_fields, decide_eq_false (not_not.mpr hcanon)]
  cases h
  refine needMode_elim (P := fun t => t.cv = s.cv) rfl fun _ => ?_
  rw [needMsgIn_some hin]
  exact needAtMost_elim (P := fun t => t.cv = s.cv) rfl
    (writeFields_cv hclean (f := fun t => t.succeed (BitVec.ofNat 32 t.count)) (fun _ => rfl) (s.openSlice n.toNat))

/-- What MSG_DECODE leaves in MSG_OUT is canonical. -/
theorem exec_msgDecode_canonical (h : exec (.msgDecode n) s = .next t) (hout : t.msgOut = some m) : m.Canonical := by
  obtain ⟨-, hdecoded⟩ := (command_leaves rfl h).msgOut (by simp)
  obtain ⟨hok, hfailed⟩ := hdecoded rfl
  by_cases herr : t.err = none
  · obtain ⟨m', hm', hcanon⟩ := hok herr
    rw [hm'] at hout
    cases hout
    exact hcanon
  · rw [hfailed herr] at hout
    cases hout

/-- The stream of WBUF begins with the bits that were packed into it. -/
theorem bitsFrom_of_packed {old : List Host.Cell} {bs : Bits} {n : Nat}
    (h : StoredAt old s.mem 0x20 (packBits bs)) (hn : bytesFor bs.length ≤ n) :
    ∃ more : Bits, s.bitsFrom 0 (8 * n) = bs ++ more := by
  have hlen : bs.length ≤ 8 * bytesFor bs.length := by unfold bytesFor; omega
  refine ⟨s.bitsFrom (0 + bs.length) (8 * n - bs.length), ?_⟩
  rw [show 8 * n = bs.length + (8 * n - bs.length) by omega, State.bitsFrom_add, Nat.add_sub_cancel_left]
  refine congrArg (· ++ _) (List.ext_getElem (State.bitsFrom_length ..) fun p _ hp => ?_)
  rw [bitsFrom_getElem, Nat.zero_add, State.streamBit, wbuf_of_storedAt h (by rw [packBits_length]; omega),
    packBits_stream bs p (by omega)]
  simp [List.getD, hp]

/-- Every canonical Message is decoded from a WBUF that holds its bits. -/
theorem exists_decode_of_canonical (hcanon : m.Canonical) :
    ∃ s t : State, s.Inv ∧ s.mode = .idle ∧ exec (.msgDecode 32) s = .next t ∧ t.msgOut = some m := by
  have hbytes := message_bytes_le m
  have hreset : State.reset.Inv := Invariant.resetMeetsInvariant
  have hlen : 0x20 + (packBits m.bits).length ≤ 0x60 := by rw [packBits_length]; omega
  have hstored := storedAt_writeBytes hreset.1 le_rfl hlen
  obtain ⟨more, hbits⟩ := bitsFrom_of_packed (s := State.reset.storeWbuf (packBits m.bits)) (n := 32)
    hstored (by omega)
  refine ⟨State.reset.storeWbuf (packBits m.bits), _, inv_store hreset _ _ le_rfl hlen, rfl,
    exec_msgDecode_within rfl (by decide), ?_⟩
  rw [show (32 : BitVec 6).toNat = 32 from rfl, decodeFrom_bits hbits, hcanon]

theorem command_canon_eq_self {c : Command} (hlimb : ∀ l, c ≠ .setLimb l) (htoggle : ∀ i, c ≠ .toggleLimb i) :
    c.canon = c := by
  cases c with
  | setLimb l => exact absurd rfl (hlimb l)
  | toggleLimb i => exact absurd rfl (htoggle i)
  | _ => rfl

theorem response_canon_eq_self {r : Response} (hlimbs : ∀ x y z, r ≠ .limbs x y z) : r.canon = r := by
  cases r with
  | limbs x y z => exact absurd rfl (hlimbs x y z)
  | _ => rfl

/-- Settles O39: canon by its equations, what MSG_DECODE produces by `exec_msgDecode_canonical` and
`exists_decode_of_canonical`, CV by `exec_msgEncode_cv`. -/
theorem canonicalValues : Obligations.CanonicalValues := by
  unfold Obligations.CanonicalValues
  refine ⟨⟨canonLimbId_toNat, canonCommandId_toNat, rfl, fun v => ⟨fun h => if_pos h, fun h => if_neg h⟩⟩, ?fields,
    Message.canon_idem, fun n s t m _ _ h hout => exec_msgDecode_canonical h hout,
    fun m hcanon => exists_decode_of_canonical hcanon, fun n s t m hin hcanon h => exec_msgEncode_cv hin hcanon h⟩
  case fields =>
    exact ⟨fun _ => rfl, fun _ _ => rfl, fun _ => rfl, fun _ _ => rfl, fun _ _ => rfl, fun _ _ => rfl, fun _ _ => rfl,
      fun _ => rfl, fun _ => rfl, fun _ => rfl, fun _ => command_canon_eq_self, fun _ _ _ => rfl,
      fun _ => response_canon_eq_self⟩

end Sys2Proof.Proofs.MessageCommands
end

section
/-! Proofs for the round trips of spec/43_message_envelope.md R346: a Message through WBUF, and a Message through a frame
from one block to another. -/

namespace Sys2Proof.Proofs.MessageRoundTrips
open Sys2Proof.Machine Sys2Proof.Proofs.PayloadFramer Sys2Proof.Proofs.MessageCommands

variable {s t r : State} {m : Message}

/-! ## Through WBUF (R346) -/

/-- MSG_ENCODE n=32 that succeeds ran in IDLE, and 32 bytes hold every Message: t is what R340 says of one that fits. -/
theorem exec_msgEncode_32 (hi : s.Inv) (hin : s.msgIn = some m) (h : exec (.msgEncode 32) s = .next t)
    (herr : t.err = none) : t.mode = .idle ∧ StoredAt s.mem t.mem 0x20 (packBits m.bits) ∧
      t.cv = (s.cv || decide (¬ m.Canonical)) ∧ t.result = BitVec.ofNat 32 (bytesFor m.bits.length) := by
  have hlen := m.bits_length_le
  obtain ⟨hbusy, -, hidle⟩ := msgEncode 32 s hi
  by_cases hmode : s.mode = .idle
  · obtain ⟨-, hfits, -⟩ := hidle m hmode hin
    obtain ⟨mem, hstored, hexec⟩ := hfits (by decide) (by show _ ≤ 8 * 32; omega)
    cases h.symm.trans hexec
    exact ⟨hmode, hstored, rfl, rfl⟩
  · cases h.symm.trans (hbusy hmode)
    cases herr

/-- Settles O40: what MSG_ENCODE packed (`exec_msgEncode_32`), any slice that holds it begins with
(`bitsFrom_of_packed`), and decodes to the canonical Message (`decodeFrom_bits`). -/
theorem messageRoundTrip : Obligations.MessageRoundTrip := by
  unfold Obligations.MessageRoundTrip
  intro m s t hi hin h herr
  obtain ⟨hidle, hstored, hcv, hresult⟩ := exec_msgEncode_32 hi hin h herr
  have hbytes := message_bytes_le m
  have hcount : t.result.toNat = bytesFor m.bits.length := by rw [hresult, BitVec.toNat_ofNat]; omega
  refine ⟨?violation, by omega, fun n hk hn => ?decoded⟩
  case violation =>
    by_cases hcanon : m.Canonical
    · exact .inl hcanon
    · exact .inr (by simp [hcv, hcanon])
  case decoded =>
    obtain ⟨more, hbits⟩ := bitsFrom_of_packed (n := n.toNat) hstored (by omega)
    refine ⟨_, exec_msgDecode_within hidle hn, ?_⟩
    rw [decodeFrom_bits hbits]
    exact ⟨rfl, rfl, hresult.symm, congrArg some⟩

/-! ## Through a frame (R343, R344) -/

/-- PAYLOAD holds the frame of data that fits after its header. -/
structure HoldsFrame (r : State) (pipe : Byte) (address : Option Half) (data : List Byte) : Prop where
  fits : headerLength address + data.length ≤ 32
  bytes : ∀ i, i < 32 → r.payload i = (frameBytes pipe address data).getD i 0

namespace HoldsFrame
variable {pipe : Byte} {address : Option Half} {data : List Byte}

/-- Byte 1 as a number: the flag in bit 7, the length below it (R111). -/
theorem payload_one (h : HoldsFrame r pipe address data) :
    (r.payload 1).toNat = (if address.isSome then 128 else 0) + data.length := by
  have hfits := h.fits
  have hbyte : r.payload 1 = lengthByte address data.length := by
    rw [h.bytes 1 (by omega), frameBytes_getD]
    cases address <;> rfl
  rw [hbyte, lengthByte, BitVec.toNat_ofNat]
  split <;> omega

theorem plLen (h : HoldsFrame r pipe address data) : r.plLen = data.length := by
  have hfits := h.fits
  have hheader := headerLength_cases address
  rw [State.plLen, h.payload_one]
  split <;> omega

theorem plHeader (h : HoldsFrame r pipe address data) : r.plHeader = headerLength address := by
  have hfits := h.fits
  have hheader := headerLength_cases address
  rw [plHeader_eq, h.payload_one, headerLength]
  split <;> rename_i hflag
  · exact if_pos (by omega)
  · exact if_neg (by omega)

theorem plValid (h : HoldsFrame r pipe address data) (hdata : 0 < data.length) : r.plValid = true := by
  have hfits := h.fits
  rw [State.plValid_iff, h.plLen, h.plHeader]
  omega

theorem payloadBytes (h : HoldsFrame r pipe address data) : r.payloadBytes r.plHeader r.plLen = data := by
  have hfits := h.fits
  rw [h.plHeader, h.plLen]
  refine List.ext_getElem (State.payloadBytes_length ..) fun i _ hi => ?_
  have hbyte := h.bytes (headerLength address + i) (by omega)
  rw [frameBytes_getD, if_neg (by omega), Nat.add_sub_cancel_left] at hbyte
  simp [State.payloadBytes, hbyte, List.getD, hi]

end HoldsFrame

/-- A block that runs UNFRAME_MSG on the frame of a Message's bytes decodes the canonical Message. -/
theorem exec_unframeMsg_of_frame {pipe : Byte} {address : Option Half} (hwf : Memory.wf r.mem = true)
    (hidle : r.mode = .idle) (h : HoldsFrame r pipe address (packBits m.bits)) :
    ∃ u, exec .unframeMsg r = .next u ∧ u.err = none ∧ u.msgOut = some m.canon ∧
      u.result = BitVec.ofNat 32 (bytesFor m.bits.length) ∧ u.cv = r.cv := by
  have hpos : 0 < bytesFor m.bits.length := by
    have hbits : 17 ≤ m.bits.length := by simpa [Message.bits] using m.width_bounds.1
    unfold bytesFor
    omega
  have hvalid := h.plValid (by rwa [packBits_length])
  have hstored := copyData_storedAt hwf hvalid
  rw [h.payloadBytes] at hstored
  obtain ⟨more, hbits⟩ := bitsFrom_of_packed (n := r.plLen) hstored (by rw [h.plLen, packBits_length])
  refine ⟨_, exec_unframeMsg_valid hidle hvalid, ?_⟩
  rw [decodeFrom_bits hbits]
  exact ⟨rfl, rfl, rfl, rfl⟩

/-- Settles O41: FRAME_MSG leaves the frame of the Message's bytes in PAYLOAD (`exec_frameMsg_some`), and UNFRAME_MSG
depends on these 32 bytes alone (`exec_unframeMsg_of_frame`). -/
theorem frameThenUnframe : Obligations.FrameThenUnframe := by
  unfold Obligations.FrameThenUnframe
  rintro a pipe m s t r ⟨hwf, -⟩ ⟨hwf', -⟩ hidle hidle' hin h hsame
  obtain ⟨mem, mem', -, ⟨-, hframe⟩, hexec⟩ := exec_frameMsg_some a pipe hwf hidle hin
  cases h.symm.trans hexec
  have hbytes := message_bytes_le m
  have hheader := headerLength_cases (frameAddress a s)
  have hfits : headerLength (frameAddress a s) + (packBits m.bits).length ≤ 32 := by rw [packBits_length]; omega
  have hlen : (frameBytes pipe (frameAddress a s) (packBits m.bits)).length = 32 :=
    frameBytes_length _ _ _ (by show _ ≤ 32 - _; omega)
  refine exec_unframeMsg_of_frame (pipe := pipe) (address := frameAddress a s) hwf' hidle' ⟨hfits, fun i hi => ?_⟩
  have hbyte := hframe (0x40 + i)
  rw [if_pos (by omega), Nat.add_sub_cancel_left] at hbyte
  exact (hsame i hi).trans hbyte

end Sys2Proof.Proofs.MessageRoundTrips
end

section
/-! Proofs for the control commands (spec/44_control.md): NOP (R370) and CLEAR_STATUS (R371). -/

namespace Sys2Proof.Proofs.Control
open Sys2Proof.Machine Sys2Proof.Proofs.HostAccess

variable {s : State}

/-- R370: NOP only reports success. -/
theorem exec_nop (s : State) : exec .nop s = .next (s.succeed 0) := rfl

/-- R371: CLEAR_STATUS closes whatever session is open on an empty slice, and lowers CV and empties the ports. -/
theorem exec_clearStatus (s : State) :
    exec .clearStatus s =
      .next ({ (s.openSlice 0).setMode .idle with cv := false, msgIn := none, msgOut := none }.succeed 0) := rfl

/-- R36: STATUS reads 0 when every one of its fields does. -/
theorem status_eq_zero (herr : s.err = none) (hcv : s.cv = false) (hmode : s.mode = .idle) (hbyte : s.bytePos = 0)
    (hbit : s.bitPos = 0) (hlimit : s.limit = 0) (hout : s.msgOut = none) (hin : s.msgIn = none) : s.status = 0 := by
  apply BitVec.eq_of_toNat_eq
  rw [status_toNat, herr, hcv, hmode, hbyte, hbit, hlimit, hout, hin]
  rfl

/-- Settles O46: `exec_nop`, with `State.succeed` written out. -/
theorem nopReportsSuccess : Obligations.NopReportsSuccess := by
  unfold Obligations.NopReportsSuccess
  exact exec_nop

/-- Settles O47: `exec_clearStatus` for the state, whose STATUS fields are all 0 (`status_eq_zero`). -/
theorem clearStatusClears : Obligations.ClearStatusClears := by
  unfold Obligations.ClearStatusClears
  exact fun s => ⟨exec_clearStatus s, status_eq_zero rfl rfl rfl rfl rfl rfl rfl rfl⟩

end Sys2Proof.Proofs.Control
end

section
/-! Proofs for the errors of a decode (spec/60_exceptions.md R381, the column "recorded besides ERR"): the code or the field
that stands where a failed MSG_DECODE leaves the cursor. -/

namespace Sys2Proof.Proofs.DecodeErrors
open Sys2Proof.Machine Sys2Proof.Proofs.MessageCommands

variable {s t : State} {n : BitVec 6}

/-! ## The outcome of MSG_DECODE, in terms of the state it leaves -/

/-- MSG_DECODE ended in e over a slice of N bits: the decoder's own answer on the stream that t still holds, `rest` being the
bits after the cursor. -/
structure FailedDecode (t : State) (N : Nat) (e : Error) (rest : Bits) : Prop where
  answer : decMessage (t.bitsFrom 0 N) = .err e rest
  cursor : t.cursor + rest.length = N

/-- A decode keeps the buffers, so the slice can be read off the state it leaves. -/
theorem exec_msgDecode_outcome (hidle : s.mode = .idle) (hn : n.toNat ≤ 32) (h : exec (.msgDecode n) s = .next t) :
    t.err = none ∨ ∃ e rest, t.err = some e ∧ FailedDecode t (8 * n.toNat) e rest := by
  rw [exec_msgDecode_within hidle hn] at h
  cases h
  rcases decMessage_total (s.bitsFrom 0 (8 * n.toNat)) with ⟨m, rest, hd⟩ | ⟨e, rest, hd⟩
  · obtain ⟨k, -, -, -, -, hdec⟩ := decodeFrom_ok hd
    exact .inl (by rw [hdec])
  · obtain ⟨-, k, hk, hdec⟩ := decodeFrom_err hd
    rw [hdec]
    refine .inr ⟨e, rest, rfl, hd, ?_⟩
    rw [cursor_eq_of_div_mod (k := k) rfl rfl]
    exact hk

namespace FailedDecode

variable {N : Nat} {e : Error} {rest pre mid : Bits}

/-- Two stretches read before the error: the cursor stands after them, and they are still in the stream. -/
theorem read_before_cursor (h : FailedDecode t N e rest) (hbits : t.bitsFrom 0 N = pre ++ (mid ++ rest)) :
    t.cursor = pre.length + mid.length ∧ t.bitsFrom 0 pre.length = pre ∧ t.bitsFrom pre.length mid.length = mid := by
  have hcursor : t.cursor = pre.length + mid.length := by
    have hlen := congrArg List.length hbits
    simp only [State.bitsFrom_length, List.length_append] at hlen
    have := h.cursor
    omega
  rw [← h.cursor, hcursor, Nat.add_assoc, State.bitsFrom_add, State.bitsFrom_add, Nat.zero_add] at hbits
  obtain ⟨hpre, hmid⟩ := List.append_inj hbits (State.bitsFrom_length ..)
  exact ⟨hcursor, hpre, (List.append_inj hmid (State.bitsFrom_length ..)).1⟩

/-! ## The codes that end a decode -/

/-- A version or a code is the last thing read: it stands right before the cursor. -/
theorem code_before_cursor {c w : Nat} (h : FailedDecode t N e rest) (hc : c < 2 ^ w)
    (hbits : t.bitsFrom 0 N = pre ++ (bitsOf c w ++ rest)) :
    t.cursor = pre.length + w ∧ t.bitsFrom 0 pre.length = pre ∧ natOf (t.bitsFrom pre.length w) = c := by
  obtain ⟨hcursor, hpre, hcode⟩ := h.read_before_cursor hbits
  rw [bitsOf_length] at hcursor hcode
  exact ⟨hcursor, hpre, by rw [hcode, natOf_bitsOf, Nat.mod_eq_of_lt hc]⟩

/-- R336: the two bits of a version other than 1. -/
theorem versionMismatch (h : FailedDecode t N .versionMismatch rest) :
    t.cursor = 2 ∧ natOf (t.bitsFrom 0 2) ≠ 1 := by
  obtain ⟨v, hv, hne, hbits⟩ := (decMessage_head h.answer).1 rfl
  obtain ⟨hcursor, -, hversion⟩ := h.code_before_cursor (pre := []) (w := 2) hv hbits
  exact ⟨hcursor, fun h1 => hne (hversion.symm.trans h1)⟩

/-- R335: version 1 and a code above 4. -/
theorem invalidMessage (h : FailedDecode t N .invalidMessage rest) :
    t.cursor = 6 ∧ natOf (t.bitsFrom 0 2) = 1 ∧ 4 < natOf (t.bitsFrom 2 4) := by
  obtain ⟨c, hc, hbad, hbits⟩ := (decMessage_head h.answer).2 rfl
  obtain ⟨hcursor, hversion, hcode⟩ := h.code_before_cursor (w := 4) hc hbits
  rw [bitsOf_length] at hversion hcode
  exact ⟨hcursor, by rw [hversion]; rfl, hcode ▸ hbad⟩

/-- The bits a decode has read before its error, in the shape of the error. -/
theorem errorShape (h : FailedDecode t N e rest) : ∃ used, t.bitsFrom 0 N = used ++ rest ∧ ErrorShape e used := by
  obtain ⟨-, -, used, hbits, hshape, -⟩ := local_decMessage.err _ _ _ h.answer
  exact ⟨used, hbits, hshape⟩

/-- The code an error names stands in the four bits before the cursor. -/
theorem reservedCode {c : Nat} (h : FailedDecode t N e rest) (hc : c < 16)
    (hbits : t.bitsFrom 0 N = pre ++ bitsOf c 4 ++ rest) :
    4 ≤ t.cursor ∧ natOf (t.bitsFrom (t.cursor - 4) 4) = c := by
  rw [List.append_assoc] at hbits
  obtain ⟨hcursor, -, hcode⟩ := h.code_before_cursor (w := 4) hc hbits
  rw [hcursor, Nat.add_sub_cancel]
  exact ⟨Nat.le_add_left .., hcode⟩

theorem invalidCommand (h : FailedDecode t N .invalidCommand rest) :
    4 ≤ t.cursor ∧ 4 < natOf (t.bitsFrom (t.cursor - 4) 4) := by
  obtain ⟨_, hbits, pre, c, rfl, hbad, hc⟩ := h.errorShape
  obtain ⟨hcursor, rfl⟩ := h.reservedCode hc hbits
  exact ⟨hcursor, hbad⟩

theorem invalidResponse (h : FailedDecode t N .invalidResponse rest) :
    4 ≤ t.cursor ∧ 3 < natOf (t.bitsFrom (t.cursor - 4) 4) ∧ natOf (t.bitsFrom (t.cursor - 4) 4) ≠ 8 ∧
      natOf (t.bitsFrom (t.cursor - 4) 4) ≠ 9 := by
  obtain ⟨_, hbits, pre, c, rfl, hbad, h8, h9, hc⟩ := h.errorShape
  obtain ⟨hcursor, rfl⟩ := h.reservedCode hc hbits
  exact ⟨hcursor, hbad, h8, h9⟩

theorem invalidSensor (h : FailedDecode t N .invalidSensor rest) :
    4 ≤ t.cursor ∧ 2 < natOf (t.bitsFrom (t.cursor - 4) 4) := by
  obtain ⟨_, hbits, pre, c, rfl, hbad, hc⟩ := h.errorShape
  obtain ⟨hcursor, rfl⟩ := h.reservedCode hc hbits
  exact ⟨hcursor, hbad⟩

theorem invalidActuator (h : FailedDecode t N .invalidActuator rest) :
    4 ≤ t.cursor ∧ 0 < natOf (t.bitsFrom (t.cursor - 4) 4) := by
  obtain ⟨_, hbits, pre, c, rfl, hbad, hc⟩ := h.errorShape
  obtain ⟨hcursor, rfl⟩ := h.reservedCode hc hbits
  exact ⟨hcursor, hbad⟩

/-! ## The field a decode fails in -/

/-- A code that stands for nothing is the last field before the cursor. -/
theorem codeField_before_cursor (h : FailedDecode t N e rest) (hunder : e ≠ .bufferUnderflow)
    (hversion : e ≠ .versionMismatch) :
    ∃ (m : Message) (gs : List Field) (f : Field) (more : List Field), m.fields = gs ++ f :: more ∧ f.width = 4 ∧
      fieldsWidth gs + 4 = t.cursor ∧ fieldsBits gs = t.bitsFrom 0 (t.cursor - 4) := by
  obtain ⟨_, ⟨m, rfl⟩, gs, f, more, hfields, ⟨he, -⟩ | ⟨-, hwidth, k, hbits⟩⟩ :=
    decMessage_failsWithin _ _ _ h.answer
  · exact absurd he hunder
  · have hf := hwidth hversion
    obtain ⟨hcursor, hgs, -⟩ := h.read_before_cursor hbits
    rw [bitsOf_length, fieldsBits_length, hf] at hcursor
    rw [fieldsBits_length] at hgs
    refine ⟨m, gs, f, more, hfields, hf, hcursor.symm, ?_⟩
    rw [hcursor, Nat.add_sub_cancel, hgs]

/-- R162: a field that does not fit stands at the cursor, and none of it is read. -/
theorem field_at_cursor (h : FailedDecode t N .bufferUnderflow rest) :
    ∃ (m : Message) (gs : List Field) (f : Field) (more : List Field), m.fields = gs ++ f :: more ∧
      fieldsWidth gs = t.cursor ∧ fieldsBits gs = t.bitsFrom 0 t.cursor ∧ N < t.cursor + f.width := by
  obtain ⟨_, ⟨m, rfl⟩, gs, f, more, hfields, ⟨-, hbits, hshort⟩ | ⟨he, -⟩⟩ :=
    decMessage_failsWithin _ _ _ h.answer
  · obtain ⟨hcursor, hgs, -⟩ := h.read_before_cursor (mid := []) hbits
    rw [fieldsBits_length, List.length_nil, Nat.add_zero] at hcursor
    rw [fieldsBits_length, ← hcursor] at hgs
    have hslice := h.cursor
    exact ⟨m, gs, f, more, hfields, hcursor.symm, hgs.symm, by omega⟩
  · exact absurd rfl he

/-- No field of a Message is wider than 32 bits. -/
theorem underflow_near_end (h : FailedDecode t N .bufferUnderflow rest) : N < t.cursor + 32 := by
  obtain ⟨-, hshort, -⟩ := local_decMessage.err _ _ _ h.answer
  have hrest := hshort rfl
  have hcursor := h.cursor
  omega

end FailedDecode

/-- Settles O34: a decode that goes through raises nothing, and each error of one that fails is a lemma of
`FailedDecode`. -/
theorem decodeErrorsRecordCursor : Obligations.DecodeErrorsRecordCursor := by
  unfold Obligations.DecodeErrorsRecordCursor
  intro n s t _ hidle hn h
  have hslice : t.cursor ≤ 8 * n.toNat := by
    rw [exec_msgDecode_within hidle hn] at h
    cases h
    exact decodeFrom_cursor_le _ _
  refine ⟨hslice, ?_⟩
  rcases exec_msgDecode_outcome hidle hn h with herr | ⟨e, rest, herr, hfail⟩ <;> rw [herr]
  · simp
  · simp only [Option.some.injEq]
    refine ⟨fun he => (he ▸ hfail).versionMismatch, fun he => (he ▸ hfail).invalidMessage,
      fun he => (he ▸ hfail).invalidCommand, fun he => (he ▸ hfail).invalidResponse,
      fun he => (he ▸ hfail).invalidSensor, fun he => (he ▸ hfail).invalidActuator, ?codeField,
      fun he => (he ▸ hfail).field_at_cursor, fun he => (he ▸ hfail).underflow_near_end⟩
    case codeField =>
      rintro _ ⟨rfl⟩ hmem
      exact hfail.codeField_before_cursor (by rintro rfl; simp at hmem) (by rintro rfl; simp at hmem)

end Sys2Proof.Proofs.DecodeErrors
end

section
/-! Proofs for the order of a command's checks (spec/60_exceptions.md R385): each command is the checks it makes, in the rule's
order, around a body that ends well or in an error of execution. -/

namespace Sys2Proof.Proofs.PreChecks
open Sys2Proof.Machine Sys2Proof.Proofs.Window Sys2Proof.Proofs.ConditionCodes Sys2Proof.Proofs.MessageCommands

variable {i : Instr} {s t : State} {e : Error}

/-! ## The state that is checked -/

/-- A decoding command has emptied MSG_OUT before its checks (R40). -/
def checkStart (i : Instr) (s : State) : State := if decodes i then s.setMsgOut none else s

theorem failed_checkStart (i : Instr) (e : Error) (s : State) : failed e (checkStart i s) = precheckFailed i e s := by
  unfold checkStart precheckFailed
  split <;> rfl

theorem checkStart_mode (i : Instr) (s : State) : (checkStart i s).mode = s.mode := by
  unfold checkStart
  split <;> rfl

theorem checkStart_msgIn (i : Instr) (s : State) : (checkStart i s).msgIn = s.msgIn := by
  unfold checkStart
  split <;> rfl

theorem checkStart_plValid (i : Instr) (s : State) : (checkStart i s).plValid = s.plValid := by
  unfold checkStart
  split <;> rfl

/-! ## What R385 asks of the state a command leaves, from each of its items on -/

/-- Item 6: no error, or one of execution. -/
def FromExecution (t : State) : Prop := ∀ e ∈ t.err, e ∈ executionErrors

/-- Item 5, a valid frame. -/
structure FromFrame (i : Instr) (s t : State) : Prop where
  fails : needsValidFrame i = true → s.plValid = false → t = precheckFailed i .invalidLength s
  passes : (needsValidFrame i = true → s.plValid = true) → FromExecution t

/-- Item 4, the operand range. -/
structure FromOperand (i : Instr) (s t : State) : Prop where
  fails : ∀ e ∈ operandError i, t = precheckFailed i e s
  passes : operandError i = none → FromFrame i s t

/-- Item 3, MSG_IN. -/
structure FromMessage (i : Instr) (s t : State) : Prop where
  fails : needsMessage i = true → s.msgIn = none → t = precheckFailed i .illegalSequence s
  passes : (needsMessage i = true → s.msgIn.isSome = true) → FromOperand i s t

/-- Item 2, MODE. -/
structure FromMode (i : Instr) (s t : State) : Prop where
  fails : ∀ m ∈ neededMode i, s.mode ≠ m → t = precheckFailed i .illegalSequence s
  passes : (∀ m ∈ neededMode i, s.mode = m) → FromMessage i s t

/-! ## One rule per check, for the commands that make it and for those that do not -/

theorem FromMode.checked {m : Mode} {k : State → State} (hi : neededMode i = some m)
    (hk : FromMessage i s (k (checkStart i s))) : FromMode i s (needMode m k (checkStart i s)) where
  fails := by
    rw [hi]
    rintro _ ⟨rfl⟩ hne
    rw [needMode_ne (by rwa [checkStart_mode]), failed_checkStart]
  passes hmode := by rwa [needMode_eq ((checkStart_mode i s).trans (hmode m hi))]

theorem FromMode.unchecked (hi : neededMode i = none) (h : FromMessage i s t) : FromMode i s t where
  fails := by simp [hi]
  passes _ := h

theorem FromMessage.checked {k : Message → State → State} (hi : needsMessage i = true)
    (hk : ∀ m, FromOperand i s (k m (checkStart i s))) : FromMessage i s (needMsgIn k (checkStart i s)) where
  fails _ hnone := by rw [needMsgIn_none ((checkStart_msgIn i s).trans hnone), failed_checkStart]
  passes hsome := by
    obtain ⟨m, hm⟩ := Option.isSome_iff_exists.mp (hsome hi)
    rw [needMsgIn_some ((checkStart_msgIn i s).trans hm)]
    exact hk m

theorem FromMessage.unchecked (hi : needsMessage i = false) (h : FromOperand i s t) : FromMessage i s t where
  fails := by simp [hi]
  passes _ := h

theorem FromOperand.checked {n max : Nat} {k : State → State} (hi : operandError i = if max < n then some e else none)
    (hk : FromFrame i s (k (checkStart i s))) : FromOperand i s (needAtMost n max e k (checkStart i s)) where
  fails := by
    intro x hx
    obtain ⟨hlarge, rfl⟩ : max < n ∧ e = x := by simpa [hi] using hx
    rw [needAtMost_gt hlarge, failed_checkStart]
  passes hnone := by
    have hsmall : n ≤ max := by simpa [hi] using hnone
    rwa [needAtMost_le hsmall]

theorem FromOperand.unchecked (hi : operandError i = none) (h : FromFrame i s t) : FromOperand i s t where
  fails := by simp [hi]
  passes _ := h

theorem FromFrame.checked {k : State → State} (hi : needsValidFrame i = true)
    (hk : FromExecution (k (checkStart i s))) : FromFrame i s (needValid k (checkStart i s)) where
  fails _ hinvalid := by rw [needValid_false ((checkStart_plValid i s).trans hinvalid), failed_checkStart]
  passes hvalid := by rwa [needValid_true ((checkStart_plValid i s).trans (hvalid hi))]

theorem FromFrame.unchecked (hi : needsValidFrame i = false) (h : FromExecution t) : FromFrame i s t where
  fails := by simp [hi]
  passes _ := h

/-! ## The bodies -/

theorem fromExecution_succeed (t : State) (r : Word) : FromExecution (t.succeed r) := by simp [FromExecution]

theorem fromExecution_raise (he : e ∈ executionErrors) : FromExecution (t.raise e) := by simpa [FromExecution] using he

/-- A body that writes fields, then succeeds. -/
theorem fromExecution_endWith {a : Attempt} {f : State → State} (hf : ∀ t, FromExecution (f t))
    (ha : ∀ e t, a = .err e t → e = .bufferOverflow) : FromExecution (endWith f a) := by
  cases a with
  | ok t => exact hf t
  | err e t => exact fromExecution_raise (by rw [ha e t rfl]; decide)

theorem bitWrite_error {v w : Nat} (h : bitWrite v w s = .err e t) : e = .bufferOverflow := by
  rcases bitWrite_cases v w s with ⟨_, hok, -⟩ | hover
  · cases h.symm.trans hok
  · cases h.symm.trans hover; rfl

theorem encodeInto_error {n : Nat} {m : Message} (h : encodeInto n m s = .err e t) : e = .bufferOverflow := by
  rcases encodeInto_cases n m s with ⟨_, hok, -⟩ | ⟨_, hover, -⟩
  · cases h.symm.trans hok
  · cases h.symm.trans hover; rfl

/-- The body of BR_READ. -/
theorem fromExecution_readField (w : Nat) (s : State) : FromExecution
    (match bitRead w s with
      | .ok v t => t.succeed (BitVec.ofNat 32 v)
      | .err e t => t.raise e) := by
  rcases bitRead_cases w s with ⟨v, p, hread⟩ | ⟨p, hread⟩ <;> rw [hread]
  · exact fromExecution_succeed _ _
  · exact fromExecution_raise (by decide)

theorem decodeErrors_sub_executionErrors : decodeErrors ⊆ executionErrors := by decide

theorem fromExecution_decodeFrom (n : Nat) (s : State) : FromExecution (decodeFrom n s) := by
  rcases decodeFrom_cases n s with ⟨_, _, -, -, hdec⟩ | ⟨e, _, he, -, hdec⟩ <;> rw [hdec]
  · simp [FromExecution]
  · simpa [FromExecution] using decodeErrors_sub_executionErrors he

/-! ## Every command -/

/-- R385, items 2 to 6: each command's checks, in order. -/
theorem exec_fromMode (hi : isCommand i = true) (h : exec i s = .next t) : FromMode i s t := by
  cases i with
  | nop | plPipe | plLen | plAddress | plHeaderLength | plLenIsValid | pipeForAddr | clearStatus =>
    cases h
    exact .unchecked rfl (.unchecked rfl (.unchecked rfl (.unchecked rfl (fromExecution_succeed _ _))))
  | bwBegin n | brBegin n =>
    cases h
    exact .checked rfl (.unchecked rfl (.checked rfl (.unchecked rfl (fromExecution_succeed _ _))))
  | bwFinalize | brEnd =>
    cases h
    exact .checked rfl (.unchecked rfl (.unchecked rfl (.unchecked rfl (fromExecution_succeed _ _))))
  | bwWrite n =>
    cases h
    exact .checked rfl (.unchecked rfl (.checked rfl (.unchecked rfl
      (fromExecution_endWith (f := fun t => t.succeed (BitVec.ofNat 32 t.cursor))
        (fun _ => fromExecution_succeed _ _) fun _ _ => bitWrite_error))))
  | brRead n =>
    cases h
    exact .checked rfl (.unchecked rfl (.checked rfl (.unchecked rfl (fromExecution_readField n.toNat s))))
  | msgEncode n =>
    cases h
    exact .checked rfl (.checked rfl fun m => .checked rfl (.unchecked rfl
      (fromExecution_endWith (f := fun t => t.succeed (BitVec.ofNat 32 t.count))
        (fun _ => fromExecution_succeed _ _) fun _ _ => encodeInto_error)))
  | frameMsg a pipe =>
    cases h
    exact .checked rfl (.checked rfl fun m => .unchecked rfl (.unchecked rfl
      (fromExecution_endWith (f := fun t => buildFrame pipe (frameAddress a s) t.count t)
        (fun _ => fromExecution_succeed _ _) fun _ _ => encodeInto_error)))
  | msgDecode n =>
    cases h
    exact .checked rfl (.unchecked rfl (.checked rfl (.unchecked rfl (fromExecution_decodeFrom _ _))))
  | unframeMsg =>
    cases h
    exact .checked rfl (.unchecked rfl (.unchecked rfl (.checked rfl (fromExecution_decodeFrom _ _))))
  | plNew n pipe | plNewWithAddr n pipe =>
    cases h
    exact .unchecked rfl (.unchecked rfl (.checked rfl (.unchecked rfl (fromExecution_succeed _ _))))
  | plAddrFilter n a =>
    cases h
    have hlimit : operandError (.plAddrFilter n a) =
        if 4 < (if a then n.toNat else 0) then some .illegalLimit else none := by
      cases a <;> simp [operandError]
    exact .unchecked rfl (.unchecked rfl (.checked hlimit (.unchecked rfl (fromExecution_succeed _ _))))
  | plData =>
    cases h
    exact .checked rfl (.unchecked rfl (.unchecked rfl (.checked rfl (fromExecution_succeed _ _))))
  | plPacket =>
    cases h
    exact .unchecked rfl (.unchecked rfl (.unchecked rfl (.checked rfl (fromExecution_succeed _ _))))
  | optionSome _ x => cases x <;> cases hi
  | _ => cases hi

/-! ## A code that cannot be read in full (R162) -/

section
variable {α β : Type} {bs rest : Bits} {w : Nat}

theorem andThen_err {d : Dec α} {f : α → Dec β} (h : d bs = .err e rest) : Dec.andThen d f bs = .err e rest := by
  unfold Dec.andThen
  rw [h]

theorem map_err {d : Dec α} {f : α → β} (h : d bs = .err e rest) : Dec.map d f bs = .err e rest := andThen_err h

variable {c : Codec} {reserved : Nat → Bool} {bad : Nat → Instr} {x : Error} {d : Dec Instr}

theorem rowOrReserved_err (h : readBits w bs = .err e rest) : rowOrReserved c w reserved bad x d bs = .err e rest := by
  unfold rowOrReserved
  rw [h]

theorem rowOrReserved_assigned {k : Nat} (h : readBits w bs = .ok k rest) (hk : reserved k = false) :
    rowOrReserved c w reserved bad x d bs = d bs := by
  unfold rowOrReserved
  simp [h, hk]

end

/-- After version 01 the row of a Message is that of its code. -/
theorem decMessageRow_after_version (c : Codec) (bs : Bits) : decMessageRow c (bitsOf 1 2 ++ bs) =
    rowOrReserved c 4 (fun k => decide (4 < k)) (fun k => .messageReserved (.code (BitVec.ofNat 4 k)))
      .invalidMessage (Dec.map decMessageBody (Message.row c)) bs :=
  (rowOrReserved_assigned (readBits_bitsOf 1 2 bs) rfl).trans (Dec.andThen_code 1 2 _ bs)

/-- Each row decoder reads its code first. -/
theorem decRow_short {d : WireType} {k : Nat} {bs : Bits}
    (hd : (d, k) ∈ [(WireType.board, 2), (.message, 2), (.sensor, 4), (.actuator, 4), (.command, 4), (.response, 4)])
    (hshort : bs.length < k) : decRow .dec d bs = .err .bufferUnderflow bs := by
  have hread := readBits_short hshort
  simp only [List.mem_cons, Prod.mk.injEq, List.not_mem_nil, or_false] at hd
  rcases hd with ⟨rfl, rfl⟩ | hd
  · exact map_err (map_err hread)
  · rcases hd with ⟨rfl, rfl⟩ | ⟨rfl, rfl⟩ | ⟨rfl, rfl⟩ | ⟨rfl, rfl⟩ | ⟨rfl, rfl⟩ <;>
      simp only [decRow, decMessageRow, decSensorRow, decActuatorRow, decCommandRow, decResponseRow] <;>
      exact rowOrReserved_err hread

/-- R102: a word that is no command is reported before anything else is looked at. -/
theorem step_illegalCommand {w : Word} (hw : decodeCommand w = none) (s : State) (rest : List Action) :
    step { s with pending := .write 0 .w32 w :: rest } =
      .next (failed .illegalCommand { s with pending := rest }) :=
  (step_pending s _ rest).trans ((hostWrite_cmd w _).trans (issue_none hw _))

/-- Settles O54: the word by `step_illegalCommand`, the checks by `exec_fromMode`, the short codes by the rule of the decoder
that reads each first. -/
theorem preCheckOrder : Obligations.PreCheckOrder := by
  unfold Obligations.PreCheckOrder
  refine ⟨fun w s rest hw => step_illegalCommand hw s rest, fun i s hi _ => ?checks, fun d k bs => decRow_short,
    fun bs hshort => ?twoBits, fun bs hshort => ?fourBits⟩
  case checks =>
    obtain ⟨t, ht⟩ := exec_total i s
    have hmode := exec_fromMode hi ht
    simp only [ht, Host.Outcome.next.injEq]
    refine ⟨hmode.fails, fun hm => ⟨(hmode.passes hm).fails, fun hin => ?_⟩⟩
    have hoperand := (hmode.passes hm).passes hin
    exact ⟨hoperand.fails, fun hn => ⟨(hoperand.passes hn).fails, fun hvalid =>
      ⟨t, rfl, (hoperand.passes hn).passes hvalid⟩⟩⟩
  case twoBits =>
    have hread := readBits_short hshort
    exact ⟨map_err hread, andThen_err hread⟩
  case fourBits =>
    have hread := readBits_short hshort
    exact ⟨andThen_err hread, andThen_err hread, andThen_err hread, andThen_err hread,
      (decMessageRow_after_version .dec bs).trans (rowOrReserved_err hread),
      (decMessage_body bs).trans (andThen_err hread)⟩

end Sys2Proof.Proofs.PreChecks
end

section
/-! Proofs for the table of errors (spec/60_exceptions.md R381, R382): its numbers, and that no instruction raises
InvalidBoard. -/

namespace Sys2Proof.Proofs.ErrorTable
open Sys2Proof.Machine

variable {s t : State}

/-! ## The numbers -/

/-- The names of R381 in the order of the table. -/
def errorTable : List Error :=
  [.bufferOverflow, .bufferUnderflow, .invalidBoard, .invalidSensor, .invalidActuator, .invalidCommand,
    .invalidResponse, .invalidMessage, .versionMismatch, .payloadTooLong, .invalidLength, .illegalCommand,
    .illegalWidth, .illegalSequence, .illegalLimit]

/-- An error's number is its place in the table, counted from 1. -/
theorem errorTable_errNumber (e : Error) : errorTable[errNumber e - 1]? = some e := by cases e <;> rfl

theorem errNumber_bounds (e : Error) : 1 ≤ errNumber e ∧ errNumber e ≤ 15 := by cases e <;> decide

/-- Two errors with one number stand at one place of the table. -/
theorem errNumber_injective {e e' : Error} (h : errNumber e = errNumber e') : e = e' := by
  have hplace := errorTable_errNumber e
  rw [h, errorTable_errNumber] at hplace
  exact (Option.some.inj hplace).symm

/-! ## InvalidBoard (R382) -/

theorem invalidBoard_not_mem_mayRaise (i : Instr) : Error.invalidBoard ∉ mayRaise i := by
  rw [← List.elem_iff, Bool.not_eq_true]
  cases i <;> rfl

/-- ERR is as before, or an error other than InvalidBoard: what a row leaves. -/
def RaisesNoInvalidBoard (s t : State) : Prop := t.err = s.err ∨ t.err ≠ some .invalidBoard

theorem raisesNoInvalidBoard_raise {e : Error} (he : e ≠ .invalidBoard) : RaisesNoInvalidBoard s (t.raise e) :=
  .inr fun h => he (Option.some.inj h)

/-- Reading a row's fields can only underflow. -/
theorem runDec_readFields_error {fs : List Field} {e : Error} (h : runDec (readFields fs) s = .err e t) :
    e = .bufferUnderflow := by
  by_cases hfit : fieldsWidth fs ≤ s.unread.length
  · rw [runDec_ok (readFields_ok fs _ hfit)] at h
    cases h
  · obtain ⟨_, _, _, -, -, -, hread⟩ := readFields_err fs s.unread (by omega)
    rw [runDec_err hread] at h
    cases h
    rfl

theorem runDec_ok_keeps_err {α : Type} {d : Dec α} {v : α} (h : runDec d s = .ok v t) : t.err = s.err := by
  rcases runDec_frame d s with ⟨_, _, e⟩ | ⟨_, _, e⟩ <;> cases h.symm.trans e
  rfl

theorem wireRow_raisesNoInvalidBoard (c : Codec) (fs : List Field) (s : State) :
    RaisesNoInvalidBoard s (wireRow c fs s) := by
  unfold wireRow
  cases c with
  | enc =>
    rcases writeFields_cases fs s with ⟨t, e, hw⟩ | ⟨t, e, -⟩ <;> simp only [e]
    · exact .inl (by rw [hw.1])
    · exact raisesNoInvalidBoard_raise (by decide)
  | dec =>
    dsimp only
    cases hrun : runDec (readFields fs) s with
    | ok v t => exact .inl (runDec_ok_keeps_err hrun)
    | err e t => exact raisesNoInvalidBoard_raise (by rw [runDec_readFields_error hrun]; decide)

theorem reservedRow_raisesNoInvalidBoard (fs : List Field) {x : Error} (hx : x ≠ .invalidBoard) (s : State) :
    RaisesNoInvalidBoard s (reservedRow fs x s) := by
  unfold reservedRow
  cases hrun : runDec (readFields fs) s with
  | ok v t => exact raisesNoInvalidBoard_raise hx
  | err e t => exact raisesNoInvalidBoard_raise (by rw [runDec_readFields_error hrun]; decide)

theorem headError_ne_invalidBoard (head : BadHead) : headError head ≠ .invalidBoard := by
  cases head <;> simp [headError]

theorem frameRow_raisesNoInvalidBoard (c : Codec) (p : Byte) (a : Option Half) (d : List Byte) (s : State) :
    RaisesNoInvalidBoard s (frameRow c p a d s) := by
  unfold frameRow
  cases c <;> dsimp only <;> split
  · exact .inl rfl
  · exact raisesNoInvalidBoard_raise (by decide)
  · exact .inl rfl
  · exact raisesNoInvalidBoard_raise (by decide)

/-- R382 over every instruction: a command by its row of the table, a row by what its codec raises. -/
theorem exec_raisesNoInvalidBoard {i : Instr} (h : exec i s = .next t) : RaisesNoInvalidBoard s t := by
  cases hi : isCommand i with
  | true => exact .inr fun herr => invalidBoard_not_mem_mayRaise i ((command_leaves hi h).errors _ herr)
  | false =>
    cases i with
    | nop | bwBegin _ | bwWrite _ | bwFinalize | brBegin _ | brRead _ | brEnd | msgEncode _ | msgDecode _ | plNew _ _
    | plNewWithAddr _ _ | plPipe | plLen | plAddress | plHeaderLength | plLenIsValid | plData | plPacket
    | plAddrFilter _ _ | pipeForAddr | frameMsg _ _ | unframeMsg | clearStatus => cases hi
    | messageReserved head =>
      cases h; exact reservedRow_raisesNoInvalidBoard _ (headError_ne_invalidBoard head) s
    | commandReserved _ | responseReserved _ | sensorReserved _ | actuatorReserved _ =>
      cases h; exact reservedRow_raisesNoInvalidBoard _ (by decide) s
    | frameWithAddress _ _ _ _ | frameWithoutAddress _ _ _ =>
      cases h; exact frameRow_raisesNoInvalidBoard _ _ _ _ s
    | _ => cases h; exact wireRow_raisesNoInvalidBoard _ _ s

/-- Settles O55: what commands raise is `CommandLeaves.errors`, InvalidBoard is `exec_raisesNoInvalidBoard`, and the numbers
are read off `errNumber`. -/
theorem errorsPerCommand : Obligations.ErrorsPerCommand := by
  unfold Obligations.ErrorsPerCommand
  refine ⟨fun i s t hi h => (command_leaves hi h).errors, fun i s t h herr => ?_, invalidBoard_not_mem_mayRaise, rfl,
    ⟨rfl, fun _ => rfl, rfl, rfl, rfl, rfl, rfl, rfl, rfl, rfl, rfl, rfl, rfl, rfl, rfl, rfl⟩, errNumber_bounds,
    fun e e' => errNumber_injective⟩
  rcases exec_raisesNoInvalidBoard h with hkept | hother
  · exact hkept.symm.trans herr
  · exact absurd herr hother

end Sys2Proof.Proofs.ErrorTable
end

section
/-! Proofs for the reset event (spec/70_reset_and_hazards.md R420, R421). -/

namespace Sys2Proof.Proofs.Reset
open Sys2Proof.Machine Sys2Proof.Proofs.Window Sys2Proof.Proofs.Invariant Sys2Proof.Proofs.Control

theorem toList_getD (v : Vector Byte 32) (i : Fin 32) : v.toList.getD i 0 = v[i] := by simp [List.getD]

/-- R47: each byte of the two buffers holds its draw. The store of PAYLOAD's draws begins where WBUF ends. -/
theorem resetEvent_buffers (wbuf payload : Vector Byte 32) (s : State) (i : Fin 32) :
    (resetEvent wbuf payload s).wbuf i = wbuf[i] ∧ (resetEvent wbuf payload s).payload i = payload[i] := by
  obtain ⟨hwf, hwbuf⟩ := storedAt_writeBytes (a := 0x20) (bs := wbuf.toList) Memory.wf_reset (by omega) (by simp)
  obtain ⟨-, hpayload⟩ := storedAt_writeBytes (a := 0x40) (bs := payload.toList) hwf (by omega) (by simp)
  simp only [Vector.length_toList] at hwbuf hpayload
  constructor
  · refine (hpayload (0x20 + i)).trans ?_
    rw [if_neg (by omega), hwbuf, if_pos (by omega), Nat.add_sub_cancel_left, toList_getD]
  · refine (hpayload (0x40 + i)).trans ?_
    rw [if_pos (by omega), Nat.add_sub_cancel_left, toList_getD]

/-- Settles O10: `resetEvent_buffers` for the draws; every other element is that of `State.reset` or, on the host's
side, as before. -/
theorem resetEvent : Obligations.ResetEvent := by
  unfold Obligations.ResetEvent
  intro wbuf payload s rest
  exact ⟨_, _, (inv_resetEvent (s := s) wbuf payload).1, resetEvent_buffers wbuf payload s,
    step_pending s (.reset wbuf payload) rest, rfl, status_eq_zero rfl rfl rfl rfl rfl rfl rfl rfl⟩

end Sys2Proof.Proofs.Reset
end

section
/-! Which commands write which bytes of the buffers (spec/70_reset_and_hazards.md R426): the writers are listed with
their places once, and every command is shown to change no byte outside its places. -/

namespace Sys2Proof.Proofs.BufferWriters
open Sys2Proof.Machine Sys2Proof.Proofs.ModeAndCv Sys2Proof.Proofs.ConditionCodes Sys2Proof.Proofs.PayloadFramer
  Sys2Proof.Proofs.MessageCommands

/-- Address a is that of a byte of the slice WBUF[0 .. limit-1]. -/
def InSlice (limit a : Nat) : Prop := 0x20 ≤ a ∧ a < 0x20 + limit

def InPayload (a : Nat) : Prop := 0x40 ≤ a ∧ a < 0x60

/-- The commands that write the buffers, each with the addresses it may write when it leaves LIMIT at `limit`. -/
inductive MayWrite (limit a : Nat) : Instr → Prop
  | bwWrite (n : BitVec 6) (h : InSlice limit a) : MayWrite limit a (.bwWrite n)
  | msgEncode (n : BitVec 6) (h : InSlice limit a) : MayWrite limit a (.msgEncode n)
  | unframeMsg (h : InSlice limit a) : MayWrite limit a .unframeMsg
  | plData (h : InSlice 32 a) : MayWrite limit a .plData
  | plNew (n : BitVec 6) (pipe : Byte) (h : InPayload a) : MayWrite limit a (.plNew n pipe)
  | plNewWithAddr (n : BitVec 6) (pipe : Byte) (h : InPayload a) : MayWrite limit a (.plNewWithAddr n pipe)
  | frameMsg (x : Bool) (pipe : Byte) (h : InSlice limit a ∨ InPayload a) : MayWrite limit a (.frameMsg x pipe)

/-- From s to t no byte has changed but those that satisfy p. -/
def ChangesOnly (p : Nat → Prop) (s t : State) : Prop := ∀ a, ¬ p a → Memory.read t.mem a = Memory.read s.mem a

/-- From s to t command i has changed no byte outside its places. -/
def WritesItsPlaces (i : Instr) (s t : State) : Prop := ChangesOnly (MayWrite t.limit · i) s t

variable {i : Instr} {s t : State}

theorem ChangesOnly.mono {p q : Nat → Prop} (hpq : ∀ a, p a → q a) (h : ChangesOnly p s t) : ChangesOnly q s t :=
  fun a ha => h a fun hp => ha (hpq a hp)

theorem ChangesOnly.trans {p q : Nat → Prop} {u : State} (h : ChangesOnly p s t) (k : ChangesOnly q t u) :
    ChangesOnly (fun a => p a ∨ q a) s u := fun a ha =>
  (k a fun hq => ha (.inr hq)).trans (h a fun hp => ha (.inl hp))

theorem writesItsPlaces_of_mem_eq (h : t.mem = s.mem) : WritesItsPlaces i s t := fun _ _ => by rw [h]

theorem writesItsPlaces_raise (e : Error) : WritesItsPlaces i s (s.raise e) := writesItsPlaces_of_mem_eq rfl

/-! ## The operations that write -/

theorem changesOnly_of_storedAt {bs : List Byte} {a : Nat} (h : StoredAt s.mem t.mem a bs) :
    ChangesOnly (fun b => a ≤ b ∧ b < a + bs.length) s t := fun b hb => (h.2 b).trans (if_neg hb)

/-- A store of at most n bytes from WBUF[0] on stays in the slice. -/
theorem changesOnly_slice {bs : List Byte} {n : Nat} (h : StoredAt s.mem t.mem 0x20 bs) (hn : bs.length ≤ n) :
    ChangesOnly (InSlice n) s t :=
  (changesOnly_of_storedAt h).mono fun _ ⟨hlo, hhi⟩ => ⟨hlo, by omega⟩

/-- A frame fills PAYLOAD (R110). -/
theorem changesOnly_payload {bs : List Byte} (h : StoredAt s.mem t.mem 0x40 bs) (hlen : bs.length = 32) :
    ChangesOnly InPayload s t :=
  (changesOnly_of_storedAt h).mono fun _ ⟨hlo, hhi⟩ => ⟨hlo, by omega⟩

/-- R152: the bounds check comes before the bits, so they stay in the slice. -/
theorem bitWrite_changesOnly {v w : Nat} (hi : s.Inv) (h : bitWrite v w s = .ok t) :
    ChangesOnly (InSlice t.limit) s t := by
  obtain ⟨hwf, hbit, hlimit, -⟩ := hi
  unfold bitWrite at h
  split at h
  · cases h
  · rename_i hfit
    cases h
    rw [State.writeBits_flagIf]
    have hlen : s.cursor + (bitsOf v w).length ≤ 8 * s.limit := by rw [bitsOf_length]; omega
    have hlim : (s.writeBits (bitsOf v w)).limit = s.limit := by rw [State.writeBits_frame hwf hbit (by omega)]; rfl
    intro a ha
    rw [State.flagIf_limit, hlim, InSlice] at ha
    exact State.writeBits_outside hwf hbit (by omega) (by unfold bytesFor; omega)

theorem packBits_length_le {bs : Bits} {n : Nat} (h : bs.length ≤ 8 * n) : (packBits bs).length ≤ n := by
  rw [packBits_length, bytesFor]
  omega

/-- R340: an encode into n bytes writes within the slice, whether it fits or not. -/
theorem encodeInto_changesOnly {n : Nat} (m : Message) (hwf : Memory.wf s.mem = true) (hn : n ≤ 32) :
    ∃ t, ChangesOnly (InSlice t.limit) s t ∧
      (encodeInto n m s = .ok t ∨ encodeInto n m s = .err .bufferOverflow t) := by
  by_cases hfit : m.bits.length ≤ 8 * n
  · obtain ⟨mem, hstored, henc⟩ := encodeInto_ok hwf hn hfit
    exact ⟨_, changesOnly_slice (n := n) hstored (packBits_length_le hfit), .inl henc⟩
  · obtain ⟨gs, f, rest, mem, -, hgs, -, hstored, henc⟩ := encodeInto_err hwf hn (Nat.lt_of_not_le hfit)
    rw [← fieldsBits_length] at hgs
    exact ⟨_, changesOnly_slice (n := n) hstored (packBits_length_le hgs), .inr henc⟩

theorem buildFrame_changesOnly (pipe : Byte) {address : Option Half} {n : Nat} (hwf : Memory.wf s.mem = true)
    (hn : headerLength address + n ≤ 32) : ChangesOnly InPayload s (buildFrame pipe address n s) := by
  obtain ⟨mem, -, hbuild, -, hrest⟩ := buildFrame_spec pipe hwf hn
  rw [hbuild]
  exact hrest

theorem copyData_changesOnly (hwf : Memory.wf s.mem = true) (hvalid : s.plValid = true) :
    ChangesOnly (InSlice s.plLen) s (copyData s) :=
  changesOnly_slice (copyData_storedAt hwf hvalid) (State.payloadBytes_length ..).le

/-- FRAME_MSG writes the Message's bytes, at most 26, into the slice, and the frame of them into PAYLOAD. -/
theorem exec_frameMsg_writesItsPlaces {x : Bool} {pipe : Byte} (hwf : Memory.wf s.mem = true)
    (h : exec (.frameMsg x pipe) s = .next t) : WritesItsPlaces (.frameMsg x pipe) s t := by
  by_cases hidle : s.mode = .idle
  case neg =>
    have hbusy : exec (.frameMsg x pipe) s = .next (s.raise .illegalSequence) := congrArg _ (needMode_ne hidle)
    cases hbusy.symm.trans h
    exact writesItsPlaces_raise _
  cases hin : s.msgIn with
  | none =>
    have hnone : exec (.frameMsg x pipe) s = .next (s.raise .illegalSequence) :=
      congrArg _ ((needMode_eq hidle).trans (needMsgIn_none hin))
    cases hnone.symm.trans h
    exact writesItsPlaces_raise _
  | some m =>
    obtain ⟨mem, mem', hstored, hframe, hexec⟩ := exec_frameMsg_some x pipe hwf hidle hin
    cases hexec.symm.trans h
    have hbytes := message_bytes_le m
    have hheader := headerLength_cases (frameAddress x s)
    have hlimit : 28 ≤ if x then 28 else 30 := by cases x <;> decide
    have hslice : ChangesOnly (InSlice (if x then 28 else 30)) s (s.setMem mem) :=
      changesOnly_slice hstored (by rw [packBits_length]; omega)
    refine (hslice.trans (changesOnly_payload hframe (frameBytes_length _ _ _ ?_))).mono fun _ => .frameMsg x pipe
    rw [packBits_length]
    show _ ≤ 32 - _
    omega

/-! ## Every command -/

/-- R426: no command changes a byte outside its places. -/
theorem exec_writesItsPlaces (hi : isCommand i = true) (hs : s.Inv) (h : exec i s = .next t) :
    WritesItsPlaces i s t := by
  obtain ⟨hwf, -⟩ := id hs
  cases i with
  | nop | plPipe | plLen | plAddress | plHeaderLength | plLenIsValid | pipeForAddr | clearStatus =>
    cases h; exact writesItsPlaces_of_mem_eq rfl
  | bwBegin _ | brBegin _ =>
    cases h
    exact needMode_elim (writesItsPlaces_raise _) fun _ =>
      needAtMost_elim (writesItsPlaces_raise _) (writesItsPlaces_of_mem_eq rfl)
  | bwFinalize | brEnd =>
    cases h
    exact needMode_elim (writesItsPlaces_raise _) fun _ => writesItsPlaces_of_mem_eq rfl
  | plAddrFilter _ _ =>
    cases h
    exact needAtMost_elim (writesItsPlaces_raise _) (writesItsPlaces_of_mem_eq rfl)
  | plPacket =>
    cases h
    exact needValid_elim (writesItsPlaces_raise _) (writesItsPlaces_of_mem_eq rfl)
  | brRead n =>
    cases h
    refine needMode_elim (writesItsPlaces_raise _) fun _ => needAtMost_elim (writesItsPlaces_raise _) ?_
    rcases bitRead_cases n.toNat s with ⟨v, p, e⟩ | ⟨p, e⟩ <;> rw [e] <;> exact writesItsPlaces_of_mem_eq rfl
  | msgDecode n =>
    cases h
    exact needMode_elim (writesItsPlaces_of_mem_eq rfl) fun _ =>
      needAtMost_elim (writesItsPlaces_of_mem_eq rfl) (writesItsPlaces_of_mem_eq (decodeFrom_mem _ _))
  | bwWrite n =>
    cases h
    refine needMode_elim (writesItsPlaces_raise _) fun _ => needAtMost_elim (writesItsPlaces_raise _) ?_
    rcases bitWrite_cases s.arg0.toNat n.toNat s with ⟨u, hok, -⟩ | herr
    · rw [hok]
      exact (bitWrite_changesOnly hs hok).mono fun _ => .bwWrite n
    · rw [herr]
      exact writesItsPlaces_raise _
  | msgEncode n =>
    cases h
    refine needMode_elim (writesItsPlaces_raise _) fun _ => needMsgIn_elim (writesItsPlaces_raise _) fun m => ?_
    rcases needAtMost_cases n.toNat Config.wbufSize .illegalLimit _ s with ⟨hn, e⟩ | ⟨-, e⟩ <;> rw [e]
    · obtain ⟨u, hslice, hok | herr⟩ := encodeInto_changesOnly m hwf hn
      · rw [hok]
        exact hslice.mono fun _ => .msgEncode n
      · rw [herr]
        exact hslice.mono fun _ => .msgEncode n
    · exact writesItsPlaces_raise _
  | unframeMsg =>
    cases h
    refine needMode_elim (writesItsPlaces_of_mem_eq rfl) fun _ => ?_
    rcases needValid_cases _ (s.setMsgOut none) with ⟨hvalid, e⟩ | ⟨-, e⟩ <;> rw [e]
    · have hcopy := copyData_changesOnly (s := s.setMsgOut none) hwf hvalid
      rw [WritesItsPlaces, ChangesOnly, decodeFrom_limit, decodeFrom_mem]
      exact hcopy.mono fun _ => .unframeMsg
    · exact writesItsPlaces_of_mem_eq rfl
  | plData =>
    cases h
    refine needMode_elim (writesItsPlaces_raise _) fun _ => ?_
    rcases needValid_cases _ s with ⟨hvalid, e⟩ | ⟨-, e⟩ <;> rw [e]
    · obtain ⟨-, hfit, -⟩ := State.plValid_spec hvalid
      exact (copyData_changesOnly hwf hvalid).mono fun a ⟨hlo, hhi⟩ => .plData ⟨hlo, by omega⟩
    · exact writesItsPlaces_raise _
  | plNew n pipe =>
    cases h
    rcases needAtMost_cases n.toNat 30 .payloadTooLong _ s with ⟨hn, e⟩ | ⟨-, e⟩ <;> rw [e]
    · exact (buildFrame_changesOnly pipe hwf (by show 2 + _ ≤ 32; omega)).mono fun _ => .plNew n pipe
    · exact writesItsPlaces_raise _
  | plNewWithAddr n pipe =>
    cases h
    rcases needAtMost_cases n.toNat 28 .payloadTooLong _ s with ⟨hn, e⟩ | ⟨-, e⟩ <;> rw [e]
    · exact (buildFrame_changesOnly pipe hwf (by show 4 + _ ≤ 32; omega)).mono fun _ => .plNewWithAddr n pipe
    · exact writesItsPlaces_raise _
  | frameMsg x pipe =>
    exact exec_frameMsg_writesItsPlaces hwf h
  | optionSome _ x => cases x <;> cases hi
  | _ => cases hi

/-! ## The statement, byte by byte -/

/-- A byte of WBUF is written by one of the five writers of WBUF, and below LIMIT unless by PL_DATA. -/
theorem MayWrite.wbuf {limit k : Nat} (hk : k < 32) (h : MayWrite limit (0x20 + k) i) :
    ((∃ n, i = .bwWrite n) ∨ (∃ n, i = .msgEncode n) ∨ (∃ a pipe, i = .frameMsg a pipe) ∨ i = .plData ∨
      i = .unframeMsg) ∧ (i ≠ .plData → k < limit) := by
  cases h with
  | bwWrite n h => exact ⟨.inl ⟨n, rfl⟩, fun _ => Nat.lt_of_add_lt_add_left h.2⟩
  | msgEncode n h => exact ⟨.inr (.inl ⟨n, rfl⟩), fun _ => Nat.lt_of_add_lt_add_left h.2⟩
  | frameMsg a pipe h =>
    refine ⟨.inr (.inr (.inl ⟨a, pipe, rfl⟩)), fun _ => ?_⟩
    unfold InSlice InPayload at h
    omega
  | plData h => exact ⟨.inr (.inr (.inr (.inl rfl))), fun hdata => absurd rfl hdata⟩
  | unframeMsg h => exact ⟨.inr (.inr (.inr (.inr rfl))), fun _ => Nat.lt_of_add_lt_add_left h.2⟩
  | plNew _ _ h | plNewWithAddr _ _ h => have := h.1; omega

/-- A byte of PAYLOAD is written by one of the three writers of PAYLOAD. -/
theorem MayWrite.payload {limit k : Nat} (hlimit : limit ≤ 32) (h : MayWrite limit (0x40 + k) i) :
    (∃ n pipe, i = .plNew n pipe) ∨ (∃ n pipe, i = .plNewWithAddr n pipe) ∨ ∃ a pipe, i = .frameMsg a pipe := by
  cases h with
  | plNew n pipe h => exact .inl ⟨n, pipe, rfl⟩
  | plNewWithAddr n pipe h => exact .inr (.inl ⟨n, pipe, rfl⟩)
  | frameMsg a pipe h => exact .inr (.inr ⟨a, pipe, rfl⟩)
  | bwWrite _ h | msgEncode _ h | unframeMsg h | plData h => have := h.2; omega

/-- Settles O51: the bytes named lie outside the command's places (`exec_writesItsPlaces`). -/
theorem bufferWriters : Obligations.BufferWriters := by
  unfold Obligations.BufferWriters
  intro i s t hi hs h
  have hplaces := exec_writesItsPlaces hi hs h
  have hlimit : t.limit ≤ 32 := by
    obtain ⟨_, hnext, -, -, hlimit, -⟩ := inv_exec i hs
    cases h.symm.trans hnext
    exact hlimit
  refine ⟨fun hother k hk => hplaces _ fun hw => hother (hw.wbuf hk).1,
    fun hother k _ => hplaces _ fun hw => hother (hw.payload hlimit),
    fun hdata k hpast hk => hplaces _ fun hw => ?_⟩
  have hbelow := (hw.wbuf hk).2 hdata
  omega

end Sys2Proof.Proofs.BufferWriters
end

section
/-! Decoding the encoding of an instruction (spec/30_encoding.md): the command words, the wire rows, both those of values
and the reserved ones, and the payload frames. -/

namespace Sys2Proof.Proofs.EncodeDecode
open Sys2Proof.Machine Sys2Proof.Proofs.CommandWords

variable {c : Codec} {i : Instr} {t : WireType} {bits more rest : Bits}

/-! ## Command words (R100 to R104) -/

theorem decodeCommand_encode {w : Word} (h : encode i = .command w) : decodeCommand w = some i := by
  cases i with
  | nop | bwBegin _ | bwWrite _ | bwFinalize | brBegin _ | brRead _ | brEnd | msgEncode _ | msgDecode _ | plNew _ _
  | plNewWithAddr _ _ | plPipe | plLen | plAddress | plHeaderLength | plLenIsValid | plData | plPacket
  | plAddrFilter _ _ | pipeForAddr | frameMsg _ _ | unframeMsg | clearStatus => cases h; simp [decodeCommand]
  | optionSome _ x => cases x <;> cases h
  | _ => cases h

/-! ## The rows of values (R112 to R131) -/

/-- A code that is not reserved is left to the type's decoder. -/
theorem rowOrReserved_value {width k : Nat} {reserved : Nat → Bool} {bad : Nat → Instr} {e : Error} {d : Dec Instr}
    (hk : reserved (k % 2 ^ width) = false) :
    rowOrReserved c width reserved bad e d (bitsOf k width ++ rest) = d (bitsOf k width ++ rest) := by
  simp [rowOrReserved, hk]

/-- A reserved code is the whole row (R130). -/
theorem rowOrReserved_reserved {width : Nat} {reserved : Nat → Bool} {bad : Nat → Instr} {e : Error} {d : Dec Instr}
    (k : BitVec width) (hk : reserved k.toNat = true) (hbad : bad k.toNat = i) :
    rowOrReserved .dec width reserved bad e d (bitsOf k.toNat width ++ rest) = .ok i rest := by
  simp [rowOrReserved, Nat.mod_eq_of_lt k.isLt, hk, hbad]

/-- A value whose fields begin with a code of its type is read as its row. -/
theorem rowOrReserved_fields {α : Type} {width k : Nat} {reserved : Nat → Bool} {bad : Nat → Instr} {e : Error}
    {d : Dec α} {row : α → Instr} {fs : List Field} {x : α} (hk : reserved (k % 2 ^ width) = false)
    (hd : d (fieldsBits (codeField k width :: fs) ++ more) = .ok x more) :
    rowOrReserved c width reserved bad e (Dec.map d row) (fieldsBits (codeField k width :: fs) ++ more) =
      .ok (row x) more := by
  rw [fieldsBits_cons, codeField_bits, List.append_assoc] at hd ⊢
  rw [rowOrReserved_value hk]
  exact Dec.map_ok hd

theorem decSensorRow_fields (x : Sensor) : decSensorRow c (fieldsBits x.fields ++ more) = .ok (x.row c) more := by
  have hx := decSensor_fields x more
  cases x <;> exact rowOrReserved_fields rfl hx

theorem decActuatorRow_fields (x : Actuator) :
    decActuatorRow c (fieldsBits x.fields ++ more) = .ok (x.row c) more := by
  have hx := decActuator_fields x more
  cases x; exact rowOrReserved_fields rfl hx

theorem decCommandRow_fields (x : Command) :
    decCommandRow c (fieldsBits x.fields ++ more) = .ok (x.canon.row c) more := by
  have hx := decCommand_fields x more
  cases x <;> exact rowOrReserved_fields rfl hx

theorem decResponseRow_fields (x : Response) :
    decResponseRow c (fieldsBits x.fields ++ more) = .ok (x.canon.row c) more := by
  have hx := decResponse_fields x more
  cases x <;> exact rowOrReserved_fields rfl hx

/-- After the version, the row is read by the code. -/
theorem decMessageRow_version : decMessageRow c (bitsOf 1 2 ++ rest) =
    rowOrReserved c 4 (fun k => decide (4 < k)) (fun k => .messageReserved (.code (BitVec.ofNat 4 k))) .invalidMessage
      (Dec.map decMessageBody (Message.row c)) rest := by
  rw [decMessageRow, rowOrReserved_value rfl, Dec.andThen_code]

theorem decMessageRow_fields (x : Message) :
    decMessageRow c (fieldsBits x.fields ++ more) = .ok (x.canon.row c) more := by
  have hbody : decMessageBody (fieldsBits (codeField x.code 4 :: x.bodyFields) ++ more) = .ok x.canon more := by
    rw [fieldsBits_cons, codeField_bits, List.append_assoc]
    exact decMessageBody_fields x more
  rw [Message.fields, fieldsBits_cons, codeField_bits, List.append_assoc, decMessageRow_version]
  exact rowOrReserved_fields (by cases x <;> rfl) hbody

/-- The encoding of any value is read as the row of its canonical value (R345), and what follows it stays unread. -/
theorem decRow_fields (v : WireValue) : decRow c v.type (fieldsBits v.fields ++ more) = .ok (v.canon.row c) more := by
  cases v with
  | board x => exact Dec.map_ok (decBoard_fields x more)
  | sensor x => exact decSensorRow_fields x
  | actuator x => exact decActuatorRow_fields x
  | limbType x => exact Dec.map_ok (decLimbType_fields x more)
  | limb x => exact Dec.map_ok (decLimb_fields x more)
  | nodeInfo x => exact Dec.map_ok (decNodeInfo_fields x more)
  | optionSensor x =>
    have hx := decOption_fields (g := id) decSensor_fields x more
    rw [Option.map_id] at hx
    exact Dec.map_ok hx
  | optionLimb x => exact Dec.map_ok (decOption_fields decLimb_fields x more)
  | command x => exact decCommandRow_fields x
  | response x => exact decResponseRow_fields x
  | messageData x => exact Dec.map_ok (decMessageData_fields x more)
  | message x => exact decMessageRow_fields x

theorem encode_row (c : Codec) (v : WireValue) : encode (v.row c) = .wire c v.type (fieldsBits v.fields) := by
  cases v with
  | limb _ | nodeInfo _ => rfl
  | board x | sensor x | actuator x | limbType x | optionSensor x | optionLimb x | command x | response x
  | messageData x | message x => cases x <;> rfl

/-- The row of a value is well formed exactly where the value is canonical: every field then holds its value. -/
theorem wf_row_iff (c : Codec) (v : WireValue) : (v.row c).wf = true ↔ v.canon = v := by
  cases v with
  | nodeInfo _ => exact iff_of_true rfl rfl
  | board x | sensor x | actuator x | limbType x | optionSensor x => cases x <;> exact iff_of_true rfl rfl
  | limb x => cases x; simp [WireValue.row, WireValue.canon, Limb.row, Limb.canon, Instr.wf]
  | optionLimb x => cases x <;> simp [WireValue.row, WireValue.canon, optionLimbRow, Instr.wf, Present.wf]
  | command x => cases x <;> simp [WireValue.row, WireValue.canon, Command.row, Command.canon, Instr.wf]
  | response x => cases x <;> simp [WireValue.row, WireValue.canon, Response.row, Response.canon, Instr.wf]
  | messageData x => cases x <;> simp [WireValue.row, WireValue.canon, MessageData.row, MessageData.canon, Instr.wf]
  | message x => cases x <;> simp [WireValue.row, WireValue.canon, Message.row, Message.canon, Instr.wf]

/-! ## The reserved rows (R130) -/

/-- The rows that only a decoder meets. -/
inductive ReservedRow : Instr → Prop where
  | sensor (k : BitVec 4) : ReservedRow (.sensorReserved k)
  | actuator (k : BitVec 4) : ReservedRow (.actuatorReserved k)
  | command (k : BitVec 4) : ReservedRow (.commandReserved k)
  | response (k : BitVec 4) : ReservedRow (.responseReserved k)
  | message (head : BadHead) : ReservedRow (.messageReserved head)

theorem decRow_reserved (hrow : ReservedRow i) (hwf : i.wf = true) (henc : encode i = .wire c t bits) :
    decRow c t (bits ++ more) = .ok i more := by
  cases hrow with
  | sensor k | actuator k | command k | response k =>
    cases henc
    rw [fieldsBits_cons, vecField_bits, fieldsBits_nil, List.append_nil, decRow]
    exact rowOrReserved_reserved k hwf (by simp)
  | message head =>
    cases henc
    cases head with
    | version v =>
      rw [BadHead.fields, fieldsBits_cons, vecField_bits, fieldsBits_nil, List.append_nil, decRow]
      exact rowOrReserved_reserved v hwf (by simp)
    | code k =>
      rw [BadHead.fields, fieldsBits_cons, fieldsBits_cons, codeField_bits, vecField_bits, fieldsBits_nil,
        List.append_nil, List.append_assoc]
      exact decMessageRow_version.trans (rowOrReserved_reserved k hwf (by simp))

/-! ## Every wire row -/

/-- A row of the wire format is that of a value, or a reserved one. -/
theorem wire_cases (h : encode i = .wire c t bits) : (∃ c v, i = WireValue.row c v) ∨ ReservedRow i := by
  cases i with
  | nop | bwBegin _ | bwWrite _ | bwFinalize | brBegin _ | brRead _ | brEnd | msgEncode _ | msgDecode _ | plNew _ _
  | plNewWithAddr _ _ | plPipe | plLen | plAddress | plHeaderLength | plLenIsValid | plData | plPacket
  | plAddrFilter _ _ | pipeForAddr | frameMsg _ _ | unframeMsg | clearStatus | frameWithAddress _ _ _ _
  | frameWithoutAddress _ _ _ => cases h
  | messageReserved head => exact .inr (.message head)
  | commandReserved k => exact .inr (.command k)
  | responseReserved k => exact .inr (.response k)
  | sensorReserved k => exact .inr (.sensor k)
  | actuatorReserved k => exact .inr (.actuator k)
  | messageMessage c d => exact .inl ⟨c, .message (.message d), rfl⟩
  | messageRelayMessage c n d => exact .inl ⟨c, .message (.relayMessage n d), rfl⟩
  | messageSearchingNetwork c n => exact .inl ⟨c, .message (.searchingNetwork n), rfl⟩
  | messageNetwork c n a => exact .inl ⟨c, .message (.network n a), rfl⟩
  | messageDebugMessage c n b => exact .inl ⟨c, .message (.debugMessage n b), rfl⟩
  | dataCommand c id k => exact .inl ⟨c, .messageData (.command id k), rfl⟩
  | dataResponse c id r => exact .inl ⟨c, .messageData (.response id r), rfl⟩
  | commandInfo c => exact .inl ⟨c, .command .info, rfl⟩
  | commandLimbs c => exact .inl ⟨c, .command .limbs, rfl⟩
  | commandSetLimb c l => exact .inl ⟨c, .command (.setLimb l), rfl⟩
  | commandToggleLimb c id => exact .inl ⟨c, .command (.toggleLimb id), rfl⟩
  | commandSetLimbType c k => exact .inl ⟨c, .command (.setLimbType k), rfl⟩
  | responseOk c => exact .inl ⟨c, .response .ok, rfl⟩
  | responseInfo c n => exact .inl ⟨c, .response (.info n), rfl⟩
  | responseLimbs c x y z => exact .inl ⟨c, .response (.limbs x y z), rfl⟩
  | responseHeartbeat c v => exact .inl ⟨c, .response (.heartbeat v), rfl⟩
  | responseErrLimbNotFound c => exact .inl ⟨c, .response .errLimbNotFound, rfl⟩
  | responseErrLimbTypeDoesntMatch c => exact .inl ⟨c, .response .errLimbTypeDoesntMatch, rfl⟩
  | limb c id k => exact .inl ⟨c, .limb ⟨id, k⟩, rfl⟩
  | limbTypeSensor c r d => exact .inl ⟨c, .limbType (.sensor r d), rfl⟩
  | limbTypeActuator c a => exact .inl ⟨c, .limbType (.actuator a), rfl⟩
  | sensorBattery c p => exact .inl ⟨c, .sensor (.battery p), rfl⟩
  | sensorTempHum c x y => exact .inl ⟨c, .sensor (.tempHum x y), rfl⟩
  | sensorCurrent c m => exact .inl ⟨c, .sensor (.current m), rfl⟩
  | actuatorLight c on => exact .inl ⟨c, .actuator (.light on), rfl⟩
  | nodeInfo c b x => exact .inl ⟨c, .nodeInfo ⟨b, x⟩, rfl⟩
  | boardB0 c => exact .inl ⟨c, .board .b0, rfl⟩
  | boardB1 c => exact .inl ⟨c, .board .b1, rfl⟩
  | boardB2 c => exact .inl ⟨c, .board .b2, rfl⟩
  | boardB3 c => exact .inl ⟨c, .board .b3, rfl⟩
  | optionNone c o =>
    cases o with
    | sensor => exact .inl ⟨c, .optionSensor none, rfl⟩
    | limb => exact .inl ⟨c, .optionLimb none, rfl⟩
  | optionSome c x =>
    cases x with
    | sensor x => exact .inl ⟨c, .optionSensor (some x), rfl⟩
    | limb x => exact .inl ⟨c, .optionLimb (some x), rfl⟩

/-- The decoder of rows reads the encoding of a well-formed row as that row, and leaves what follows it unread. -/
theorem decRow_encode (hwf : i.wf = true) (henc : encode i = .wire c t bits) (more : Bits) :
    decRow c t (bits ++ more) = .ok i more := by
  rcases wire_cases henc with ⟨c', v, rfl⟩ | hrow
  · have hcanon := (wf_row_iff c' v).mp hwf
    rw [encode_row] at henc
    cases henc
    rw [decRow_fields, hcanon]
  · exact decRow_reserved hrow hwf henc

/-! ## Frames (R110, R111) -/

/-- The two address bytes, most significant first again. -/
theorem append_address_bytes (a : Half) : a.extractLsb' 8 8 ++ a.extractLsb' 0 8 = a := by
  apply BitVec.eq_of_toNat_eq
  have := a.isLt
  rw [BitVec_append_toNat]
  simp only [BitVec.extractLsb'_toNat, Nat.shiftRight_eq_div_pow]
  omega

section
variable {address : Option Half} {n : Nat}

/-- R111: the flag in bit 7, the length below it. -/
theorem lengthByte_toNat (hfit : headerLength address + n ≤ 32) :
    (lengthByte address n).toNat = address.isSome.toNat * 128 + n := by
  rw [lengthByte, BitVec.toNat_ofNat]
  cases address <;> simp <;> omega

theorem lengthByte_length (hfit : headerLength address + n ≤ 32) : (lengthByte address n).toNat % 128 = n := by
  have hheader := headerLength_cases address
  rw [lengthByte_toNat hfit]
  omega

theorem lengthByte_flag (hfit : headerLength address + n ≤ 32) :
    (lengthByte address n).getLsbD 7 = address.isSome := by
  have hheader := headerLength_cases address
  rw [BitVec.getLsbD, Nat.testBit_eq_decide_div_mod_eq, lengthByte_toNat hfit]
  cases address <;> simp <;> omega

end

/-- A frame whose data fits after its header is decoded to its pipe, its address and its data. -/
theorem decodeFrame_frameBytes {f : Frame} (hfit : headerLength f.address + f.data.length ≤ 32) :
    decodeFrame (frameBytes f.pipe f.address f.data) = some f := by
  obtain ⟨pipe, address, data⟩ := f
  dsimp only at hfit ⊢
  have hcapacity : data.length ≤ Config.payloadSize - headerLength address := by show _ ≤ 32 - _; omega
  have hlen : (frameBytes pipe address data).length = Config.payloadSize := frameBytes_length _ _ _ hcapacity
  have hpipe : byteAt (frameBytes pipe address data) 0 = pipe := by cases address <;> rfl
  have hlength : byteAt (frameBytes pipe address data) 1 = lengthByte address data.length := by cases address <;> rfl
  have haddress : (if address.isSome then
      some (byteAt (frameBytes pipe address data) 3 ++ byteAt (frameBytes pipe address data) 2)
      else none) = address := by
    cases address with
    | none => rfl
    | some a => exact congrArg some (append_address_bytes a)
  have hdata : ((frameBytes pipe address data).drop (headerLength address)).take data.length = data := by
    rw [frameBytes, List.append_assoc, ← frameHeader_length pipe address data.length, List.drop_left, List.take_left]
  simp only [decodeFrame, hlength, lengthByte_length hfit, lengthByte_flag hfit, haddress]
  rw [if_pos ⟨hlen, hcapacity⟩, hpipe, hdata]

theorem encode_frameRow (c : Codec) (f : Frame) :
    encode (f.row c) = .frame c (frameBytes f.pipe f.address f.data) := by
  obtain ⟨pipe, address, data⟩ := f
  cases address <;> rfl

theorem wf_frameRow_iff (c : Codec) (f : Frame) :
    (f.row c).wf = true ↔ headerLength f.address + f.data.length ≤ 32 := by
  obtain ⟨pipe, address, data⟩ := f
  cases address <;> simp [Frame.row, Instr.wf, headerLength] <;> omega

theorem frame_cases {bytes : List Byte} (h : encode i = .frame c bytes) : ∃ f : Frame, i = f.row c := by
  cases i with
  | frameWithAddress _ pipe a data => cases h; exact ⟨⟨pipe, some a, data⟩, rfl⟩
  | frameWithoutAddress _ pipe data => cases h; exact ⟨⟨pipe, none, data⟩, rfl⟩
  | optionSome _ x => cases x <;> cases h
  | _ => cases h

/-! ## The statements -/

/-- Settles O1, by the three encodings: `decodeCommand_encode`, `decRow_encode` with no bits left over, and
`decodeFrame_frameBytes`. -/
theorem decodeOfEncode : Obligations.DecodeOfEncode := by
  unfold Obligations.DecodeOfEncode
  intro i hwf
  cases henc : encode i with
  | command w => exact decodeCommand_encode henc
  | wire c t bits =>
    have hread := decRow_encode hwf henc []
    rw [List.append_nil] at hread
    rw [decode, hread]
  | frame c bytes =>
    obtain ⟨f, rfl⟩ := frame_cases henc
    rw [encode_frameRow] at henc
    cases henc
    rw [decode, decodeFrame_frameBytes ((wf_frameRow_iff c f).mp hwf), Option.map_some]

/-- Settles O5: the thirteen words are closed, so the decoders compute. -/
theorem sampleWordsDecode : Obligations.SampleWordsDecode := by
  unfold Obligations.SampleWordsDecode
  decide

end Sys2Proof.Proofs.EncodeDecode
end

section
/-! Proofs for the wire rows and the frame layouts run by themselves (spec/41_payload_framer.md, spec/42_message_types.md,
spec/43_message_envelope.md): a wire row is its field list handed to the encoder or to the decoder. -/

namespace Sys2Proof.Proofs.RowsAlone
open Sys2Proof.Machine Sys2Proof.Proofs.RowsRead

variable {s : State} {fs gs rest : List Field} {f : Field}

/-- Every row of a value is its fields, run by its half of the codec. -/
theorem exec_row (c : Codec) (v : WireValue) (s : State) : exec (v.row c) s = .next (wireRow c v.fields s) := by
  cases v with
  | limb _ | nodeInfo _ => rfl
  | board x | sensor x | actuator x | limbType x | optionSensor x | optionLimb x | command x | response x
  | messageData x | message x => cases x <;> rfl

/-! ## The decoder's half (R162) -/

theorem wireRow_dec_fits (hfit : s.cursor + fieldsWidth fs ≤ 8 * s.limit) :
    wireRow .dec fs s = s.setCursor (s.cursor + fieldsWidth fs) := by
  rw [wireRow, runDec_readFields_ok hfit]

theorem wireRow_dec_short (hgs : s.cursor + fieldsWidth gs ≤ 8 * s.limit)
    (hf : 8 * s.limit < s.cursor + fieldsWidth gs + f.width) :
    wireRow .dec (gs ++ f :: rest) s = (s.setCursor (s.cursor + fieldsWidth gs)).raiseDecode .bufferUnderflow := by
  rw [wireRow, runDec_readFields_short hgs hf]

/-- A row that does not fit has a first field that does not fit. -/
theorem exists_failing_field (hs : s.cursor ≤ 8 * s.limit) (hlong : 8 * s.limit < s.cursor + fieldsWidth fs) :
    ∃ gs f rest, fs = gs ++ f :: rest ∧ s.cursor + fieldsWidth gs ≤ 8 * s.limit ∧
      8 * s.limit < s.cursor + fieldsWidth gs + f.width := by
  obtain ⟨gs, f, rest, hfields, hgs, hf, -⟩ := readFields_err fs s.unread (by rw [State.unread_length]; omega)
  rw [State.unread_length] at hgs hf
  exact ⟨gs, f, rest, hfields, by omega, by omega⟩

/-- Settles O43: `wireRow_dec_fits` where the slice holds the row, `wireRow_dec_short` at the first field that it does
not hold. -/
theorem rowDecodes : Obligations.RowDecodes := by
  unfold Obligations.RowDecodes
  rintro v s ⟨-, -, -, hcursor⟩
  rw [exec_row]
  refine ⟨fun hfit => congrArg _ (wireRow_dec_fits hfit), fun hlong => ?_⟩
  obtain ⟨gs, f, rest, hfields, hgs, hf⟩ := exists_failing_field hcursor hlong
  refine ⟨gs, f, rest, hfields, hgs, hf, ?_⟩
  rw [hfields]
  exact congrArg _ (wireRow_dec_short hgs hf)

/-! ## The encoder's half (R152) -/

/-- What fields that fit leave when they go out at the cursor: only the buffers and the cursor change, the stream as R152
says. -/
theorem writeBits_fields (gs : List Field) (hs : s.Inv) (hfit : s.cursor + fieldsWidth gs ≤ 8 * s.limit) :
    ∃ m, Memory.wf m = true ∧
      s.writeBits (fieldsBits gs) =
        { s with mem := m, bytePos := (s.cursor + fieldsWidth gs) / 8, bitPos := (s.cursor + fieldsWidth gs) % 8 } ∧
      (∀ p, ({ s with mem := m } : State).streamBit p = writtenBit s (fieldsBits gs) p) ∧
      ∀ a, ¬ (0x20 + s.cursor / 8 ≤ a ∧ a < 0x20 + bytesFor (s.cursor + fieldsWidth gs)) →
        Memory.read m a = s.byte a := by
  obtain ⟨hwf, hbit, hlimit, -⟩ := hs
  rw [← fieldsBits_length] at hfit ⊢
  have hlen : s.cursor + (fieldsBits gs).length ≤ 256 := by omega
  obtain ⟨m, hwrite, hm, hstream⟩ := State.writeBits_spec (fieldsBits gs) s hwf hbit hlen
  have houtside := fun a => State.writeBits_outside (a := a) hwf hbit hlen
  rw [hwrite] at hstream houtside
  exact ⟨m, hm, hwrite, hstream, houtside⟩

/-- Settles O42: `writeFields_ok` and `writeFields_err` for how far the fields go, `writeBits_fields` for what these
leave, `WireValue.violations_fields` for CV. -/
theorem rowEncodes : Obligations.RowEncodes := by
  unfold Obligations.RowEncodes
  intro v s hs
  rw [exec_row, wireRow]
  refine ⟨fun hfit => ?_, fun hlong => ?_⟩
  · obtain ⟨m, hm, hwrite, hstream, houtside⟩ := writeBits_fields v.fields hs hfit
    have hcv : v.fields.any Field.violates = decide (v.canon ≠ v) := v.violations_fields
    refine ⟨m, hm, ?_, hstream, houtside⟩
    rw [writeFields_ok _ s hs hfit, hwrite, hcv]
    rfl
  · obtain ⟨gs, f, rest, hfields, hgs, hf, herr⟩ := writeFields_err v.fields s hs hlong
    obtain ⟨m, hm, hwrite, hstream, -⟩ := writeBits_fields gs hs hgs
    refine ⟨gs, f, rest, m, hfields, hgs, hf, hm, ?_, hstream⟩
    rw [herr, hwrite]
    rfl

/-! ## The frame layouts (R110) -/

section
variable {pipe : Byte} {address : Option Half} {data : List Byte}

theorem exec_frame (c : Codec) (x : Frame) (s : State) :
    exec (x.row c) s = .next (frameRow c x.pipe x.address x.data s) := by
  obtain ⟨pipe, address, data⟩ := x
  cases address <;> rfl

theorem frameRow_enc_fits (hfit : data.length ≤ 32 - headerLength address) :
    frameRow .enc pipe address data s = s.storePayload (frameBytes pipe address data) := if_pos (decide_eq_true hfit)

theorem frameRow_enc_long (hlong : 32 - headerLength address < data.length) :
    frameRow .enc pipe address data s = s.raise .payloadTooLong := by
  refine if_neg ?_
  rw [decide_eq_true_eq]
  exact Nat.not_le_of_lt hlong

theorem frameRow_dec_fits (hdata : data ≠ []) (hfit : data.length ≤ 32 - headerLength address) :
    frameRow .dec pipe address data s = s.storeWbuf (s.payloadBytes (headerLength address) data.length) := by
  simp [frameRow, hdata, hfit]

theorem frameRow_dec_invalid (hbad : data = [] ∨ 32 - headerLength address < data.length) :
    frameRow .dec pipe address data s = s.raise .invalidLength := by
  refine if_neg ?_
  rw [Bool.and_eq_true, decide_eq_true_eq, Bool.not_eq_true', List.isEmpty_eq_false_iff]
  rintro ⟨hfit, hne⟩
  rcases hbad with hempty | hlong
  · exact hne hempty
  · exact Nat.not_le_of_lt hlong hfit

end

/-- Settles O45: `frameRow` by its four outcomes; the stores end inside the buffers (`storedAt_writeBytes`). -/
theorem frameRows : Obligations.FrameRows := by
  unfold Obligations.FrameRows
  intro x s hwf
  rw [exec_frame, exec_frame]
  refine ⟨fun hfit => ?enc, fun hlong => congrArg _ (frameRow_enc_long hlong), fun hdata hfit => ?dec,
    fun hbad => congrArg _ (frameRow_dec_invalid hbad)⟩
  case enc =>
    have hlen := frameBytes_length x.pipe x.address x.data hfit
    refine ⟨_, ?_, congrArg _ (frameRow_enc_fits hfit)⟩
    have hstored := storedAt_writeBytes (a := 0x40) hwf (by omega) (by rw [hlen])
    obtain ⟨pipe, address, data⟩ := x
    cases address <;> exact hstored
  case dec =>
    refine ⟨_, ?_, congrArg _ (frameRow_dec_fits hdata hfit)⟩
    exact storedAt_writeBytes (a := 0x20) hwf le_rfl (by rw [State.payloadBytes_length]; omega)

end Sys2Proof.Proofs.RowsAlone
end

section
/-! Proofs for the steps that run one row (notes/assumptions/5.md and 6.md): the row at the cursor, the frame in PAYLOAD,
the row given to the encoder, and the word of the opcode table that is placed. -/

namespace Sys2Proof.Proofs.RowSteps
open Sys2Proof.Machine Sys2Proof.Proofs.Window Sys2Proof.Proofs.HostAccess Sys2Proof.Proofs.MessageCommands
  Sys2Proof.Proofs.EncodeDecode

variable {s : State} {i : Instr}

theorem fetchRow_of_read {t : WireType} {rest : Bits} (h : decRow .dec t s.unread = .ok i rest) :
    fetchRow t s = exec i s := by
  rw [fetchRow, runDec_ok h]

theorem fetchFrame_of_frame {f : Frame} (h : decodeFrame (s.payloadBytes 0 32) = some f) :
    fetchFrame s = exec (f.row .dec) s := by
  rw [fetchFrame, h]

/-- Settles O7: the row at the cursor by `decRow_encode`; the other three steps are what `runAction` says of them. -/
theorem stepRunsRow : Obligations.StepRunsRow := by
  unfold Obligations.StepRunsRow
  refine ⟨fun i t bits more s rest hwf henc hunread => ?_, fun f s rest hframe => ?_,
    fun v s rest => step_pending s (.encodeStep v) rest, fun f s rest => step_pending s (.encodeFrame f) rest⟩
  · have hread : decRow .dec t ({ s with pending := rest } : State).unread = .ok i more := by
      rw [← decRow_encode hwf henc more, ← hunread]
      rfl
    exact (step_pending s _ rest).trans (fetchRow_of_read hread)
  · exact (step_pending s _ rest).trans (fetchFrame_of_frame (s := { s with pending := rest }) hframe)

/-! ## A word that is placed (notes/assumptions/6.md) -/

/-- The slice of 7 bytes that holds a placed row: its byte, then zeros. -/
def rowSlice (s : State) (w : Nat) : State := (s.openSlice 7).storeWbuf (BitVec.ofNat 8 w :: List.replicate 6 0)

theorem rowSlice_wbuf (hwf : Memory.wf s.mem = true) (w : Nat) :
    (rowSlice s w).wbuf 0 = BitVec.ofNat 8 w ∧ ∀ k, k < 6 → (rowSlice s w).wbuf (k + 1) = 0 := by
  have hstored : StoredAt s.mem (rowSlice s w).mem 0x20 (BitVec.ofNat 8 w :: List.replicate 6 0) :=
    storedAt_writeBytes hwf le_rfl (by show 0x20 + 7 ≤ 0x60; omega)
  refine ⟨wbuf_of_storedAt hstored (by simp), fun k hk => ?_⟩
  rw [wbuf_of_storedAt hstored (by show k + 1 < 7; omega), List.getD_cons_succ, List.getD_eq_getElem?_getD]
  exact List.getElem?_getD_replicate_default_eq _ _ _

theorem rowSlice_unread (hwf : Memory.wf s.mem = true) (w : Nat) :
    (rowSlice s w).unread = bitsOf w 8 ++ List.replicate 48 false := by
  obtain ⟨hbyte, hzero⟩ := rowSlice_wbuf hwf w
  have hunread : (rowSlice s w).unread = (rowSlice s w).bitsFrom 0 (8 + 48) := rfl
  rw [hunread, State.bitsFrom_add, bitsFrom_byte, hbyte, BitVec.toNat_ofNat, bitsOf_mod _ _ _ le_rfl]
  refine congrArg _ (List.eq_replicate_iff.mpr ⟨State.bitsFrom_length .., fun b hb => ?_⟩)
  obtain ⟨k, hk, rfl⟩ := List.mem_map.mp hb
  rw [List.mem_range] at hk
  rw [State.streamBit, show (0 + 8 + k) / 8 = k / 8 + 1 by omega, hzero _ (by omega)]
  exact BitVec.getLsbD_zero

/-- An 8-bit row of the table is what the decoder reads in the slice that holds it. -/
theorem decRow_of_decodeTableWord {w : Nat} (hwf : Memory.wf s.mem = true) (h : decodeTableWord 8 w = some i) :
    ∃ rest, decRow .dec .command (rowSlice s w).unread = .ok i rest := by
  rw [decodeTableWord, if_pos le_rfl] at h
  rw [rowSlice_unread hwf]
  split at h
  · rename_i j rest hread
    cases h
    exact ⟨rest, hread⟩
  · cases h

/-- The decoder's step on a Command is the next thing that runs. -/
theorem step_placed_row (s : State) (w : Nat) : step (s.withFetchWord 8 w) = fetchRow .command (rowSlice s w) := rfl

/-- Settles O8: a command word is the host's next write to CMD (`stepRunsIssuedCommand`), an 8-bit row is what the
decoder reads in its slice (`decRow_of_decodeTableWord`). -/
theorem placedWordRuns : Obligations.PlacedWordRuns := by
  unfold Obligations.PlacedWordRuns
  obtain ⟨hissued, -⟩ := stepRunsIssuedCommand
  refine ⟨fun w i s hdec => hissued (BitVec.ofNat 32 w) i s s.pending hdec, fun w i s hwf hdec => ?_⟩
  obtain ⟨rest, hread⟩ := decRow_of_decodeTableWord hwf hdec
  exact (step_placed_row s w).trans (fetchRow_of_read hread)

end Sys2Proof.Proofs.RowSteps
end

section
/-! Proofs for the registers after reset (spec/10_state.md R47, spec/70_reset_and_hazards.md R421). -/

namespace Sys2Proof.Proofs.ResetState
open Sys2Proof.Machine Sys2Proof.Proofs.Control

/-- Settles O11: `State.reset` register by register, and `status_eq_zero` for STATUS. -/
theorem resetRegisters : Obligations.ResetRegisters := by
  unfold Obligations.ResetRegisters
  exact ⟨rfl, rfl, rfl, rfl, rfl, rfl, rfl, rfl, rfl, rfl, rfl, status_eq_zero rfl rfl rfl rfl rfl rfl rfl rfl⟩

end Sys2Proof.Proofs.ResetState
end
